-- ==== Sys2Proof/Word.lean ====
section
/-! DEFINITION. The word types of the block: byte, 64-bit word, 128-bit descriptor
(spec/00_scope.md R6, spec/30_encoding.md R70). -/

namespace Sys2Proof

/-- A byte: 8 bits (R6). -/
abbrev Byte := BitVec 8

/-- A word: 64 bits, bit 0 the least significant (R6). -/
abbrev Word := BitVec 64

/-- The command descriptor `D`: 128 bits, bit 0 the least significant (R70, R71). -/
abbrev Descriptor := BitVec 128

end Sys2Proof
end

