-- ==== Sys2Proof/Config.lean ====
section
/-! DEFINITION. The named parameters of the block (spec/00_scope.md R5, spec/10_state.md R38).
They are no architectural state: no command writes them. `State` carries them so that every
statement about a state holds for every value of them (notes/assumptions/5.md). -/

namespace Sys2Proof

/-- The parameters R5 leaves open. -/
structure Params where
  /-- `NPRG`: how many automaton contexts the block has. -/
  nprg : Nat
  /-- `NHASH`: how many hash contexts the block has. -/
  nhash : Nat
  /-- `HASH_ABSORB_OVERWRITE`: whether the hash block step overwrites instead of XORing (R174). -/
  hashAbsorbOverwrite : Bool
  deriving DecidableEq, Repr

/-- The defaults of R5: two contexts of each kind, XOR. -/
def Params.default : Params :=
  { nprg := 2, nhash := 2, hashAbsorbOverwrite := false }

end Sys2Proof
end

