-- ==== Sys2Proof/Syntax.lean ====
section
/-! DEFINITION. The commands of the block: one constructor per row of spec/opcode_table.json,
its arguments the descriptor fields the row uses, at the width spec/30_encoding.md R71 and R76
give them. Payload bytes are not part of the command word: they follow it on DIN (R70, R74). -/

namespace Sys2Proof

/-- The 15 commands (R75). -/
inductive Instr where
  /-- BASHS, opcode 0x01: rotation amounts in `P0`, `P1`, `P2[7:0]`, `P2[15:8]` (R103). -/
  | bashs (m1 n1 m2 n2 : Byte)
  /-- BASHF, opcode 0x02: byte-order flag in `P0` (R117). -/
  | bashf (be : Byte)
  /-- PRG.START, opcode 0x10 (R135). -/
  | prgStart (ctx annLen keyLen : Byte) (l : BitVec 16) (d : Byte)
  /-- PRG.RESTART, opcode 0x11 (R136). -/
  | prgRestart (ctx annLen keyLen : Byte)
  /-- PRG.ABSORB, opcode 0x12 (R137). -/
  | prgAbsorb (ctx : Byte) (len : BitVec 64)
  /-- PRG.SQUEEZE, opcode 0x13 (R138). -/
  | prgSqueeze (ctx : Byte) (count : BitVec 64)
  /-- PRG.ENCRYPT, opcode 0x14 (R139). -/
  | prgEncrypt (ctx : Byte) (len : BitVec 64)
  /-- PRG.DECRYPT, opcode 0x15 (R140). -/
  | prgDecrypt (ctx : Byte) (len : BitVec 64)
  /-- PRG.RATCHET, opcode 0x16 (R141). -/
  | prgRatchet (ctx : Byte)
  /-- PRG.CLONE, opcode 0x17: destination in `CTX`, source in `P0` (R150). -/
  | prgClone (dst src : Byte)
  /-- HASH.INIT, opcode 0x20 (R172). -/
  | hashInit (ctx : Byte) (outLen : BitVec 16)
  /-- HASH.RESET, opcode 0x21 (R173). -/
  | hashReset (ctx : Byte)
  /-- HASH.UPDATE, opcode 0x22 (R175). -/
  | hashUpdate (ctx : Byte) (len : BitVec 64)
  /-- HASH.DIGEST, opcode 0x23 (R176). -/
  | hashDigest (ctx : Byte)
  /-- HASH.CLONE, opcode 0x24: destination in `CTX`, source in `P0` (R177). -/
  | hashClone (dst src : Byte)
  deriving DecidableEq, Repr

end Sys2Proof
end

