-- ==== Sys2Proof/WellFormed.lean ====
section
/-! DEFINITION. What makes a command legal beyond its opcode and its must-be-zero fields:
spec/30_encoding.md R77 (c), (d), (e). The operand values that R78 leaves to the operation
(`l`, `d`, announcement, key and output lengths) are not checked here. -/

namespace Sys2Proof

/-- Why a descriptor is illegal (R77); `truncated` is the model's own, for fewer than 16 bytes. -/
inductive Reject where
  /-- Fewer than 16 bytes: no descriptor. -/
  | truncated
  /-- R77 (a): `OP` is none of the 15 values. -/
  | unknownOpcode
  /-- R77 (b): `RSV` is not zero. -/
  | reservedNonzero
  /-- R77 (b): a field R76 marks MBZ for the opcode is not zero. -/
  | mbzNonzero
  /-- R77 (c): a context index is not below `NPRG` or `NHASH`. -/
  | contextOutOfRange
  /-- R77 (d): `be` is greater than 1. -/
  | byteOrderFlag
  /-- R77 (e): a rotation amount is greater than 64. -/
  | rotationAmount
  deriving DecidableEq, Repr

/-- The defect of a command under R77 (c), (d), (e), if it has one. -/
def Instr.defect (p : Params) : Instr → Option Reject
  | .bashs m1 n1 m2 n2 =>
      if m1.toNat ≤ 64 ∧ n1.toNat ≤ 64 ∧ m2.toNat ≤ 64 ∧ n2.toNat ≤ 64 then none
      else some .rotationAmount
  | .bashf be => if be.toNat ≤ 1 then none else some .byteOrderFlag
  | .prgStart c _ _ _ _ => if c.toNat < p.nprg then none else some .contextOutOfRange
  | .prgRestart c _ _ => if c.toNat < p.nprg then none else some .contextOutOfRange
  | .prgAbsorb c _ => if c.toNat < p.nprg then none else some .contextOutOfRange
  | .prgSqueeze c _ => if c.toNat < p.nprg then none else some .contextOutOfRange
  | .prgEncrypt c _ => if c.toNat < p.nprg then none else some .contextOutOfRange
  | .prgDecrypt c _ => if c.toNat < p.nprg then none else some .contextOutOfRange
  | .prgRatchet c => if c.toNat < p.nprg then none else some .contextOutOfRange
  | .prgClone dst src =>
      if dst.toNat < p.nprg ∧ src.toNat < p.nprg then none else some .contextOutOfRange
  | .hashInit c _ => if c.toNat < p.nhash then none else some .contextOutOfRange
  | .hashReset c => if c.toNat < p.nhash then none else some .contextOutOfRange
  | .hashUpdate c _ => if c.toNat < p.nhash then none else some .contextOutOfRange
  | .hashDigest c => if c.toNat < p.nhash then none else some .contextOutOfRange
  | .hashClone dst src =>
      if dst.toNat < p.nhash ∧ src.toNat < p.nhash then none else some .contextOutOfRange

/-- A command is well formed when R77 (c), (d), (e) find nothing. -/
def Instr.wellFormed (p : Params) (i : Instr) : Bool :=
  (i.defect p).isNone

end Sys2Proof
end

