-- ==== Sys2Proof/Decode.lean ====
section
/-! DEFINITION. The decoder and the encoder of the 128-bit descriptor
(spec/30_encoding.md R70 to R79). The decoder is total on descriptors and on byte lists and
rejects by name. -/

namespace Sys2Proof

/-- `OP = D[7:0]` (R71). -/
def fieldOp (d : Descriptor) : Byte := d.extractLsb' 0 8
/-- `CTX = D[15:8]` (R71). -/
def fieldCtx (d : Descriptor) : Byte := d.extractLsb' 8 8
/-- `P0 = D[23:16]` (R71). -/
def fieldP0 (d : Descriptor) : Byte := d.extractLsb' 16 8
/-- `P1 = D[31:24]` (R71). -/
def fieldP1 (d : Descriptor) : Byte := d.extractLsb' 24 8
/-- `P2 = D[47:32]` (R71). -/
def fieldP2 (d : Descriptor) : BitVec 16 := d.extractLsb' 32 16
/-- `P3 = D[55:48]` (R71). -/
def fieldP3 (d : Descriptor) : Byte := d.extractLsb' 48 8
/-- `RSV = D[63:56]` (R71). -/
def fieldRsv (d : Descriptor) : Byte := d.extractLsb' 56 8
/-- `Q = D[127:64]` (R71). -/
def fieldQ (d : Descriptor) : BitVec 64 := d.extractLsb' 64 64

/-- The fields R76 may mark MBZ, `RSV` apart (it is MBZ in every row). -/
inductive Field where
  | ctx | p0 | p1 | p2 | p3 | q
  deriving DecidableEq, Repr

/-- Whether a field of a descriptor is zero. -/
def Field.isZero (d : Descriptor) : Field → Bool
  | .ctx => fieldCtx d == 0
  | .p0 => fieldP0 d == 0
  | .p1 => fieldP1 d == 0
  | .p2 => fieldP2 d == 0
  | .p3 => fieldP3 d == 0
  | .q => fieldQ d == 0

/-- The operation names of the opcode map (R75). -/
inductive Op where
  | bashs | bashf
  | prgStart | prgRestart | prgAbsorb | prgSqueeze | prgEncrypt | prgDecrypt | prgRatchet | prgClone
  | hashInit | hashReset | hashUpdate | hashDigest | hashClone
  deriving DecidableEq, Repr

/-- The opcode number of an operation (R75). -/
def Op.code : Op → Byte
  | .bashs => 0x01
  | .bashf => 0x02
  | .prgStart => 0x10
  | .prgRestart => 0x11
  | .prgAbsorb => 0x12
  | .prgSqueeze => 0x13
  | .prgEncrypt => 0x14
  | .prgDecrypt => 0x15
  | .prgRatchet => 0x16
  | .prgClone => 0x17
  | .hashInit => 0x20
  | .hashReset => 0x21
  | .hashUpdate => 0x22
  | .hashDigest => 0x23
  | .hashClone => 0x24

/-- The opcode map read the other way (R75); every other value is reserved (R77 (a)). -/
def opOfByte (b : Byte) : Option Op :=
  match b.toNat with
  | 0x01 => some .bashs
  | 0x02 => some .bashf
  | 0x10 => some .prgStart
  | 0x11 => some .prgRestart
  | 0x12 => some .prgAbsorb
  | 0x13 => some .prgSqueeze
  | 0x14 => some .prgEncrypt
  | 0x15 => some .prgDecrypt
  | 0x16 => some .prgRatchet
  | 0x17 => some .prgClone
  | 0x20 => some .hashInit
  | 0x21 => some .hashReset
  | 0x22 => some .hashUpdate
  | 0x23 => some .hashDigest
  | 0x24 => some .hashClone
  | _ => none

/-- The fields that must be zero, row by row of R76 (`RSV` is checked beside them). -/
def mbzFields : Op → List Field
  | .bashs => [.ctx, .p3, .q]
  | .bashf => [.ctx, .p1, .p2, .p3, .q]
  | .prgStart => [.q]
  | .prgRestart => [.p2, .p3, .q]
  | .prgAbsorb => [.p0, .p1, .p2, .p3]
  | .prgSqueeze => [.p0, .p1, .p2, .p3]
  | .prgEncrypt => [.p0, .p1, .p2, .p3]
  | .prgDecrypt => [.p0, .p1, .p2, .p3]
  | .prgRatchet => [.p0, .p1, .p2, .p3, .q]
  | .prgClone => [.p1, .p2, .p3, .q]
  | .hashInit => [.p0, .p1, .p3, .q]
  | .hashReset => [.p0, .p1, .p2, .p3, .q]
  | .hashUpdate => [.p0, .p1, .p2, .p3]
  | .hashDigest => [.p0, .p1, .p2, .p3, .q]
  | .hashClone => [.p1, .p2, .p3, .q]

/-- The operands of an operation, read from the fields R76 names; in BASHS `P2` packs
`m2 = P2[7:0]` and `n2 = P2[15:8]` (R73). -/
def operandsOf (d : Descriptor) : Op → Instr
  | .bashs =>
      .bashs (fieldP0 d) (fieldP1 d) ((fieldP2 d).extractLsb' 0 8) ((fieldP2 d).extractLsb' 8 8)
  | .bashf => .bashf (fieldP0 d)
  | .prgStart => .prgStart (fieldCtx d) (fieldP0 d) (fieldP1 d) (fieldP2 d) (fieldP3 d)
  | .prgRestart => .prgRestart (fieldCtx d) (fieldP0 d) (fieldP1 d)
  | .prgAbsorb => .prgAbsorb (fieldCtx d) (fieldQ d)
  | .prgSqueeze => .prgSqueeze (fieldCtx d) (fieldQ d)
  | .prgEncrypt => .prgEncrypt (fieldCtx d) (fieldQ d)
  | .prgDecrypt => .prgDecrypt (fieldCtx d) (fieldQ d)
  | .prgRatchet => .prgRatchet (fieldCtx d)
  | .prgClone => .prgClone (fieldCtx d) (fieldP0 d)
  | .hashInit => .hashInit (fieldCtx d) (fieldP2 d)
  | .hashReset => .hashReset (fieldCtx d)
  | .hashUpdate => .hashUpdate (fieldCtx d) (fieldQ d)
  | .hashDigest => .hashDigest (fieldCtx d)
  | .hashClone => .hashClone (fieldCtx d) (fieldP0 d)

/-- The decoder: opcode, then `RSV` and the must-be-zero fields, then the operand checks of
R77 (c), (d), (e). Which of several defects is named does not matter to the block: each one is
InvalidCommand (R77). -/
def decode (p : Params) (d : Descriptor) : Except Reject Instr :=
  match opOfByte (fieldOp d) with
  | none => .error .unknownOpcode
  | some op =>
    if fieldRsv d ≠ 0 then .error .reservedNonzero
    else if (mbzFields op).all (Field.isZero d) then
      match (operandsOf d op).defect p with
      | none => .ok (operandsOf d op)
      | some r => .error r
    else .error .mbzNonzero

/-- Byte `k` of a descriptor on a byte-wide path: least significant byte first (R72). -/
def descriptorByte (d : Descriptor) (k : Nat) : Byte :=
  d.extractLsb' (8 * k) 8

/-- The 16 bytes of a descriptor, byte 0 (the opcode) first (R72). -/
def descriptorBytes (d : Descriptor) : List Byte :=
  (List.range 16).map (descriptorByte d)

/-- The descriptor whose bytes are given, the first least significant (R72). -/
def descriptorOfBytes : List Byte → Descriptor
  | [] => 0
  | b :: bs => (b.setWidth 128) ||| (descriptorOfBytes bs <<< 8)

/-- Takes the descriptor at the head of a byte stream (R70, R72): `none` when fewer than 16 bytes
are there. -/
def fetchDescriptor (bytes : List Byte) : Option (Descriptor × List Byte) :=
  if 16 ≤ bytes.length then
    some (descriptorOfBytes (bytes.take 16), bytes.drop 16)
  else none

/-- The decoder on bytes: the command at the head of the stream and the bytes after its
descriptor. -/
def decodeBytes (p : Params) (bytes : List Byte) : Except Reject (Instr × List Byte) :=
  match fetchDescriptor bytes with
  | none => .error .truncated
  | some (d, rest) =>
    match decode p d with
    | .ok i => .ok (i, rest)
    | .error r => .error r

/-- A descriptor put together from its fields (R71), most significant first. -/
def descriptor (op ctx p0 p1 : Byte) (p2 : BitVec 16) (p3 rsv : Byte) (q : BitVec 64) :
    Descriptor :=
  q ++ rsv ++ p3 ++ p2 ++ p1 ++ p0 ++ ctx ++ op

/-- The encoder, from the field-use table R76: every unused field is zero. -/
def encode : Instr → Descriptor
  | .bashs m1 n1 m2 n2 => descriptor Op.bashs.code 0 m1 n1 (n2 ++ m2) 0 0 0
  | .bashf be => descriptor Op.bashf.code 0 be 0 0 0 0 0
  | .prgStart c a k l d => descriptor Op.prgStart.code c a k l d 0 0
  | .prgRestart c a k => descriptor Op.prgRestart.code c a k 0 0 0 0
  | .prgAbsorb c q => descriptor Op.prgAbsorb.code c 0 0 0 0 0 q
  | .prgSqueeze c q => descriptor Op.prgSqueeze.code c 0 0 0 0 0 q
  | .prgEncrypt c q => descriptor Op.prgEncrypt.code c 0 0 0 0 0 q
  | .prgDecrypt c q => descriptor Op.prgDecrypt.code c 0 0 0 0 0 q
  | .prgRatchet c => descriptor Op.prgRatchet.code c 0 0 0 0 0 0
  | .prgClone dst src => descriptor Op.prgClone.code dst src 0 0 0 0 0
  | .hashInit c n => descriptor Op.hashInit.code c 0 0 n 0 0 0
  | .hashReset c => descriptor Op.hashReset.code c 0 0 0 0 0 0
  | .hashUpdate c q => descriptor Op.hashUpdate.code c 0 0 0 0 0 q
  | .hashDigest c => descriptor Op.hashDigest.code c 0 0 0 0 0 0
  | .hashClone dst src => descriptor Op.hashClone.code dst src 0 0 0 0 0

/-- The 16 bytes of an encoded command as they stand on DIN (R72). -/
def encodeBytes (i : Instr) : List Byte :=
  descriptorBytes (encode i)

/-- The descriptor of an opcode-table word: its low `nbits` bits, zeros above. -/
def tableDescriptor (nbits w : Nat) : Descriptor :=
  BitVec.ofNat 128 (w % 2 ^ nbits)

/-- What the decoder reads from an opcode-table word, at the default parameters of R5. -/
def decodeTableWord (nbits w : Nat) : Option Instr :=
  match decodeBytes Params.default (descriptorBytes (tableDescriptor nbits w)) with
  | .ok (i, _) => some i
  | .error _ => none

end Sys2Proof
end

