-- ==== Sys2Proof/Machine/State.lean ====
section
/-! DEFINITION. All the state of the block (spec/10_state.md), as plain data, the status codes
(spec/60_exceptions.md R201), the reasons a step stops, and the state after reset
(spec/70_reset_and_hazards.md R230). -/

namespace Sys2Proof.Machine

open Sys2Proof

/-- A State of the sponge: the 24 word registers `S[0]` to `S[23]` (R20). Its 192 bytes are a view
of the same storage (R21), computed by `byteAt` in Machine/Ops.lean. -/
abbrev Sponge := Vector Word 24

/-- An automaton context `P[c]` (R20, R25 to R29). -/
structure PrgCtx where
  /-- The State, 24 words (R20). -/
  S : Sponge
  /-- `started`: false is D0's Unstarted (R25). -/
  started : Bool
  /-- The security level, 128, 192 or 256 once started (R26). -/
  l : Nat
  /-- The capacity, 1 or 2 once started (R27). -/
  d : Nat
  /-- `buf_len`, the number of State bytes that carry data (R28); also the only record of the mode. -/
  bufLen : Nat
  /-- `pos`, the cursor (R29). -/
  pos : Nat
  deriving DecidableEq, Repr

/-- A hash context `H[c]` (R30). -/
structure HashCtx where
  /-- `constructed`: true once a HASH.INIT has succeeded here (R30). -/
  constructed : Bool
  /-- `out_len`, 32, 48 or 64 once constructed. -/
  outLen : Nat
  /-- `block_len = 192 - 2·out_len` (R170). -/
  blockLen : Nat
  /-- `HB[0..191]`, the State of the engine. -/
  HB : Sponge
  /-- `hbuf[0..block_len)`, the pending input (R51). -/
  hbuf : List Byte
  /-- `hcur`, how many bytes of `hbuf` are pending. -/
  hcur : Nat
  /-- `total`, the total-bytes-processed counter: no width, read by nothing (R178). -/
  total : Nat
  deriving DecidableEq, Repr

/-- The completion codes, by name (R201). -/
inductive Status where
  | ok
  | invalidParameter
  | modeError
  | authenticationError
  | internalConsistency
  | notStarted
  | invalidCommand
  deriving DecidableEq, Repr

/-- The block. The parameters `NPRG` and `NHASH` are the lengths of the two context lists. -/
structure State where
  /-- `P[0]`, `P[1]`, … : `NPRG` automaton contexts (R20). -/
  prg : List PrgCtx
  /-- `H[0]`, `H[1]`, … : `NHASH` hash contexts (R30). -/
  hash : List HashCtx
  /-- `STATUS`, the 8-bit completion code of the last command (R31). -/
  status : Byte
  /-- The parameter `HASH_ABSORB_OVERWRITE` (R5): no command writes it. -/
  hashAbsorbOverwrite : Bool
  /-- MODEL'S OWN: what the host has delivered on DIN and the block has not yet taken, first byte
  first: descriptors, each followed by its payload (R53, R70, R72; notes/assumptions/1.md). -/
  din : List Byte
  /-- MODEL'S OWN: everything put on DOUT so far, first byte first (R54; notes/assumptions/2.md). -/
  dout : List Byte
  /-- MODEL'S OWN: the command stream is broken after an InvalidCommand until the host
  re-synchronises (R77, R235 (b); notes/assumptions/3.md). -/
  streamBroken : Bool
  deriving DecidableEq, Repr

/-- The parameters as the state carries them. -/
def State.params (s : State) : Params :=
  { nprg := s.prg.length, nhash := s.hash.length, hashAbsorbOverwrite := s.hashAbsorbOverwrite }

/-- Why the machine stops. The faults of the spec are no stop: each is a next state with its code
in `STATUS` (R203). -/
inductive Fault where
  /-- DIN holds fewer bytes than the running command's payload. Raised by `takePayload`
  (Machine/Ops.lean) for any command with a payload. The host has not delivered "the whole payload
  of a command" (R235 (a)) and the spec gives that no behaviour. Safe: the machine stops
  (notes/assumptions/4.md). -/
  | dinUnderrun
  deriving DecidableEq, Repr

/-- Why a step has no meaning. -/
inductive Refusal where
  /-- An instruction without a meaning yet; raised in `exec`'s arms only (no arm raises it now). Safe. -/
  | notModelled (mnemonic : String)
  /-- DIN holds less than one descriptor: the host has given no command and the block is idle (R12,
  R230). Raised by `step`. Safe: no step is claimed (notes/assumptions/4.md). -/
  | noCommand
  /-- The command stream follows an InvalidCommand: "the model should give no meaning to what
  follows on DIN" (R77). Raised by `step` until the host re-synchronises (`State.resync`). Safe
  (notes/assumptions/3.md). -/
  | streamBroken
  deriving DecidableEq, Repr

/-- 24 zero words. -/
def Sponge.zero : Sponge := Vector.replicate 24 0

/-- An automaton context after reset: `started = 0` is the spec's (R230); the other fields have no
specified value (R34), zero is the model's DESIGN CHOICE (notes/assumptions/6.md). -/
def PrgCtx.reset : PrgCtx :=
  { S := Sponge.zero, started := false, l := 0, d := 0, bufLen := 0, pos := 0 }

/-- A hash context after reset: `constructed = 0` is the spec's (R230); the other fields have no
specified value (R34), zero is the model's DESIGN CHOICE (notes/assumptions/6.md). -/
def HashCtx.reset : HashCtx :=
  { constructed := false, outLen := 0, blockLen := 0, HB := Sponge.zero, hbuf := [], hcur := 0,
    total := 0 }

/-- The block with given parameters after reset: every context unstarted or unconstructed and
`STATUS = 0` (R230); nothing delivered on DIN, nothing put on DOUT. -/
def State.resetWith (p : Params) : State :=
  { prg := List.replicate p.nprg PrgCtx.reset
    hash := List.replicate p.nhash HashCtx.reset
    status := 0
    hashAbsorbOverwrite := p.hashAbsorbOverwrite
    din := []
    dout := []
    streamBroken := false }

/-- The block after reset, at the default parameters of R5. -/
def State.reset : State := State.resetWith Params.default

end Sys2Proof.Machine
end

