-- ==== Sys2Proof/Machine/Bits.lean ====
section
/-! DEFINITION. Rotation, byte order and byte swap of words (spec/00_scope.md R6, R8, R9). -/

namespace Sys2Proof.Machine

open Sys2Proof

/-- `rotl64(w, n)` for `n` in 0..64, amounts 0 and 64 the identity, made explicit (R8, R234). An
amount above 64 has no defined result and no command evaluates one (R102 (b), U2). -/
def rotl64 (w : Word) (n : Nat) : Word :=
  if n = 0 ∨ n = 64 then w else (w <<< n) ||| (w >>> (64 - n))

/-- Byte `j` of a word, byte 0 the least significant: entry `j` of `le64bytes(w)` (R6). -/
def byteOf (w : Word) (j : Nat) : Byte := w.extractLsb' (8 * j) 8

/-- `LE64`: the word whose bytes are `f 0` (least significant) to `f 7` (R6). -/
def le64 (f : Nat → Byte) : Word :=
  f 7 ++ f 6 ++ f 5 ++ f 4 ++ f 3 ++ f 2 ++ f 1 ++ f 0

/-- `BE64`: the word whose bytes are `f 7` (least significant) to `f 0` (R6). -/
def be64 (f : Nat → Byte) : Word :=
  f 0 ++ f 1 ++ f 2 ++ f 3 ++ f 4 ++ f 5 ++ f 6 ++ f 7

/-- `le64bytes(w)`: the eight bytes of a word, least significant first (R6). -/
def le64bytes (w : Word) : List Byte :=
  (List.range 8).map (byteOf w)

/-- `be64bytes(w)`: the eight bytes of a word, most significant first (R6). -/
def be64bytes (w : Word) : List Byte :=
  (List.range 8).map fun j => byteOf w (7 - j)

/-- `bswap64(w) = BE64(le64bytes(w))` (R9). -/
def bswap64 (w : Word) : Word := be64 (byteOf w)

end Sys2Proof.Machine
end

