-- ==== Sys2Proof/Machine/Flags.lean ====
section
/-! DEFINITION. The status codes as numbers (spec/60_exceptions.md R201) and every predicate a
command tests (spec/10_state.md R32): the block has no condition codes. -/

namespace Sys2Proof.Machine

open Sys2Proof

/-- The number of a completion code (R201). -/
def Status.code : Status → Byte
  | .ok => 0
  | .invalidParameter => 1
  | .modeError => 2
  | .authenticationError => 3
  | .internalConsistency => 4
  | .notStarted => 5
  | .invalidCommand => 6

/-- `l ∈ {128, 192, 256}` (R135). -/
def levelOk (l : Nat) : Bool := l == 128 || l == 192 || l == 256

/-- `d ∈ {1, 2}` (R135). -/
def capacityOk (d : Nat) : Bool := d == 1 || d == 2

/-- `out_len ∈ {32, 48, 64}` (R172). -/
def outLenOk (n : Nat) : Bool := n == 32 || n == 48 || n == 64

/-- `CheckLengths(l, ann_len, key_len)` passes (R134): both lengths multiples of 4 and at most 60,
and a key, if one is supplied, at least `l div 8` bytes. -/
def lengthsOk (l annLen keyLen : Nat) : Bool :=
  annLen % 4 == 0 && decide (annLen ≤ 60) && (keyLen % 4 == 0 && decide (keyLen ≤ 60)) &&
    (keyLen == 0 || decide (l / 8 ≤ keyLen))

/-- `Keyed(ctx)`: `16·(192 − buf_len) = l·(2 + d)` (R133). -/
def PrgCtx.keyed (c : PrgCtx) : Bool :=
  16 * (192 - c.bufLen) == c.l * (2 + c.d)

/-- The unkeyed buffer length `192 − d·l div 4` (R28). -/
def unkeyedBufLen (l d : Nat) : Nat := 192 - d * l / 4

/-- The keyed buffer length `192 − l·(2 + d) div 16` (R28). -/
def keyedBufLen (l d : Nat) : Nat := 192 - l * (2 + d) / 16

/-- `block_len = 192 − 2·out_len` (R170). -/
def blockLenOf (outLen : Nat) : Nat := 192 - 2 * outLen

end Sys2Proof.Machine
end

