-- ==== Sys2Proof/Machine/Ops.lean ====
section
/-! DEFINITION. The named operations over the state: the byte view of a State and the data moves
on it (spec/20_memory.md), the two streams, the contexts, and taking a fault, written once
(spec/60_exceptions.md R203). There is no return from a fault: control never went anywhere (R211). -/

namespace Sys2Proof.Machine

open Sys2Proof

/-! ## The byte view of a State (R21, R50) -/

/-- `B[k]`: bits `8·(k mod 8)+7 : 8·(k mod 8)` of `S[k div 8]` (R21). Every rule keeps `k < 192`
(R50); the value beyond is the model's, unreachable (notes/assumptions/9.md). -/
def byteAt (S : Sponge) (k : Nat) : Byte :=
  byteOf (S.getD (k / 8) 0) (k % 8)

/-- The State whose byte `k` is `f k`. -/
def ofBytes (f : Nat → Byte) : Sponge :=
  Vector.ofFn fun i => le64 fun j => f (8 * i.val + j)

/-- Rewrites every byte of a State as a function of its offset and its old value. Every byte write
of the block is one use of it, so that all reads precede all writes. -/
def mapBytes (g : Nat → Byte → Byte) (S : Sponge) : Sponge :=
  ofBytes fun k => g k (byteAt S k)

/-- `MemRead(addr, n)` (R10, R50). -/
def memRead (S : Sponge) (addr n : Nat) : List Byte :=
  (List.range n).map fun i => byteAt S (addr + i)

/-- `MemWrite(addr, len(X), X)` (R10, R50). -/
def memWrite (addr : Nat) (X : List Byte) (S : Sponge) : Sponge :=
  mapBytes (fun k b => if addr ≤ k ∧ k < addr + X.length then X.getD (k - addr) 0 else b) S

/-- `XorIn(off, X)` (R60). -/
def xorIn (off : Nat) (X : List Byte) (S : Sponge) : Sponge :=
  mapBytes (fun k b => if off ≤ k ∧ k < off + X.length then b ^^^ X.getD (k - off) 0 else b) S

/-- `B[k] <- B[k] ^ v`. -/
def xorByte (k : Nat) (v : Byte) (S : Sponge) : Sponge :=
  xorIn k [v] S

/-- `CopyOut(off, n)`: the bytes put out; the State is not changed (R61). -/
def copyOut (S : Sponge) (off n : Nat) : List Byte :=
  memRead S off n

/-- `EncMove(off, X)`: the new State and the bytes put out, which are its new buffer bytes (R62). -/
def encMove (off : Nat) (X : List Byte) (S : Sponge) : Sponge × List Byte :=
  (xorIn off X S, memRead (xorIn off X S) off X.length)

/-- `DecMove(off, X)`: puts out `B ^ X`, then overwrites the buffer bytes with `X` (R62). -/
def decMove (off : Nat) (X : List Byte) (S : Sponge) : Sponge × List Byte :=
  (memWrite off X S, memRead (xorIn off X S) off X.length)

/-- The XOR of two States, byte by byte, which is word by word (R141). -/
def xorSponge (S T : Sponge) : Sponge :=
  mapBytes (fun k b => b ^^^ byteAt T k) S

/-- A 192-byte string as a State: `S[i] = LE64(B[8i .. 8i+8))` (R21). -/
def spongeOfBytes (X : List Byte) : Sponge :=
  ofBytes fun k => X.getD k 0

/-- The 192 bytes of a State, byte 0 first (R21). -/
def bytesOfSponge (S : Sponge) : List Byte :=
  memRead S 0 192

/-! ## Streams, contexts, status -/

/-- `DinTake(n)`: the next `n` bytes of DIN (R53); `none` when the host has delivered fewer. -/
def takePayload (n : Nat) (s : State) : Option (List Byte × State) :=
  if n ≤ s.din.length then some (s.din.take n, { s with din := s.din.drop n }) else none

/-- `STATUS <- code`. -/
def State.withStatus (s : State) (c : Status) : State :=
  { s with status := c.code }

/-- `DoutPut(X)` (R54). -/
def State.putOut (s : State) (X : List Byte) : State :=
  { s with dout := s.dout ++ X }

/-- Writes automaton context `i`. -/
def State.setPrg (s : State) (i : Nat) (c : PrgCtx) : State :=
  { s with prg := s.prg.set i c }

/-- Writes hash context `i`. -/
def State.setHash (s : State) (i : Nat) (h : HashCtx) : State :=
  { s with hash := s.hash.set i h }

/-- The end of a command that does not fault: its output on DOUT and `STATUS <- OK` (R31, R74). -/
def State.finish (s : State) (out : List Byte) : State :=
  (s.putOut out).withStatus .ok

/-- TAKING A FAULT (R203), the one shared operation: no context changes, nothing on DOUT,
`STATUS <- k`, and the block is ready for the next command. The payload (c) has been taken from DIN
before, by `takePayload`, and is dropped. -/
def raiseFault (k : Status) (s : State) : State :=
  s.withStatus k

/-- The fault InvalidCommand (R207): besides `STATUS`, what follows on DIN has no meaning from here
on (R77). No payload is taken, since its length cannot be known. -/
def raiseInvalidCommand (s : State) : State :=
  { raiseFault .invalidCommand s with streamBroken := true }

/-! ## The shape every context command shares -/

/-- The end of a command on automaton context `ctx` once its payload is taken: the fault, or the
new context, the output and `OK`. -/
def settlePrg (ctx : Nat) (s : State) : Except Status (PrgCtx × List Byte) → State
  | .error k => raiseFault k s
  | .ok r => (s.setPrg ctx r.1).finish r.2

/-- A command on automaton context `ctx` with a payload of `n` bytes: the context must exist
(R77 (c)); the payload is taken whether the command faults or not (R203 (c)); `f` gives the fault,
or the new context and the output. -/
def runPrg (ctx n : Nat) (f : List Byte → PrgCtx → Except Status (PrgCtx × List Byte))
    (s : State) : Host.Outcome State Fault Refusal :=
  match s.prg[ctx]? with
  | none => .next (raiseInvalidCommand s)
  | some c =>
    match takePayload n s with
    | none => .fault .dinUnderrun
    | some r => .next (settlePrg ctx r.2 (f r.1 c))

/-- The end of a command on hash context `ctx`, in the same shape. -/
def settleHash (ctx : Nat) (s : State) : Except Status (HashCtx × List Byte) → State
  | .error k => raiseFault k s
  | .ok r => (s.setHash ctx r.1).finish r.2

/-- A command on hash context `ctx`, in the same shape. -/
def runHash (ctx n : Nat) (f : List Byte → HashCtx → Except Status (HashCtx × List Byte))
    (s : State) : Host.Outcome State Fault Refusal :=
  match s.hash[ctx]? with
  | none => .next (raiseInvalidCommand s)
  | some h =>
    match takePayload n s with
    | none => .fault .dinUnderrun
    | some r => .next (settleHash ctx r.2 (f r.1 h))

/-- A command on the scratch file `X` (R23): `n` payload bytes in, the result out, no context
touched. -/
def runPure (n : Nat) (f : List Byte → List Byte) (s : State) : Host.Outcome State Fault Refusal :=
  match takePayload n s with
  | none => .fault .dinUnderrun
  | some r => .next (r.2.finish (f r.1))

end Sys2Proof.Machine
end

