-- ==== Sys2Proof/Machine/Operands.lean ====
section
/-! DEFINITION. Operand forms: what a command takes from DIN and how a payload is split
(spec/30_encoding.md R73, R74). Every field is an unsigned number, read by `toNat` (R73). -/

namespace Sys2Proof.Machine

open Sys2Proof

/-- The payload length of a command in bytes (R74). -/
def payloadLen : Instr → Nat
  | .bashs _ _ _ _ => 24
  | .bashf _ => 192
  | .prgStart _ annLen keyLen _ _ => annLen.toNat + keyLen.toNat
  | .prgRestart _ annLen keyLen => annLen.toNat + keyLen.toNat
  | .prgAbsorb _ len => len.toNat
  | .prgSqueeze _ _ => 0
  | .prgEncrypt _ len => len.toNat
  | .prgDecrypt _ len => len.toNat
  | .prgRatchet _ => 0
  | .prgClone _ _ => 0
  | .hashInit _ _ => 0
  | .hashReset _ => 0
  | .hashUpdate _ len => len.toNat
  | .hashDigest _ => 0
  | .hashClone _ _ => 0

/-- The output length of a command that ends with OK (R74); only HASH.DIGEST's depends on the
state. -/
def outputLen (s : State) : Instr → Nat
  | .bashs _ _ _ _ => 24
  | .bashf _ => 192
  | .prgSqueeze _ count => count.toNat
  | .prgEncrypt _ len => len.toNat
  | .prgDecrypt _ len => len.toNat
  | .hashDigest ctx => ((s.hash[ctx.toNat]?).map HashCtx.outLen).getD 0
  | .prgStart _ _ _ _ _ | .prgRestart _ _ _ | .prgAbsorb _ _ | .prgRatchet _ | .prgClone _ _ => 0
  | .hashInit _ _ | .hashReset _ | .hashUpdate _ _ | .hashClone _ _ => 0

/-- The announcement: the first `ann_len` payload bytes (R74). -/
def annOf (annLen : Byte) (payload : List Byte) : List Byte :=
  payload.take annLen.toNat

/-- The key: the payload bytes after the announcement (R74). -/
def keyOf (annLen : Byte) (payload : List Byte) : List Byte :=
  payload.drop annLen.toNat

/-- Word `i` of a payload that carries words least significant byte first (R74, R103). -/
def payloadWord (payload : List Byte) (i : Nat) : Word :=
  le64 fun j => payload.getD (8 * i + j) 0

end Sys2Proof.Machine
end

