-- ==== Sys2Proof/Machine/Tables.lean ====
section
/-! DEFINITION. The read-only tables and constants of the block (spec/10_state.md R33). Except for
`hashMark` their values are PRESUMED: the spec itself marks them "from general knowledge, not in
source" (spec/93_implementation_defined.md G1 to G6; notes/assumptions/7.md). -/

namespace Sys2Proof.Machine

open Sys2Proof

/-- The round constants `RC[0..23]` (R111). -/
def RC : List Word :=
  [0x3BF5080AC8BA94B1, 0xC1D1659C1BBD92F6, 0x60E8B2CE0DDEC97B, 0xEC5FB8FE790FBC13,
   0xAA043DE6436706A7, 0x8929FF6A5E535BFD, 0x98BF1E2C50C97550, 0x4C5F8F162864BAA8,
   0x262FC78B14325D54, 0x1317E3C58A192EAA, 0x098BF1E2C50C9755, 0xD8EE19681D669304] ++
  [0x6C770CB40EB34982, 0x363B865A0759A4C1, 0xC73622B47C4C0ACE, 0x639B115A3E260567,
   0xEDE6693460F3DA1D, 0xAAD8D5034F9935A0, 0x556C6A81A7CC9AD0, 0x2AB63540D3E64D68,
   0x155B1AA069F326B4, 0x0AAD8D5034F9935A, 0x0556C6A81A7CC9AD, 0xDE8082CD72DEBC78]

/-- The four rotation amounts of one BASHS application. -/
structure Amounts where
  m1 : Nat
  n1 : Nat
  m2 : Nat
  n2 : Nat
  deriving DecidableEq, Repr

/-- The rotation table `ROT[0..7]`, row `v` for S-box slot `v` (R112). -/
def ROT : List Amounts :=
  [⟨8, 53, 14, 1⟩, ⟨56, 51, 34, 7⟩, ⟨8, 37, 46, 49⟩, ⟨56, 3, 2, 23⟩,
   ⟨8, 21, 14, 33⟩, ⟨56, 19, 34, 39⟩, ⟨8, 5, 46, 17⟩, ⟨56, 35, 2, 55⟩]

/-- The word shuffle `PERM[0..23]`: new `S[i]` is old `S[PERM[i]]` (R113). -/
def PERM : List Nat :=
  [15, 10, 9, 12, 11, 14, 13, 8, 17, 16, 19, 18, 21, 20, 23, 22, 6, 3, 0, 5, 2, 7, 4, 1]

/-- Domain code `DC_NULL`: null or no-key restart, or ratchet (R131). -/
def dcNull : Byte := 0x01
/-- Domain code `DC_KEY`: key setup (R131). -/
def dcKey : Byte := 0x05
/-- Domain code `DC_DATA`: data absorb (R131). -/
def dcData : Byte := 0x09
/-- Domain code `DC_TEXT`: text encrypt or decrypt (R131). -/
def dcText : Byte := 0x0D
/-- Domain code `DC_OUT`: output squeeze (R131). -/
def dcOut : Byte := 0x11
/-- `PRG_MARK`, the automaton's padding marker at offset `buf_len` (R131). -/
def prgMark : Byte := 0x80
/-- `HASH_MARK`, the hash engine's padding marker, the one constant D0 prints (R176). -/
def hashMark : Byte := 0x40

/-- `Header(ann_len, key_len)`: the header byte of PRG.START and PRG.RESTART (R131). -/
def header (annLen keyLen : Nat) : Byte :=
  BitVec.ofNat 8 ((4 * annLen + keyLen / 4) % 256)

end Sys2Proof.Machine
end

