-- ==== Sys2Proof/Machine/Bashs.lean ====
section
/-! DEFINITION. The core transform BASHS and the BASHS command (spec/40_bashs.md). -/

namespace Sys2Proof.Machine

open Sys2Proof

/-- The three words one BASHS application reads and writes. -/
structure Triple where
  x0 : Word
  x1 : Word
  x2 : Word
  deriving DecidableEq, Repr

/-- The transform on three words, the twelve lines of R100 in order; a later binding of a name is
the value the line wrote. It is stated on three word values, so equal indices never arise (R102,
U3). -/
def bashsWords (a : Amounts) (t : Triple) : Triple :=
  let s0 := t.x0
  let s1 := t.x1
  let s2 := t.x2
  let t0 := rotl64 s0 a.m1
  let s0 := s0 ^^^ s1 ^^^ s2
  let t1 := s1 ^^^ rotl64 s0 a.n1
  let s1 := t0 ^^^ t1
  let s2 := s2 ^^^ rotl64 s2 a.m2 ^^^ rotl64 t1 a.n2
  let t0 := ~~~s2
  let t1 := s0 ||| s2
  let t2 := s0 &&& s1
  let t0 := t0 ||| s1
  let s1 := s1 ^^^ t1
  let s2 := s2 ^^^ t2
  let s0 := s0 ^^^ t0
  ⟨s0, s1, s2⟩

/-- The body of the BASHS command: words in, transform, words out (R103). -/
def bashsBytes (a : Amounts) (payload : List Byte) : List Byte :=
  let t := bashsWords a ⟨payloadWord payload 0, payloadWord payload 1, payloadWord payload 2⟩
  le64bytes t.x0 ++ le64bytes t.x1 ++ le64bytes t.x2

/-- BASHS (R103): an amount above 64 is InvalidCommand; otherwise the transform on 24 payload
bytes. -/
def execBashs (m1 n1 m2 n2 : Byte) (s : State) : Host.Outcome State Fault Refusal :=
  if 64 < m1.toNat ∨ 64 < n1.toNat ∨ 64 < m2.toNat ∨ 64 < n2.toNat then
    .next (raiseInvalidCommand s)
  else runPure 24 (bashsBytes ⟨m1.toNat, n1.toNat, m2.toNat, n2.toNat⟩) s

end Sys2Proof.Machine
end

