-- ==== Sys2Proof/Machine/Bashf.lean ====
section
/-! DEFINITION. The round, the permutation BASHF and the BASHF command (spec/41_bashf.md). -/

namespace Sys2Proof.Machine

open Sys2Proof

/-- `BASHS(S, v, v+8, v+16, ROT[v])`: slot `v` of a round (R114). -/
def bashsSlot (S : Sponge) (v : Fin 8) : Sponge :=
  let t := bashsWords (ROT.getD v.val ⟨0, 0, 0, 0⟩) ⟨S[v.val], S[v.val + 8], S[v.val + 16]⟩
  ((S.set v.val t.x0).set (v.val + 8) t.x1).set (v.val + 16) t.x2

/-- The eight BASHS applications of a round, `v = 0, …, 7` (R114). -/
def bashsLayer (S : Sponge) : Sponge :=
  (List.finRange 8).foldl bashsSlot S

/-- The shuffle: new `S[i]` is old `S[PERM[i]]`, all reads before any write (R113). -/
def shuffle (S : Sponge) : Sponge :=
  Vector.ofFn fun i => S.getD (PERM.getD i.val 0) 0

/-- `S[23] <- S[23] ^ RC[r]` (R114). -/
def addConstant (r : Nat) (S : Sponge) : Sponge :=
  S.set 23 (S[23] ^^^ RC.getD r 0)

/-- `Round(S, r)` (R114). -/
def bashRound (S : Sponge) (r : Nat) : Sponge :=
  addConstant r (shuffle (bashsLayer S))

/-- The 24 rounds in order. -/
def bashRounds (S : Sponge) : Sponge :=
  (List.range 24).foldl bashRound S

/-- `bswap64` on all 24 words. -/
def swapWords (S : Sponge) : Sponge :=
  S.map bswap64

/-- `BASHF(S, be)` (R115). -/
def bashf (be : Bool) (S : Sponge) : Sponge :=
  if be then swapWords (bashRounds (swapWords S)) else bashRounds S

/-- `F(ctx)`: `BASHF(S, 0)` (R116); also the permutation step of the hash engine (R171). -/
def permute (S : Sponge) : Sponge := bashf false S

/-- `BASHFbytes(B, be)` on a 192-byte string (R116). -/
def bashfBytes (be : Bool) (X : List Byte) : List Byte :=
  bytesOfSponge (bashf be (spongeOfBytes X))

/-- BASHF (R117): `be > 1` is InvalidCommand; otherwise the permutation of 192 payload bytes. -/
def execBashf (be : Byte) (s : State) : Host.Outcome State Fault Refusal :=
  if 1 < be.toNat then .next (raiseInvalidCommand s)
  else runPure 192 (bashfBytes (be == 1)) s

end Sys2Proof.Machine
end

