-- ==== Sys2Proof/Machine/Hash.lean ====
section
/-! DEFINITION. The hash engine Bash (spec/43_hash.md), on bytes: its permutation step is
`BASHFbytes(HB, 0)`, the function the automaton uses (R171, spec/90_conflicts.md C1). `ow` is
`HASH_ABSORB_OVERWRITE`. -/

namespace Sys2Proof.Machine

open Sys2Proof

/-! ## Shared steps -/

/-- `Reset(h)` (R173): `out_len` and `block_len` are kept. -/
def HashCtx.initial (h : HashCtx) : HashCtx :=
  { h with
    HB := ofBytes fun k => if k = 184 then BitVec.ofNat 8 h.outLen else 0
    hbuf := List.replicate h.blockLen 0
    hcur := 0
    total := 0 }

/-- `Block(h, blk)` (R174): XOR or overwrite, then the permutation. -/
def HashCtx.block (ow : Bool) (blk : List Byte) (h : HashCtx) : HashCtx :=
  { h with HB := permute (if ow then memWrite 0 blk h.HB else xorIn 0 blk h.HB) }

/-- One turn of HASH.UPDATE's byte loop (R175): the block step runs as soon as the buffer is full. -/
def HashCtx.updateByte (ow : Bool) (h : HashCtx) (b : Byte) : HashCtx :=
  let h1 := { h with hbuf := h.hbuf.set h.hcur b, hcur := h.hcur + 1 }
  if h1.hcur = h1.blockLen then { h1.block ow (h1.hbuf.take h1.blockLen) with hcur := 0 } else h1

/-- The final block of HASH.DIGEST: the pending bytes, `HASH_MARK`, zeros (R176). -/
def HashCtx.finalBlock (h : HashCtx) : List Byte :=
  (List.range h.blockLen).map fun k =>
    if k < h.hcur then h.hbuf.getD k 0 else if k = h.hcur then hashMark else 0

/-! ## The operations on one context -/

/-- HASH.INIT on a context, in any state of it (R172). -/
def HashCtx.init (outLen : Nat) (h : HashCtx) : Except Status (HashCtx × List Byte) :=
  if outLenOk outLen then
    .ok ({ h with constructed := true, outLen := outLen, blockLen := blockLenOf outLen }.initial, [])
  else .error .invalidParameter

/-- HASH.RESET on a context (R173). -/
def HashCtx.resetCtx (h : HashCtx) : Except Status (HashCtx × List Byte) :=
  if h.constructed = false then .error .notStarted else .ok (h.initial, [])

/-- HASH.UPDATE on a context (R175). -/
def HashCtx.update (ow : Bool) (data : List Byte) (h : HashCtx) :
    Except Status (HashCtx × List Byte) :=
  if h.constructed = false then .error .notStarted
  else
    .ok ({ data.foldl (HashCtx.updateByte ow) h with total := h.total + data.length }, [])

/-- HASH.DIGEST on a context (R176): the block step runs on a private copy, the context stays. -/
def HashCtx.digest (ow : Bool) (h : HashCtx) : Except Status (HashCtx × List Byte) :=
  if h.constructed = false then .error .notStarted
  else .ok (h, copyOut (h.block ow h.finalBlock).HB 0 h.outLen)

/-! ## The commands -/

/-- HASH.INIT (R172). -/
def execHashInit (ctx : Byte) (outLen : BitVec 16) (s : State) : Host.Outcome State Fault Refusal :=
  runHash ctx.toNat 0 (fun _ h => h.init outLen.toNat) s

/-- HASH.RESET (R173). -/
def execHashReset (ctx : Byte) (s : State) : Host.Outcome State Fault Refusal :=
  runHash ctx.toNat 0 (fun _ h => h.resetCtx) s

/-- HASH.UPDATE (R175). -/
def execHashUpdate (ctx : Byte) (len : BitVec 64) (s : State) : Host.Outcome State Fault Refusal :=
  runHash ctx.toNat len.toNat (fun payload h => h.update s.hashAbsorbOverwrite payload) s

/-- HASH.DIGEST (R176). -/
def execHashDigest (ctx : Byte) (s : State) : Host.Outcome State Fault Refusal :=
  runHash ctx.toNat 0 (fun _ h => h.digest s.hashAbsorbOverwrite) s

/-- HASH.CLONE (R177): the destination becomes the source; both indices must exist (R77 (c)). -/
def execHashClone (dst src : Byte) (s : State) : Host.Outcome State Fault Refusal :=
  match s.hash[src.toNat]? with
  | none => .next (raiseInvalidCommand s)
  | some h => runHash dst.toNat 0 (fun _ _ => .ok (h, [])) s

end Sys2Proof.Machine
end

