-- ==== Sys2Proof/Machine/Prg.lean ====
section
/-! DEFINITION. The programmable automaton BashPrg (spec/42_prg.md): the commit step, the streaming
loop, and the eight automaton commands. A context operation answers a fault code before any
change, or the new context and the bytes put out (R203). -/

namespace Sys2Proof.Machine

open Sys2Proof

/-! ## Shared steps -/

/-- `Commit(code)` (R132). -/
def PrgCtx.commit (code : Byte) (c : PrgCtx) : Except Status PrgCtx :=
  if c.bufLen < c.pos then .error .internalConsistency
  else .ok { c with S := permute (xorByte c.bufLen prgMark (xorByte c.pos code c.S)), pos := 0 }

/-- One chunk of a streaming command: from the chunk length, the chunk's input bytes and the State
to the new State and the bytes put out. -/
abbrev Move := Nat → List Byte → Sponge → Sponge × List Byte

/-- The chunk loop that R137 to R140 share: `n` bytes are left to do, `input` is the input left.
`fuel` bounds the number of chunks; the commands give it `n`, which is enough whenever
`buf_len > 0` (R12, R143; notes/assumptions/8.md). -/
def streamLoop (mv : Move) : Nat → Nat → List Byte → PrgCtx → PrgCtx × List Byte
  | 0, _, _, c => (c, [])
  | fuel + 1, n, input, c =>
    if n = 0 then (c, [])
    else
      let k := min c.bufLen n
      let r := mv k (input.take k) c.S
      let c' := if k = c.bufLen then { c with S := permute r.1, pos := 0 }
        else { c with S := r.1, pos := k }
      let t := streamLoop mv fuel (n - k) (input.drop k) c'
      (t.1, r.2 ++ t.2)

/-- A streaming command after its checks: commit under `code`, then the chunk loop (R137). -/
def PrgCtx.stream (code : Byte) (mv : Move) (n : Nat) (input : List Byte) (c : PrgCtx) :
    Except Status (PrgCtx × List Byte) :=
  match c.commit code with
  | .error k => .error k
  | .ok c1 => .ok (streamLoop mv n n input c1)

/-- The move of PRG.ABSORB: XOR in, nothing out (R137). -/
def absorbMove : Move := fun _ X S => (xorIn 0 X S, [])

/-- The move of PRG.SQUEEZE: copy out, State unchanged (R138). -/
def squeezeMove : Move := fun k _ S => (S, copyOut S 0 k)

/-- The move of PRG.ENCRYPT (R139). -/
def encryptMove : Move := fun _ X S => encMove 0 X S

/-- The move of PRG.DECRYPT (R140). -/
def decryptMove : Move := fun _ X S => decMove 0 X S

/-! ## The operations on one context -/

/-- The State PRG.START leaves: header, announcement, key, zeros, `l div 4 + d` at offset 184,
zeros (R135). -/
def startBytes (l d : Nat) (ann key : List Byte) (k : Nat) : Byte :=
  if k = 0 then header ann.length key.length
  else if k < 1 + ann.length then ann.getD (k - 1) 0
  else if k < 1 + ann.length + key.length then key.getD (k - 1 - ann.length) 0
  else if k = 184 then BitVec.ofNat 8 (l / 4 + d)
  else 0

/-- PRG.START on a context, in any state of it (R135). -/
def PrgCtx.start (l d : Nat) (ann key : List Byte) (_ : PrgCtx) :
    Except Status (PrgCtx × List Byte) :=
  if levelOk l && capacityOk d && lengthsOk l ann.length key.length then
    .ok ({ S := ofBytes (startBytes l d ann key)
           started := true
           l := l
           d := d
           bufLen := if 0 < key.length then keyedBufLen l d else unkeyedBufLen l d
           pos := 1 + ann.length + key.length }, [])
  else .error .invalidParameter

/-- The new material of PRG.RESTART: header, announcement and key XORed in at the offsets of
PRG.START, the cursor after them (R136). -/
def PrgCtx.mixIn (ann key : List Byte) (c : PrgCtx) : PrgCtx :=
  { c with
    S := xorIn (1 + ann.length) key
      (xorIn 1 ann (xorByte 0 (header ann.length key.length) c.S))
    pos := 1 + ann.length + key.length }

/-- PRG.RESTART on a context (R136): the commit uses the `buf_len` in force before the command. -/
def PrgCtx.restart (ann key : List Byte) (c : PrgCtx) : Except Status (PrgCtx × List Byte) :=
  if c.started = false then .error .notStarted
  else if lengthsOk c.l ann.length key.length = false then .error .invalidParameter
  else if 0 < key.length then
    match c.commit dcKey with
    | .error k => .error k
    | .ok c1 => .ok ({ c1 with bufLen := keyedBufLen c1.l c1.d }.mixIn ann key, [])
  else
    match c.commit dcNull with
    | .error k => .error k
    | .ok c1 => .ok (c1.mixIn ann key, [])

/-- PRG.ABSORB on a context (R137). -/
def PrgCtx.absorb (n : Nat) (data : List Byte) (c : PrgCtx) : Except Status (PrgCtx × List Byte) :=
  if c.started = false then .error .notStarted
  else c.stream dcData absorbMove n data

/-- PRG.SQUEEZE on a context (R138). -/
def PrgCtx.squeeze (n : Nat) (c : PrgCtx) : Except Status (PrgCtx × List Byte) :=
  if c.started = false then .error .notStarted
  else c.stream dcOut squeezeMove n []

/-- PRG.ENCRYPT on a context (R139): the keyed test precedes the commit. -/
def PrgCtx.encrypt (n : Nat) (data : List Byte) (c : PrgCtx) :
    Except Status (PrgCtx × List Byte) :=
  if c.started = false then .error .notStarted
  else if c.keyed = false then .error .modeError
  else c.stream dcText encryptMove n data

/-- PRG.DECRYPT on a context (R140): the keyed test precedes the commit. -/
def PrgCtx.decrypt (n : Nat) (data : List Byte) (c : PrgCtx) :
    Except Status (PrgCtx × List Byte) :=
  if c.started = false then .error .notStarted
  else if c.keyed = false then .error .modeError
  else c.stream dcText decryptMove n data

/-- PRG.RATCHET on a context (R141): the pre-commit snapshot is XORed into the whole post-commit
State. -/
def PrgCtx.ratchet (c : PrgCtx) : Except Status (PrgCtx × List Byte) :=
  if c.started = false then .error .notStarted
  else
    match c.commit dcNull with
    | .error k => .error k
    | .ok c1 => .ok ({ c1 with S := xorSponge c1.S c.S }, [])

/-! ## The commands -/

/-- PRG.START (R135). -/
def execPrgStart (ctx annLen keyLen : Byte) (l : BitVec 16) (d : Byte) (s : State) :
    Host.Outcome State Fault Refusal :=
  runPrg ctx.toNat (annLen.toNat + keyLen.toNat)
    (fun payload c => c.start l.toNat d.toNat (annOf annLen payload) (keyOf annLen payload)) s

/-- PRG.RESTART (R136). -/
def execPrgRestart (ctx annLen keyLen : Byte) (s : State) : Host.Outcome State Fault Refusal :=
  runPrg ctx.toNat (annLen.toNat + keyLen.toNat)
    (fun payload c => c.restart (annOf annLen payload) (keyOf annLen payload)) s

/-- PRG.ABSORB (R137). -/
def execPrgAbsorb (ctx : Byte) (len : BitVec 64) (s : State) : Host.Outcome State Fault Refusal :=
  runPrg ctx.toNat len.toNat (fun payload c => c.absorb len.toNat payload) s

/-- PRG.SQUEEZE (R138). -/
def execPrgSqueeze (ctx : Byte) (count : BitVec 64) (s : State) :
    Host.Outcome State Fault Refusal :=
  runPrg ctx.toNat 0 (fun _ c => c.squeeze count.toNat) s

/-- PRG.ENCRYPT (R139). -/
def execPrgEncrypt (ctx : Byte) (len : BitVec 64) (s : State) : Host.Outcome State Fault Refusal :=
  runPrg ctx.toNat len.toNat (fun payload c => c.encrypt len.toNat payload) s

/-- PRG.DECRYPT (R140). -/
def execPrgDecrypt (ctx : Byte) (len : BitVec 64) (s : State) : Host.Outcome State Fault Refusal :=
  runPrg ctx.toNat len.toNat (fun payload c => c.decrypt len.toNat payload) s

/-- PRG.RATCHET (R141). -/
def execPrgRatchet (ctx : Byte) (s : State) : Host.Outcome State Fault Refusal :=
  runPrg ctx.toNat 0 (fun _ c => c.ratchet) s

/-- PRG.CLONE (R150): the destination becomes the source, `started` included; both indices must
exist (R77 (c)). -/
def execPrgClone (dst src : Byte) (s : State) : Host.Outcome State Fault Refusal :=
  match s.prg[src.toNat]? with
  | none => .next (raiseInvalidCommand s)
  | some c => runPrg dst.toNat 0 (fun _ _ => .ok (c, [])) s

end Sys2Proof.Machine
end

