-- ==== Sys2Proof/Machine/Dispatch.lean ====
section
/-! DEFINITION. One arm per command: the meaning of each (spec/30_encoding.md R75). -/

namespace Sys2Proof.Machine

open Sys2Proof

def exec (i : Instr) (s : State) : Host.Outcome State Fault Refusal :=
  match i with
  -- core transform and permutation (R103, R117)
  | .bashs m1 n1 m2 n2 => Sys2Proof.Machine.execBashs m1 n1 m2 n2 s
  | .bashf be => Sys2Proof.Machine.execBashf be s
  -- the automaton (R135 to R141, R150)
  | .prgStart ctx annLen keyLen l d => Sys2Proof.Machine.execPrgStart ctx annLen keyLen l d s
  | .prgRestart ctx annLen keyLen => Sys2Proof.Machine.execPrgRestart ctx annLen keyLen s
  | .prgAbsorb ctx len => Sys2Proof.Machine.execPrgAbsorb ctx len s
  | .prgSqueeze ctx count => Sys2Proof.Machine.execPrgSqueeze ctx count s
  | .prgEncrypt ctx len => Sys2Proof.Machine.execPrgEncrypt ctx len s
  | .prgDecrypt ctx len => Sys2Proof.Machine.execPrgDecrypt ctx len s
  | .prgRatchet ctx => Sys2Proof.Machine.execPrgRatchet ctx s
  | .prgClone dst src => Sys2Proof.Machine.execPrgClone dst src s
  -- the hash engine (R172, R173, R175 to R177)
  | .hashInit ctx outLen => Sys2Proof.Machine.execHashInit ctx outLen s
  | .hashReset ctx => Sys2Proof.Machine.execHashReset ctx s
  | .hashUpdate ctx len => Sys2Proof.Machine.execHashUpdate ctx len s
  | .hashDigest ctx => Sys2Proof.Machine.execHashDigest ctx s
  | .hashClone dst src => Sys2Proof.Machine.execHashClone dst src s

end Sys2Proof.Machine
end

