-- ==== Sys2Proof/Machine/HostSide.lean ====
section
/-! DEFINITION. What the host does to the block between steps (spec/20_memory.md R53, R54,
spec/70_reset_and_hazards.md R235): it delivers bytes on DIN, takes bytes from DOUT, and
re-synchronises after an InvalidCommand. None of these is a command. -/

namespace Sys2Proof.Machine

open Sys2Proof

/-- The host delivers bytes on DIN, behind what is already there. -/
def State.deliver (s : State) (bytes : List Byte) : State :=
  { s with din := s.din ++ bytes }

/-- The host re-synchronises after an InvalidCommand, "by means outside this spec" (R235 (b)): what
was on DIN is gone and `bytes` are what the block reads next. -/
def State.resync (s : State) (bytes : List Byte) : State :=
  { s with din := bytes, streamBroken := false }

/-- The host takes the bytes on DOUT. -/
def State.takeOut (s : State) : List Byte × State :=
  (s.dout, { s with dout := [] })

/-- The longest payload of zeros `commandBytes` supplies: it covers every payload length that is not
`Q` (at most `255 + 255`). -/
def payloadCap : Nat := 512

/-- A descriptor as it stands on DIN, followed by a payload of zero bytes of the length R74 gives it
(at most `payloadCap`); no payload for an illegal descriptor. -/
def commandBytes (p : Params) (d : Descriptor) : List Byte :=
  descriptorBytes d ++
    match decode p d with
    | .ok i => List.replicate (min (payloadLen i) payloadCap) 0
    | .error _ => []

end Sys2Proof.Machine
end

