-- ==== Sys2Proof/Machine/Step.lean ====
section
/-! DEFINITION. One step: the command at the head of DIN is decoded and runs whole
(spec/00_scope.md R12, spec/10_state.md R24, spec/30_encoding.md R70, R77). -/

namespace Sys2Proof.Machine

open Sys2Proof

/-- One step. An illegal descriptor is the fault InvalidCommand (R207); the bytes after it have no
meaning (R77). -/
def step (s : State) : Host.Outcome State Fault Refusal :=
  if s.streamBroken then .refused .streamBroken
  else
    match fetchDescriptor s.din with
    | none => .refused .noCommand
    | some (d, rest) =>
      match decode s.params d with
      | .ok i => exec i { s with din := rest }
      | .error _ => .next (raiseInvalidCommand { s with din := rest })

/-- `s` with the command of an opcode-table word delivered at the head of DIN, followed by a
payload of zero bytes (at most `payloadCap` of them), and the stream in step. -/
def State.withFetchWord (s : State) (nbits w : Nat) : State :=
  { s with
    din := commandBytes s.params (tableDescriptor nbits w) ++ (if s.streamBroken then [] else s.din)
    streamBroken := false }

end Sys2Proof.Machine
end

