-- ==== Sys2Proof/Machine/Composite.lean ====
section
/-! DEFINITION. The composite schemes as the host runs them (spec/44_composite.md): fixed sequences
of commands on one automaton context, the sequence stopped by the first fault, and the one step
that is not a command, the tag comparison. They have no opcode (R81) and no state of their own
(R38). -/

namespace Sys2Proof.Machine

open Sys2Proof

/-- A command as the host issues it: the command word and its payload (R70). -/
structure Command where
  instr : Instr
  payload : List Byte
  deriving DecidableEq, Repr

/-- The payload is as long as the descriptor says (R74): the operands' lengths fit their fields. -/
def Command.expressible (c : Command) : Bool :=
  c.payload.length == payloadLen c.instr

/-- The bytes of a command on DIN (R70, R72). -/
def Command.bytes (c : Command) : List Byte :=
  encodeBytes c.instr ++ c.payload

/-- The host issues one command, ahead of anything it has already delivered. -/
def issue (c : Command) (s : State) : Host.Outcome State Fault Refusal :=
  step { s with din := c.bytes ++ s.din }

/-- What a host-side sequence ends with: the block, and the code of the fault or the bytes put
out. -/
abbrev HostResult := State × Except Byte (List Byte)

/-- Issues commands in order; "a fault in the sequence must stop it" (R235 (c)). The result is
everything the commands put out, in order. DESIGN CHOICE: the host reads those bytes and leaves them
on DOUT, so the block it ends with still holds them in `dout` (notes/assumptions/11.md). -/
def issueAll : List Command → State → Host.Outcome HostResult Fault Refusal
  | [], s => .next (s, .ok [])
  | c :: cs, s =>
    match issue c s with
    | .fault f => .fault f
    | .refused r => .refused r
    | .next t =>
      if t.status = Status.ok.code then
        match issueAll cs t with
        | .next (u, .ok out) => .next (u, .ok (t.dout.drop s.dout.length ++ out))
        | .next (u, .error k) => .next (u, .error k)
        | .fault f => .fault f
        | .refused r => .refused r
      else .next (t, .error t.status)

/-- A composite: nothing is issued when an operand is too long for its field; the model reports
InvalidParameter then (notes/assumptions/11.md). -/
def runComposite (cs : List Command) (s : State) : Host.Outcome HostResult Fault Refusal :=
  if cs.all Command.expressible then issueAll cs s
  else .next (s, .error Status.invalidParameter.code)

/-- `prg.start c, l, d, ann, key` (R80). -/
def cmdStart (c : Byte) (l : BitVec 16) (d : Byte) (ann key : List Byte) : Command :=
  { instr := .prgStart c (BitVec.ofNat 8 ann.length) (BitVec.ofNat 8 key.length) l d
    payload := ann ++ key }

/-- `prg.absorb c, data` (R80). -/
def cmdAbsorb (c : Byte) (data : List Byte) : Command :=
  { instr := .prgAbsorb c (BitVec.ofNat 64 data.length), payload := data }

/-- `prg.squeeze c, count` (R80). -/
def cmdSqueeze (c : Byte) (count : Nat) : Command :=
  { instr := .prgSqueeze c (BitVec.ofNat 64 count), payload := [] }

/-- `prg.encrypt c, data` (R80). -/
def cmdEncrypt (c : Byte) (data : List Byte) : Command :=
  { instr := .prgEncrypt c (BitVec.ofNat 64 data.length), payload := data }

/-- `prg.decrypt c, data` (R80). -/
def cmdDecrypt (c : Byte) (data : List Byte) : Command :=
  { instr := .prgDecrypt c (BitVec.ofNat 64 data.length), payload := data }

/-- `prg.hash c, l, d, data` (R190). -/
def prgHash (c : Byte) (l : BitVec 16) (d : Byte) (data : List Byte) (s : State) :
    Host.Outcome HostResult Fault Refusal :=
  runComposite [cmdStart c l d [] [], cmdAbsorb c data, cmdSqueeze c (l.toNat / 4)] s

/-- `aead.enc c, l, d, ann, pt, ad, key` (R191): ciphertext, then tag. -/
def aeadEnc (c : Byte) (l : BitVec 16) (d : Byte) (ann pt ad key : List Byte) (s : State) :
    Host.Outcome HostResult Fault Refusal :=
  runComposite
    [cmdStart c l d ann key, cmdAbsorb c ad, cmdEncrypt c pt, cmdSqueeze c (l.toNat / 8)] s

/-- The host's last step in `aead.dec`: the recovered plaintext is released only if the tags are
equal (R192, R208). To discard it is to give it in no result; it still stands on the DOUT of the block,
as `issueAll` leaves it (notes/assumptions/11.md). -/
def releaseIfAuthentic (n : Nat) (tag : List Byte) (r : HostResult) : HostResult :=
  match r.2 with
  | .error k => (r.1, .error k)
  | .ok out =>
    if out.drop n = tag then (r.1, .ok (out.take n))
    else (r.1, .error Status.authenticationError.code)

/-- `aead.dec c, l, d, ann, ct_tag, ad, key` (R192). -/
def aeadDec (c : Byte) (l : BitVec 16) (d : Byte) (ann ctTag ad key : List Byte) (s : State) :
    Host.Outcome HostResult Fault Refusal :=
  if ctTag.length < l.toNat / 8 then .next (s, .error Status.invalidParameter.code)
  else
    let n := ctTag.length - l.toNat / 8
    match runComposite
      [cmdStart c l d ann key, cmdAbsorb c ad, cmdDecrypt c (ctTag.take n),
        cmdSqueeze c (l.toNat / 8)] s with
    | .next r => .next (releaseIfAuthentic n (ctTag.drop n) r)
    | .fault f => .fault f
    | .refused r => .refused r

end Sys2Proof.Machine
end

