-- ==== Sys2Proof/Safety.lean ====
section
/-! DEFINITION. What counts as a safe state of the block, and which states nothing can tell apart,
in the terms the statements use. -/

namespace Sys2Proof.Machine

open Sys2Proof

/-- The values a started automaton context may hold: R26, R27, the twelve buffer lengths of R28 and
the cursor invariant R143. -/
abbrev PrgCtx.Inv (c : PrgCtx) : Prop :=
  c.started = true →
    (c.l = 128 ∨ c.l = 192 ∨ c.l = 256) ∧ (c.d = 1 ∨ c.d = 2) ∧
    (c.bufLen = unkeyedBufLen c.l c.d ∨ c.bufLen = keyedBufLen c.l c.d) ∧ c.pos < c.bufLen

/-- The values a constructed hash context may hold: R30, R170, R175. -/
abbrev HashCtx.Inv (h : HashCtx) : Prop :=
  h.constructed = true →
    (h.outLen = 32 ∨ h.outLen = 48 ∨ h.outLen = 64) ∧ h.blockLen = blockLenOf h.outLen ∧
    h.hcur < h.blockLen ∧ h.hbuf.length = h.blockLen

/-- The codes a command can leave in `STATUS`: AuthenticationError is the host's alone (R208),
InternalConsistency is unreachable (R151), 7 to 255 are never written (R201). -/
abbrev LegalStatus (b : Byte) : Prop :=
  b = Status.ok.code ∨ b = Status.invalidParameter.code ∨ b = Status.modeError.code ∨
    b = Status.notStarted.code ∨ b = Status.invalidCommand.code

/-- The invariant of the block between commands. -/
abbrev State.Inv (s : State) : Prop :=
  (∀ c ∈ s.prg, c.Inv) ∧ (∀ h ∈ s.hash, h.Inv) ∧ LegalStatus s.status

/-- Two automaton contexts nothing can tell apart: both Unstarted, or equal (R34). -/
abbrev PrgCtx.Same (c c' : PrgCtx) : Prop :=
  c = c' ∨ (c.started = false ∧ c'.started = false)

/-- Two hash contexts nothing can tell apart: both unconstructed, or equal (R34). -/
abbrev HashCtx.Same (h h' : HashCtx) : Prop :=
  h = h' ∨ (h.constructed = false ∧ h'.constructed = false)

/-- Two blocks that differ at most in fields R34 calls unspecified and unobservable. -/
abbrev State.Same (s s' : State) : Prop :=
  List.Forall₂ PrgCtx.Same s.prg s'.prg ∧ List.Forall₂ HashCtx.Same s.hash s'.hash ∧
    s.status = s'.status ∧ s.hashAbsorbOverwrite = s'.hashAbsorbOverwrite ∧
    s.din = s'.din ∧ s.dout = s'.dout ∧ s.streamBroken = s'.streamBroken

/-- Two outcomes nothing can tell apart. -/
abbrev Outcome.Same (o o' : Host.Outcome State Fault Refusal) : Prop :=
  match o, o' with
  | .next t, .next t' => t.Same t'
  | .fault f, .fault f' => f = f'
  | .refused r, .refused r' => r = r'
  | _, _ => False

end Sys2Proof.Machine
end

