-- ==== Sys2Proof/Certificates/Slice0/Obligations.lean ====
section
/-! DEFINITION. The statements for the provers, each one a claim of the spec about the block, and the
forms of the spec they are written in (namespace `Sys2Proof.Spec`), which follow the rules' words and
not the model's code. -/

open Sys2Proof Sys2Proof.Machine

namespace Sys2Proof.Spec

/-! ## Forms of the spec used by the statements -/

/-- The three result words of BASHS as functions of the three input words (R101). -/
def bashsFn (m1 n1 m2 n2 : Nat) (a b c : Word) : Word × Word × Word :=
  let a1 := a ^^^ b ^^^ c
  let u := b ^^^ rotl64 a1 n1
  let b1 := rotl64 a m1 ^^^ u
  let c1 := c ^^^ rotl64 c m2 ^^^ rotl64 u n2
  (a1 ^^^ (~~~c1 ||| b1), b1 ^^^ (a1 ||| c1), c1 ^^^ (a1 &&& b1))

/-- Word `j` after the eight BASHS applications of a round on `S`: slot `v = j mod 8` works on words
`v, v+8, v+16` with row `v` of the rotation table (R114). -/
def layerWord (S : Sponge) (j : Nat) : Word :=
  let v := j % 8
  let a := ROT.getD v ⟨0, 0, 0, 0⟩
  let r := bashsFn a.m1 a.n1 a.m2 a.n2 (S.getD v 0) (S.getD (v + 8) 0) (S.getD (v + 16) 0)
  if j / 8 = 0 then r.1 else if j / 8 = 1 then r.2.1 else r.2.2

/-- A 192-byte string as 24 words, least significant byte first (`words_LE`, R171). -/
def wordsLE (X : List Byte) : Sponge :=
  Vector.ofFn fun i => le64 fun j => X.getD (8 * i.val + j) 0

/-- A 192-byte string as 24 words, most significant byte first (`words_BE`, R171). -/
def wordsBE (X : List Byte) : Sponge :=
  Vector.ofFn fun i => be64 fun j => X.getD (8 * i.val + j) 0

/-- 24 words as 192 bytes, each word least significant byte first (`bytes_LE`, R171). -/
def bytesLE (S : Sponge) : List Byte :=
  S.toList.flatMap le64bytes

/-- 24 words as 192 bytes, each word most significant byte first (`bytes_BE`, R171). -/
def bytesBE (S : Sponge) : List Byte :=
  S.toList.flatMap be64bytes

/-- The State a successful commit leaves: `code` XORed at the cursor, the marker at `buf_len` (both,
if they are one byte), then the permutation (R132). -/
def committed (code : Byte) (c : PrgCtx) : Sponge :=
  permute (ofBytes fun k =>
    byteAt c.S k ^^^ (if k = c.pos then code else 0) ^^^ (if k = c.bufLen then prgMark else 0))

/-- Byte strings XORed place by place. -/
def xorBytes (X Y : List Byte) : List Byte := List.zipWith (· ^^^ ·) X Y

/-- The State after absorbing full chunks, each followed by the permutation (R137). -/
def absorbChunks (chunks : List (List Byte)) (S : Sponge) : Sponge :=
  chunks.foldl (fun S x => permute (xorIn 0 x S)) S

/-- Encrypting full chunks: the ciphertext is old buffer XOR plaintext, the buffer becomes the
ciphertext, the permutation follows (R139, R62). -/
def encryptChunks : List (List Byte) → Sponge → Sponge × List Byte
  | [], S => (S, [])
  | x :: xs, S =>
    let ct := xorBytes (memRead S 0 x.length) x
    let r := encryptChunks xs (permute (memWrite 0 ct S))
    (r.1, ct ++ r.2)

/-- Decrypting full chunks: the plaintext is old buffer XOR ciphertext, the buffer becomes the
ciphertext, the permutation follows (R140, R62). -/
def decryptChunks : List (List Byte) → Sponge → Sponge × List Byte
  | [], S => (S, [])
  | x :: xs, S =>
    let pt := xorBytes (memRead S 0 x.length) x
    let r := decryptChunks xs (permute (memWrite 0 x S))
    (r.1, pt ++ r.2)

/-- The block step on the State of the engine (R174). -/
def blockStep (ow : Bool) (HB : Sponge) (x : List Byte) : Sponge :=
  permute (if ow then memWrite 0 x HB else xorIn 0 x HB)

/-- The State of a freshly reset engine: zero but for `out_len` at offset 184 (R173). -/
def initialHB (outLen : Nat) : Sponge :=
  ofBytes fun k => if k = 184 then BitVec.ofNat 8 outLen else 0

/-- The automaton context a command writes, if it is one that writes one (R76). -/
def prgTarget : Instr → Option Nat
  | .prgStart c _ _ _ _ | .prgRestart c _ _ | .prgAbsorb c _ | .prgSqueeze c _ | .prgEncrypt c _
  | .prgDecrypt c _ | .prgRatchet c | .prgClone c _ => some c.toNat
  | .bashs _ _ _ _ | .bashf _ | .hashInit _ _ | .hashReset _ | .hashUpdate _ _ | .hashDigest _
  | .hashClone _ _ => none

/-- The hash context a command writes, if it is one that writes one (R76; HASH.DIGEST writes none). -/
def hashTarget : Instr → Option Nat
  | .hashInit c _ | .hashReset c | .hashUpdate c _ | .hashClone c _ => some c.toNat
  | .bashs _ _ _ _ | .bashf _ | .prgStart _ _ _ _ _ | .prgRestart _ _ _ | .prgAbsorb _ _
  | .prgSqueeze _ _ | .prgEncrypt _ _ | .prgDecrypt _ _ | .prgRatchet _ | .prgClone _ _
  | .hashDigest _ => none

/-- Whether a command writes `started`, `l` and `d` of context `j` (R25 to R27). -/
def startsOrClonesOnto (j : Nat) : Instr → Bool
  | .prgStart c _ _ _ _ => c.toNat == j
  | .prgClone c _ => c.toNat == j
  | _ => false

/-- Whether a command is a PRG.RESTART of context `j` with a key (R130). -/
def restartsWithKey (j : Nat) : Instr → Bool
  | .prgRestart c _ k => c.toNat == j && decide (0 < k.toNat)
  | _ => false

/-- The command needs a started (constructed) context and names one that is not (R206). -/
def namesUnstarted (s : State) : Instr → Prop
  | .prgRestart c _ _ | .prgAbsorb c _ | .prgSqueeze c _ | .prgEncrypt c _ | .prgDecrypt c _
  | .prgRatchet c => ∃ x, s.prg[c.toNat]? = some x ∧ x.started = false
  | .hashReset c | .hashUpdate c _ | .hashDigest c =>
      ∃ h, s.hash[c.toNat]? = some h ∧ h.constructed = false
  | .bashs _ _ _ _ | .bashf _ | .prgStart _ _ _ _ _ | .prgClone _ _ | .hashInit _ _
  | .hashClone _ _ => False

/-- Announcement and key lengths that fail the length checks for level `l` (R134, R204). -/
def badLengths (l a k : Nat) : Prop :=
  ¬(4 ∣ a) ∨ 60 < a ∨ ¬(4 ∣ k) ∨ 60 < k ∨ (k ≠ 0 ∧ k < l / 8)

/-- The causes of InvalidParameter a command can have (R204); PRG.RESTART's are checked on a started
context, against its `l`. -/
def badParameter (s : State) : Instr → Prop
  | .prgStart c a k l d => c.toNat < s.prg.length ∧
      ((l.toNat ≠ 128 ∧ l.toNat ≠ 192 ∧ l.toNat ≠ 256) ∨ (d.toNat ≠ 1 ∧ d.toNat ≠ 2) ∨
        badLengths l.toNat a.toNat k.toNat)
  | .prgRestart c a k =>
      ∃ x, s.prg[c.toNat]? = some x ∧ x.started = true ∧ badLengths x.l a.toNat k.toNat
  | .hashInit c n => c.toNat < s.hash.length ∧ n.toNat ≠ 32 ∧ n.toNat ≠ 48 ∧ n.toNat ≠ 64
  | _ => False

/-- PRG.ENCRYPT or PRG.DECRYPT on a started context for which the keyed test is false (R205, R133). -/
def unkeyedCrypt (s : State) : Instr → Prop
  | .prgEncrypt c _ | .prgDecrypt c _ =>
      ∃ x, s.prg[c.toNat]? = some x ∧ x.started = true ∧ 16 * (192 - x.bufLen) ≠ x.l * (2 + x.d)
  | _ => False

/-- The codes the fault matrix gives a command, the unreachable column left out (R210). -/
def matrix : Instr → List Status
  | .bashs _ _ _ _ | .bashf _ | .prgClone _ _ | .hashClone _ _ => [.ok, .invalidCommand]
  | .prgStart _ _ _ _ _ | .hashInit _ _ => [.ok, .invalidParameter, .invalidCommand]
  | .prgRestart _ _ _ => [.ok, .invalidParameter, .notStarted, .invalidCommand]
  | .prgEncrypt _ _ | .prgDecrypt _ _ => [.ok, .modeError, .notStarted, .invalidCommand]
  | .prgAbsorb _ _ | .prgSqueeze _ _ | .prgRatchet _ | .hashReset _ | .hashUpdate _ _
  | .hashDigest _ => [.ok, .notStarted, .invalidCommand]

/-- The command reaches its commit step on a context whose cursor lies past the buffer (R209). -/
def commitsPastBuffer (s : State) : Instr → Prop
  | .prgRestart c a k => ∃ x, s.prg[c.toNat]? = some x ∧ x.started = true ∧ x.bufLen < x.pos ∧
      ¬badLengths x.l a.toNat k.toNat
  | .prgAbsorb c _ | .prgSqueeze c _ | .prgRatchet c =>
      ∃ x, s.prg[c.toNat]? = some x ∧ x.started = true ∧ x.bufLen < x.pos
  | .prgEncrypt c _ | .prgDecrypt c _ =>
      ∃ x, s.prg[c.toNat]? = some x ∧ x.started = true ∧ x.bufLen < x.pos ∧
        16 * (192 - x.bufLen) = x.l * (2 + x.d)
  | _ => False

/-- The opcodes of the automaton commands (R75). -/
def prgOps : List Byte := [0x10, 0x11, 0x12, 0x13, 0x14, 0x15, 0x16, 0x17]

/-- The opcodes of the hash commands (R75). -/
def hashOps : List Byte := [0x20, 0x21, 0x22, 0x23, 0x24]

/-- The fields R76 marks MBZ: the columns of its table, each with the opcodes that use it. -/
abbrev mbzBroken (d : Descriptor) : Prop :=
  fieldRsv d ≠ 0 ∨
  (fieldOp d ∈ [0x01, 0x02] ∧ fieldCtx d ≠ 0) ∨
  (fieldOp d ∉ [0x01, 0x02, 0x10, 0x11, 0x17, 0x24] ∧ fieldP0 d ≠ 0) ∨
  (fieldOp d ∉ [0x01, 0x10, 0x11] ∧ fieldP1 d ≠ 0) ∨
  (fieldOp d ∉ [0x01, 0x10, 0x20] ∧ fieldP2 d ≠ 0) ∨
  (fieldOp d ≠ 0x10 ∧ fieldP3 d ≠ 0) ∨
  (fieldOp d ∉ [0x12, 0x13, 0x14, 0x15, 0x22] ∧ fieldQ d ≠ 0)

/-- An illegal descriptor, condition by condition (R77): (a) unknown opcode, (b) `RSV` or a
must-be-zero field not zero, (c) a context index out of range (`P0` is one in the clones), (d) `be`
above 1, (e) an amount above 64. -/
abbrev illegal (p : Params) (d : Descriptor) : Prop :=
  fieldOp d ∉ [0x01, 0x02] ++ prgOps ++ hashOps ∨
  mbzBroken d ∨
  (fieldOp d ∈ prgOps ∧ p.nprg ≤ (fieldCtx d).toNat) ∨
  (fieldOp d = 0x17 ∧ p.nprg ≤ (fieldP0 d).toNat) ∨
  (fieldOp d ∈ hashOps ∧ p.nhash ≤ (fieldCtx d).toNat) ∨
  (fieldOp d = 0x24 ∧ p.nhash ≤ (fieldP0 d).toNat) ∨
  (fieldOp d = 0x02 ∧ 1 < (fieldP0 d).toNat) ∨
  (fieldOp d = 0x01 ∧ (64 < (fieldP0 d).toNat ∨ 64 < (fieldP1 d).toNat ∨
    64 < (fieldP2 d).toNat % 256 ∨ 64 < (fieldP2 d).toNat / 256))

/-- The operands of PRG.START and PRG.RESTART that pass the length checks (R134). -/
abbrev goodLengths (l a k : Nat) : Prop :=
  4 ∣ a ∧ a ≤ 60 ∧ 4 ∣ k ∧ k ≤ 60 ∧ (k = 0 ∨ l / 8 ≤ k)

/-- `l` and `d` that PRG.START admits (R135). -/
abbrev goodLevel (l d : Nat) : Prop :=
  (l = 128 ∨ l = 192 ∨ l = 256) ∧ (d = 1 ∨ d = 2)

/-- The block after the host has given it byte strings to read, one step each, re-synchronising
before each; a step that does not answer a next state leaves it where it was. -/
def runStreams (streams : List (List Byte)) (s : State) : State :=
  streams.foldl (fun s bytes => match step (s.resync bytes) with | .next t => t | _ => s) s

end Sys2Proof.Spec

open Sys2Proof.Spec

/-! ## Encoding and the step -/

/-- Decoding the encoding of a well-formed command gives it back, every operand at every value
(R71, R76). -/
def Obligations.DecodeEncodeRoundTrip : Prop :=
  ∀ (p : Params) (i : Instr), i.wellFormed p = true → decode p (encode i) = .ok i

/-- A legal descriptor is the encoding of the command it decodes to: no bit of it is ignored. -/
def Obligations.LegalDescriptorIsItsCommandsEncoding : Prop :=
  ∀ (p : Params) (d : Descriptor) (i : Instr), decode p d = .ok i → encode i = d

/-- The decoder refuses exactly the descriptors R77 (a) to (e) call illegal. -/
def Obligations.DecoderRefusesExactlyIllegalDescriptors : Prop :=
  ∀ (p : Params) (d : Descriptor), (∃ r, decode p d = .error r) ↔ illegal p d

/-- A few words written out from R71 and R76 decode to the commands they stand for; the first two are
those of R82. -/
def Obligations.WrittenOutWordsDecode : Prop :=
  decode Params.default 0x00000000000000000001008010000010#128 = .ok (.prgStart 0 0 16 128 1) ∧
  decode Params.default 0x00000000000000200000000000000113#128 = .ok (.prgSqueeze 1 32) ∧
  decode Params.default 0x00000000000000000000010E35080001#128 = .ok (.bashs 8 53 14 1) ∧
  decode Params.default 0x00000000000000000000002000000020#128 = .ok (.hashInit 0 32)

/-- A step runs the command at the head of DIN, with the bytes behind its descriptor left on DIN.
(That descriptors travel on DIN is the model's reading, notes/assumptions/1.md.) -/
def Obligations.StepRunsTheDecodedCommand : Prop :=
  ∀ (s : State) (d : Descriptor) (i : Instr) (rest : List Byte),
    s.streamBroken = false → s.din = descriptorBytes d ++ rest → decode s.params d = .ok i →
    step s = exec i { s with din := rest }

/-- A step ends with InvalidCommand (code 6) exactly when its descriptor is illegal by R77; no context
changes and nothing is put out (R207). -/
def Obligations.IllegalDescriptorIsInvalidCommand : Prop :=
  ∀ (s : State) (d : Descriptor) (rest : List Byte),
    s.streamBroken = false → s.din = descriptorBytes d ++ rest →
    (illegal s.params d → ∃ t, step s = .next t ∧ t.status = 6 ∧
      t.prg = s.prg ∧ t.hash = s.hash ∧ t.dout = s.dout ∧
      t.hashAbsorbOverwrite = s.hashAbsorbOverwrite) ∧
    (∀ t, step s = .next t → t.status = 6 → illegal s.params d)

/-- What follows an InvalidCommand on DIN gets no meaning until the host re-synchronises: the next
step is refused. (The form of the refusal is the model's choice, notes/assumptions/3.md.) -/
def Obligations.StreamAfterInvalidCommandIsRefused : Prop :=
  ∀ s t : State, step s = .next t → t.status = 6 →
    step t = .refused .streamBroken ∧
    ∀ bytes, (t.resync bytes).streamBroken = false ∧ (t.resync bytes).din = bytes

/-- A step stops only where the host has not given a whole command, or after an InvalidCommand.
(The stops are the model's choice, notes/assumptions/3.md and 4.md.) -/
def Obligations.StepStopsOnlyWithoutAWholeCommand : Prop :=
  ∀ s : State,
    (∀ r, step s = .refused r ↔
      (s.streamBroken = true ∧ r = .streamBroken) ∨
      (s.streamBroken = false ∧ s.din.length < 16 ∧ r = .noCommand)) ∧
    (∀ f, step s = .fault f ↔ s.streamBroken = false ∧ 16 ≤ s.din.length ∧
      ∃ i, decode s.params (descriptorOfBytes (s.din.take 16)) = .ok i ∧
        s.din.length < 16 + payloadLen i)

/-- Every well-formed command whose payload is on DIN ends, with a next state. -/
def Obligations.EveryCommandEnds : Prop :=
  ∀ (i : Instr) (s : State),
    i.wellFormed s.params = true → payloadLen i ≤ s.din.length → ∃ t, exec i s = .next t

/-! ## Words and bytes -/

/-- Bit `(i + n) mod 64` of `rotl64(w, n)` is bit `i` of `w`, for every amount 0 to 64; 0 and 64 are the
identity, and between them it is the two shifts (R8). -/
def Obligations.RotationMovesEveryBit : Prop :=
  ∀ (w : Word) (n : Nat), n ≤ 64 →
    (∀ i < 64, (rotl64 w n).getLsbD ((i + n) % 64) = w.getLsbD i) ∧
    (0 < n → n < 64 →
      (rotl64 w n).toNat = ((w.toNat <<< n) ||| (w.toNat >>> (64 - n))) % 2 ^ 64) ∧
    (n = 0 ∨ n = 64 → rotl64 w n = w)

/-- The byte swap is `BE64(le64bytes(w))`: byte `k` of it is byte `7-k` of the word; it is its own
inverse (R9). -/
def Obligations.ByteSwapReversesBytes : Prop :=
  ∀ w : Word, bswap64 w = be64 (fun j => (le64bytes w).getD j 0) ∧
    (∀ k < 8, byteOf (bswap64 w) k = byteOf w (7 - k)) ∧ bswap64 (bswap64 w) = w

/-- The byte view: byte `k` is bits `8·(k mod 8)+7 : 8·(k mod 8)` of `S[k div 8]`, a word is `LE64` of its
bytes, and byte 184 is the least significant byte of `S[23]` (R21). -/
def Obligations.ByteViewOfTheState : Prop :=
  ∀ S : Sponge,
    (∀ k < 192, byteAt S k = (S.getD (k / 8) 0).extractLsb' (8 * (k % 8)) 8) ∧
    (∀ i < 24, S.getD i 0 = le64 fun j => byteAt S (8 * i + j)) ∧
    byteAt S 184 = S[23].extractLsb' 0 8

/-- A byte written at offset `k` is seen by the word read of `S[k div 8]` at its place; the other seven
bytes of that word, and every other word, are unchanged (R55, R50). -/
def Obligations.ByteWriteSeenByWordRead : Prop :=
  ∀ (S : Sponge) (k : Nat) (v : Byte), k < 192 →
    ∀ i < 24, ∀ j < 8, ((memWrite k [v] S).getD i 0).extractLsb' (8 * j) 8 =
      if 8 * i + j = k then v else (S.getD i 0).extractLsb' (8 * j) 8

/-! ## BASHS and BASHF -/

/-- BASHS puts out the three words of R101 and changes no context (R103); an amount above 64 is
InvalidCommand and puts out nothing (R103, R77 (e); that exec checks it too is the model's reading,
notes/assumptions/10.md). -/
def Obligations.BashsResult : Prop :=
  ∀ (m1 n1 m2 n2 : Byte) (s : State) (a b c : Word) (rest : List Byte),
    s.din = le64bytes a ++ le64bytes b ++ le64bytes c ++ rest →
    (m1.toNat ≤ 64 → n1.toNat ≤ 64 → m2.toNat ≤ 64 → n2.toNat ≤ 64 →
      exec (.bashs m1 n1 m2 n2) s = .next { s with
        din := rest
        dout := s.dout ++
          (le64bytes (bashsFn m1.toNat n1.toNat m2.toNat n2.toNat a b c).1 ++
            le64bytes (bashsFn m1.toNat n1.toNat m2.toNat n2.toNat a b c).2.1 ++
            le64bytes (bashsFn m1.toNat n1.toNat m2.toNat n2.toNat a b c).2.2)
        status := 0 }) ∧
    ((64 < m1.toNat ∨ 64 < n1.toNat ∨ 64 < m2.toNat ∨ 64 < n2.toNat) →
      ∃ t, exec (.bashs m1 n1 m2 n2) s = .next t ∧ t.status = 6 ∧ t.prg = s.prg ∧
        t.hash = s.hash ∧ t.dout = s.dout ∧ t.hashAbsorbOverwrite = s.hashAbsorbOverwrite)

/-- A round, word by word: the eight BASHS of R101, the shuffle, the constant into word 23; and the
eight BASHS applications commute, any order gives the same words (R114). -/
def Obligations.RoundWordByWord : Prop :=
  (∀ (S : Sponge) (r i : Nat), r < 24 → i < 24 →
    (bashRound S r).getD i 0 =
      if i = 23 then layerWord S (PERM.getD i 0) ^^^ RC.getD r 0
      else layerWord S (PERM.getD i 0)) ∧
  (∀ (order : List (Fin 8)) (S : Sponge), order.Perm (List.finRange 8) →
    order.foldl bashsSlot S = bashsLayer S)

/-- The tables pass the checks the spec gives them: the recurrence of the round constants, the
factor 7 between rotation rows, amounts in 1..56, a shuffle that uses each word once (R111 to R113),
five distinct domain codes, and a header whose two nibbles are the two lengths in units of 4 bytes
(R131). The values are general knowledge (notes/assumptions/7.md). -/
def Obligations.TablesPassTheirChecks : Prop :=
  RC.length = 24 ∧ RC.getD 0 0 = 0x3BF5080AC8BA94B1 ∧
  (∀ r < 23, RC.getD (r + 1) 0 =
    if (RC.getD r 0).toNat % 2 = 0 then RC.getD r 0 >>> 1
    else (RC.getD r 0 >>> 1) ^^^ 0xDC2BE1997FE0D8AE) ∧
  ROT.length = 8 ∧ ROT.getD 0 ⟨0, 0, 0, 0⟩ = ⟨8, 53, 14, 1⟩ ∧
  (∀ v < 7, ROT.getD (v + 1) ⟨0, 0, 0, 0⟩ =
    ⟨(ROT.getD v ⟨0, 0, 0, 0⟩).m1 * 7 % 64, (ROT.getD v ⟨0, 0, 0, 0⟩).n1 * 7 % 64,
      (ROT.getD v ⟨0, 0, 0, 0⟩).m2 * 7 % 64, (ROT.getD v ⟨0, 0, 0, 0⟩).n2 * 7 % 64⟩) ∧
  (∀ a ∈ ROT, ∀ n ∈ [a.m1, a.n1, a.m2, a.n2], 1 ≤ n ∧ n ≤ 56) ∧
  PERM.Perm (List.range 24) ∧
  [dcNull, dcKey, dcData, dcText, dcOut].Nodup ∧
  (∀ a k, 4 ∣ a → a ≤ 60 → 4 ∣ k → k ≤ 60 →
    header a k = BitVec.ofNat 4 (a / 4) ++ BitVec.ofNat 4 (k / 4))

/-- BASHF puts out the State after the 24 rounds, byte-swapped around them when `be = 1`, and changes no
context (R117, R115); `be` above 1 is InvalidCommand and puts out nothing (R117, R77 (d); that exec
checks it too is the model's reading, notes/assumptions/10.md). -/
def Obligations.BashfResult : Prop :=
  ∀ (be : Byte) (s : State) (X rest : List Byte),
    X.length = 192 → s.din = X ++ rest →
    (be.toNat ≤ 1 → exec (.bashf be) s = .next { s with
      din := rest
      dout := s.dout ++ bytesLE
        (if be = 1 then ((List.range 24).foldl bashRound ((wordsLE X).map bswap64)).map bswap64
          else (List.range 24).foldl bashRound (wordsLE X))
      status := 0 }) ∧
    (1 < be.toNat → ∃ t, exec (.bashf be) s = .next t ∧ t.status = 6 ∧ t.prg = s.prg ∧
      t.hash = s.hash ∧ t.dout = s.dout ∧ t.hashAbsorbOverwrite = s.hashAbsorbOverwrite)

/-- The hash engine's big-endian word view with the flag 1 is the automaton's little-endian
permutation (the identity of R171). -/
def Obligations.BigEndianViewWithFlagIsPlainPermutation : Prop :=
  ∀ Z : List Byte, Z.length = 192 →
    bytesBE (bashf true (wordsBE Z)) = bytesLE (bashf false (wordsLE Z)) ∧
    bytesLE (bashf false (wordsLE Z)) = bashfBytes false Z

/-! ## The automaton -/

/-- PRG.START writes every field and all 192 bytes of the context, whatever it held, and nothing else;
operands that fail a check are InvalidParameter and leave the context as it was (R135, R134). -/
def Obligations.PrgStartResult : Prop :=
  ∀ (ctx annLen keyLen : Byte) (l : BitVec 16) (d : Byte) (s : State) (ann key rest : List Byte),
    ctx.toNat < s.prg.length → ann.length = annLen.toNat → key.length = keyLen.toNat →
    s.din = ann ++ key ++ rest →
    (¬(goodLevel l.toNat d.toNat ∧ goodLengths l.toNat annLen.toNat keyLen.toNat) →
      exec (.prgStart ctx annLen keyLen l d) s = .next { s with din := rest, status := 1 }) ∧
    (goodLevel l.toNat d.toNat → goodLengths l.toNat annLen.toNat keyLen.toNat →
      ∃ S : Sponge,
        exec (.prgStart ctx annLen keyLen l d) s = .next { s with
          prg := s.prg.set ctx.toNat
            { S := S, started := true, l := l.toNat, d := d.toNat
              bufLen := if 0 < keyLen.toNat then 192 - l.toNat * (2 + d.toNat) / 16
                else 192 - d.toNat * l.toNat / 4
              pos := 1 + annLen.toNat + keyLen.toNat }
          din := rest
          status := 0 } ∧
        byteAt S 0 = header annLen.toNat keyLen.toNat ∧
        (∀ j < annLen.toNat, byteAt S (1 + j) = ann.getD j 0) ∧
        (∀ j < keyLen.toNat, byteAt S (1 + annLen.toNat + j) = key.getD j 0) ∧
        (∀ k, 1 + annLen.toNat + keyLen.toNat ≤ k → k < 184 → byteAt S k = 0) ∧
        byteAt S 184 = BitVec.ofNat 8 (l.toNat / 4 + d.toNat) ∧
        (∀ k, 185 ≤ k → k < 192 → byteAt S k = 0))

/-- PRG.RESTART commits under `DC_KEY` or `DC_NULL` with the old `buf_len`, then takes the keyed
`buf_len` if a key is supplied, mixes header, announcement and key in at the offsets of PRG.START
and leaves the cursor after them; an Unstarted context and bad lengths fault (R136, R134). -/
def Obligations.PrgRestartResult : Prop :=
  ∀ (ctx annLen keyLen : Byte) (s : State) (c : PrgCtx) (ann key rest : List Byte),
    s.prg[ctx.toNat]? = some c → ann.length = annLen.toNat → key.length = keyLen.toNat →
    s.din = ann ++ key ++ rest →
    (c.started = false →
      exec (.prgRestart ctx annLen keyLen) s = .next { s with din := rest, status := 5 }) ∧
    (c.started = true → ¬goodLengths c.l annLen.toNat keyLen.toNat →
      exec (.prgRestart ctx annLen keyLen) s = .next { s with din := rest, status := 1 }) ∧
    (c.started = true → c.Inv → goodLengths c.l annLen.toNat keyLen.toNat →
      ∃ S : Sponge,
        exec (.prgRestart ctx annLen keyLen) s = .next { s with
          prg := s.prg.set ctx.toNat
            { c with
              S := S
              bufLen := if 0 < keyLen.toNat then 192 - c.l * (2 + c.d) / 16 else c.bufLen
              pos := 1 + annLen.toNat + keyLen.toNat }
          din := rest
          status := 0 } ∧
        ∀ k < 192, byteAt S k =
          byteAt (committed (if 0 < keyLen.toNat then dcKey else dcNull) c) k ^^^
            (if k = 0 then header annLen.toNat keyLen.toNat
              else (ann ++ key).getD (k - 1) 0))

/-- PRG.ABSORB commits under `DC_DATA`, XORs the data in by chunks of `buf_len`, permutes after each
full chunk, and leaves a shorter last chunk resident with the cursor at its length; an Unstarted
context faults (R137). Every data string is full chunks and a shorter last one. -/
def Obligations.PrgAbsorbResult : Prop :=
  ∀ (ctx : Byte) (len : BitVec 64) (s : State) (c : PrgCtx) (data rest : List Byte),
    s.prg[ctx.toNat]? = some c → data.length = len.toNat → s.din = data ++ rest →
    (c.started = false → exec (.prgAbsorb ctx len) s = .next { s with din := rest, status := 5 }) ∧
    (c.started = true → c.Inv → ∀ (chunks : List (List Byte)) (last : List Byte),
      data = chunks.flatten ++ last → (∀ x ∈ chunks, x.length = c.bufLen) →
      last.length < c.bufLen →
      exec (.prgAbsorb ctx len) s = .next { s with
        prg := s.prg.set ctx.toNat
          { c with
            S := xorIn 0 last (absorbChunks chunks (committed dcData c))
            pos := last.length }
        din := rest
        status := 0 })

/-- PRG.SQUEEZE commits under `DC_OUT` and puts out the buffer, permuting after each full chunk, the
last one included; the copy does not change the State; an Unstarted context faults (R138). -/
def Obligations.PrgSqueezeResult : Prop :=
  ∀ (ctx : Byte) (count : BitVec 64) (s : State) (c : PrgCtx),
    s.prg[ctx.toNat]? = some c →
    (c.started = false → exec (.prgSqueeze ctx count) s = .next { s with status := 5 }) ∧
    (c.started = true → c.Inv → ∀ q r : Nat, count.toNat = q * c.bufLen + r → r < c.bufLen →
      exec (.prgSqueeze ctx count) s = .next { s with
        prg := s.prg.set ctx.toNat
          { c with S := permute^[q] (committed dcOut c), pos := r }
        dout := s.dout ++
          ((List.range q).flatMap (fun j => memRead (permute^[j] (committed dcOut c)) 0 c.bufLen) ++
            memRead (permute^[q] (committed dcOut c)) 0 r)
        status := 0 })

/-- PRG.ENCRYPT on a keyed context commits under `DC_TEXT`; each chunk puts out old buffer XOR plaintext
and leaves that ciphertext in the buffer; an Unstarted or Unkeyed context faults before the commit
(R139). -/
def Obligations.PrgEncryptResult : Prop :=
  ∀ (ctx : Byte) (len : BitVec 64) (s : State) (c : PrgCtx) (data rest : List Byte),
    s.prg[ctx.toNat]? = some c → data.length = len.toNat → s.din = data ++ rest →
    (c.started = false → exec (.prgEncrypt ctx len) s = .next { s with din := rest, status := 5 }) ∧
    (c.started = true → 16 * (192 - c.bufLen) ≠ c.l * (2 + c.d) →
      exec (.prgEncrypt ctx len) s = .next { s with din := rest, status := 2 }) ∧
    (c.started = true → 16 * (192 - c.bufLen) = c.l * (2 + c.d) → c.Inv →
      ∀ (chunks : List (List Byte)) (last : List Byte),
      data = chunks.flatten ++ last → (∀ x ∈ chunks, x.length = c.bufLen) →
      last.length < c.bufLen →
      exec (.prgEncrypt ctx len) s = .next { s with
        prg := s.prg.set ctx.toNat
          { c with
            S := memWrite 0
              (xorBytes (memRead (encryptChunks chunks (committed dcText c)).1 0 last.length) last)
              (encryptChunks chunks (committed dcText c)).1
            pos := last.length }
        din := rest
        dout := s.dout ++ ((encryptChunks chunks (committed dcText c)).2 ++
          xorBytes (memRead (encryptChunks chunks (committed dcText c)).1 0 last.length) last)
        status := 0 })

/-- PRG.DECRYPT on a keyed context commits under `DC_TEXT`; each chunk puts out old buffer XOR
ciphertext and leaves the ciphertext in the buffer; an Unstarted or Unkeyed context faults before
the commit (R140). -/
def Obligations.PrgDecryptResult : Prop :=
  ∀ (ctx : Byte) (len : BitVec 64) (s : State) (c : PrgCtx) (data rest : List Byte),
    s.prg[ctx.toNat]? = some c → data.length = len.toNat → s.din = data ++ rest →
    (c.started = false → exec (.prgDecrypt ctx len) s = .next { s with din := rest, status := 5 }) ∧
    (c.started = true → 16 * (192 - c.bufLen) ≠ c.l * (2 + c.d) →
      exec (.prgDecrypt ctx len) s = .next { s with din := rest, status := 2 }) ∧
    (c.started = true → 16 * (192 - c.bufLen) = c.l * (2 + c.d) → c.Inv →
      ∀ (chunks : List (List Byte)) (last : List Byte),
      data = chunks.flatten ++ last → (∀ x ∈ chunks, x.length = c.bufLen) →
      last.length < c.bufLen →
      exec (.prgDecrypt ctx len) s = .next { s with
        prg := s.prg.set ctx.toNat
          { c with
            S := memWrite 0 last (decryptChunks chunks (committed dcText c)).1
            pos := last.length }
        din := rest
        dout := s.dout ++ ((decryptChunks chunks (committed dcText c)).2 ++
          xorBytes (memRead (decryptChunks chunks (committed dcText c)).1 0 last.length) last)
        status := 0 })

/-- PRG.RATCHET commits under `DC_NULL` and XORs the pre-commit State into all 192 bytes of the
post-commit State; an Unstarted context faults (R141). -/
def Obligations.PrgRatchetResult : Prop :=
  ∀ (ctx : Byte) (s : State) (c : PrgCtx), s.prg[ctx.toNat]? = some c →
    (c.started = false → exec (.prgRatchet ctx) s = .next { s with status := 5 }) ∧
    (c.started = true → c.Inv →
      ∃ S : Sponge,
        exec (.prgRatchet ctx) s = .next { s with
          prg := s.prg.set ctx.toNat { c with S := S, pos := 0 }
          status := 0 } ∧
        ∀ k < 192, byteAt S k = byteAt (committed dcNull c) k ^^^ byteAt c.S k)

/-- PRG.CLONE makes the destination a copy of the source, `started` included, and changes no other
context; a clone onto itself changes no context (R150); an index out of range is InvalidCommand
(R77 (c); that exec checks it too is the model's reading, notes/assumptions/10.md). -/
def Obligations.PrgCloneResult : Prop :=
  ∀ (dst src : Byte) (s : State),
    (∀ c, s.prg[src.toNat]? = some c → dst.toNat < s.prg.length →
      exec (.prgClone dst src) s = .next { s with prg := s.prg.set dst.toNat c, status := 0 } ∧
      (dst = src → exec (.prgClone dst src) s = .next { s with status := 0 })) ∧
    (s.prg.length ≤ src.toNat ∨ s.prg.length ≤ dst.toNat →
      ∃ t, exec (.prgClone dst src) s = .next t ∧ t.status = 6 ∧ t.prg = s.prg ∧
        t.hash = s.hash ∧ t.dout = s.dout ∧ t.hashAbsorbOverwrite = s.hashAbsorbOverwrite)

/-- The keyed test: true exactly when `16·(192 − buf_len) = l·(2 + d)` (R133); for admitted `l` and `d` that
is at the keyed buffer length and not at the unkeyed one (the sentence R133 derives from R28). -/
def Obligations.KeyedTestReadsTheMode : Prop :=
  ∀ c : PrgCtx,
    (c.keyed = true ↔ 16 * (192 - c.bufLen) = c.l * (2 + c.d)) ∧
    (goodLevel c.l c.d →
      (c.bufLen = 192 - c.l * (2 + c.d) / 16 → c.keyed = true) ∧
      (c.bufLen = 192 - c.d * c.l / 4 → c.keyed = false))

/-- Only PRG.START and PRG.CLONE onto a context write its `started`, `l` and `d` (R25, R26, R27). -/
def Obligations.OnlyStartAndCloneSetLevel : Prop :=
  ∀ (i : Instr) (s t : State) (j : Nat) (c c' : PrgCtx),
    exec i s = .next t → s.prg[j]? = some c → t.prg[j]? = some c' →
    startsOrClonesOnto j i = false →
    c'.started = c.started ∧ c'.l = c.l ∧ c'.d = c.d

/-- The mode of a started context, apart from PRG.START and PRG.CLONE onto it, changes only from
Unkeyed to Keyed, by a PRG.RESTART with a key that ends with OK (R130). -/
def Obligations.ModeChangesOnlyByKeyedRestart : Prop :=
  ∀ (i : Instr) (s t : State) (j : Nat) (c c' : PrgCtx),
    exec i s = .next t → s.prg[j]? = some c → t.prg[j]? = some c' →
    c.started = true → c.Inv → startsOrClonesOnto j i = false →
    c'.keyed = (c.keyed || (restartsWithKey j i && t.status == 0))

/-- Encrypt and decrypt are inverse and converge: a context equal to the encrypting one decrypts the
ciphertext to the plaintext, and the two contexts are equal again (R145). -/
def Obligations.EncryptDecryptConverge : Prop :=
  ∀ (a b : Byte) (len : BitVec 64) (s : State) (c : PrgCtx) (pt rest : List Byte),
    a ≠ b → s.prg[a.toNat]? = some c → s.prg[b.toNat]? = some c →
    c.started = true → c.keyed = true → c.Inv →
    pt.length = len.toNat → s.din = pt ++ rest →
    ∃ (t u : State) (ct : List Byte),
      exec (.prgEncrypt a len) s = .next t ∧ t.dout = s.dout ++ ct ∧ ct.length = pt.length ∧
      exec (.prgDecrypt b len) { t with din := ct ++ rest } = .next u ∧
      u.dout = t.dout ++ pt ∧ u.status = 0 ∧ u.prg[b.toNat]? = u.prg[a.toNat]?

/-! ## The hash engine -/

/-- HASH.INIT constructs the context anew with the given output length, whatever it held; any other
length is InvalidParameter and leaves the context as it was (R172, R170). -/
def Obligations.HashInitResult : Prop :=
  ∀ (ctx : Byte) (outLen : BitVec 16) (s : State), ctx.toNat < s.hash.length →
    (outLen.toNat ≠ 32 → outLen.toNat ≠ 48 → outLen.toNat ≠ 64 →
      exec (.hashInit ctx outLen) s = .next { s with status := 1 }) ∧
    ((outLen.toNat = 32 ∨ outLen.toNat = 48 ∨ outLen.toNat = 64) →
      ∃ HB : Sponge,
        exec (.hashInit ctx outLen) s = .next { s with
          hash := s.hash.set ctx.toNat
            { constructed := true, outLen := outLen.toNat, blockLen := 192 - 2 * outLen.toNat
              HB := HB, hbuf := List.replicate (192 - 2 * outLen.toNat) 0, hcur := 0, total := 0 }
          status := 0 } ∧
        ∀ k < 192, byteAt HB k = if k = 184 then BitVec.ofNat 8 outLen.toNat else 0)

/-- HASH.RESET takes a constructed context back to its initial state and keeps its lengths; an
unconstructed context faults (R173). -/
def Obligations.HashResetResult : Prop :=
  ∀ (ctx : Byte) (s : State) (h : HashCtx), s.hash[ctx.toNat]? = some h →
    (h.constructed = false → exec (.hashReset ctx) s = .next { s with status := 5 }) ∧
    (h.constructed = true →
      ∃ HB : Sponge,
        exec (.hashReset ctx) s = .next { s with
          hash := s.hash.set ctx.toNat
            { h with HB := HB, hbuf := List.replicate h.blockLen 0, hcur := 0, total := 0 }
          status := 0 } ∧
        ∀ k < 192, byteAt HB k = if k = 184 then BitVec.ofNat 8 h.outLen else 0)

/-- HASH.UPDATE appends to the pending bytes and runs a block step for each full block, in order; what
is left stays pending, and the counter grows by the length; an unconstructed context faults (R175,
R174). Pending bytes and data together are full blocks and a shorter rest. -/
def Obligations.HashUpdateResult : Prop :=
  ∀ (ctx : Byte) (len : BitVec 64) (s : State) (h : HashCtx) (data rest : List Byte),
    s.hash[ctx.toNat]? = some h → data.length = len.toNat → s.din = data ++ rest →
    (h.constructed = false →
      exec (.hashUpdate ctx len) s = .next { s with din := rest, status := 5 }) ∧
    (h.constructed = true → h.Inv → ∀ (blocks : List (List Byte)) (last : List Byte),
      h.hbuf.take h.hcur ++ data = blocks.flatten ++ last →
      (∀ x ∈ blocks, x.length = h.blockLen) → last.length < h.blockLen →
      ∃ hbuf : List Byte,
        exec (.hashUpdate ctx len) s = .next { s with
          hash := s.hash.set ctx.toNat
            { h with
              HB := blocks.foldl (blockStep s.hashAbsorbOverwrite) h.HB
              hbuf := hbuf
              hcur := last.length
              total := h.total + data.length }
          din := rest
          status := 0 } ∧
        hbuf.take last.length = last ∧ hbuf.length = h.blockLen)

/-- HASH.DIGEST runs the block step on a copy, with the pending bytes, the marker 0x40 and zeros, puts
out the first `out_len` bytes, and leaves the context as it was; an unconstructed context faults
(R176). -/
def Obligations.HashDigestResult : Prop :=
  ∀ (ctx : Byte) (s : State) (h : HashCtx), s.hash[ctx.toNat]? = some h →
    (h.constructed = false → exec (.hashDigest ctx) s = .next { s with status := 5 }) ∧
    (h.constructed = true → h.Inv →
      exec (.hashDigest ctx) s = .next { s with
        dout := s.dout ++ memRead
          (blockStep s.hashAbsorbOverwrite h.HB
            (h.hbuf.take h.hcur ++ [0x40] ++ List.replicate (h.blockLen - h.hcur - 1) 0))
          0 h.outLen
        status := 0 })

/-- HASH.CLONE makes the destination a copy of the source and changes no other context; a clone onto
itself changes no context (R177); an index out of range is InvalidCommand (R77 (c); that exec checks
it too is the model's reading, notes/assumptions/10.md). -/
def Obligations.HashCloneResult : Prop :=
  ∀ (dst src : Byte) (s : State),
    (∀ h, s.hash[src.toNat]? = some h → dst.toNat < s.hash.length →
      exec (.hashClone dst src) s = .next { s with hash := s.hash.set dst.toNat h, status := 0 } ∧
      (dst = src → exec (.hashClone dst src) s = .next { s with status := 0 })) ∧
    (s.hash.length ≤ src.toNat ∨ s.hash.length ≤ dst.toNat →
      ∃ t, exec (.hashClone dst src) s = .next t ∧ t.status = 6 ∧ t.prg = s.prg ∧
        t.hash = s.hash ∧ t.dout = s.dout ∧ t.hashAbsorbOverwrite = s.hashAbsorbOverwrite)

/-- Splitting a message over two HASH.UPDATE commands gives the same block, `total` included, as one
command with the whole message (R175). -/
def Obligations.UpdateSplitsFreely : Prop :=
  ∀ (ctx : Byte) (n1 n2 n : BitVec 64) (s : State) (X Y rest : List Byte),
    ctx.toNat < s.hash.length →
    X.length = n1.toNat → Y.length = n2.toNat → n.toNat = n1.toNat + n2.toNat →
    s.din = X ++ Y ++ rest →
    ∃ t u, exec (.hashUpdate ctx n1) s = .next t ∧ exec (.hashUpdate ctx n2) t = .next u ∧
      exec (.hashUpdate ctx n) s = .next u

/-- The block step's two settings agree on a message shorter than one block of a fresh context (R174). -/
def Obligations.OverwriteAgreesBelowOneBlock : Prop :=
  ∀ (outLen : Nat) (h0 : HashCtx) (data : List Byte),
    (outLen = 32 ∨ outLen = 48 ∨ outLen = 64) → data.length < 192 - 2 * outLen →
    ∃ h1 h2, h0.init outLen = .ok (h1, []) ∧
      h1.update true data = .ok (h2, []) ∧ h1.update false data = .ok (h2, []) ∧
      h2.digest true = h2.digest false

/-- The digest as a function of the message: HASH.INIT, any number of HASH.UPDATE, HASH.DIGEST put out
the first `out_len` bytes after the block step on each block of `M ‖ 40 ‖ 0^z` (R179). How the host
issues the commands is notes/assumptions/11.md. -/
def Obligations.DigestIsAFunctionOfTheMessage : Prop :=
  ∀ (ctx : Byte) (outLen : BitVec 16) (s : State) (pieces blocks : List (List Byte)) (z : Nat),
    s.streamBroken = false → ctx.toNat < s.hash.length →
    (outLen.toNat = 32 ∨ outLen.toNat = 48 ∨ outLen.toNat = 64) →
    (∀ x ∈ pieces, x.length < 2 ^ 64) →
    z < 192 - 2 * outLen.toNat →
    pieces.flatten ++ [0x40] ++ List.replicate z 0 = blocks.flatten →
    (∀ x ∈ blocks, x.length = 192 - 2 * outLen.toNat) →
    ∃ t, issueAll
        ([{ instr := .hashInit ctx outLen, payload := [] }] ++
          pieces.map (fun x =>
            { instr := .hashUpdate ctx (BitVec.ofNat 64 x.length), payload := x }) ++
          [{ instr := .hashDigest ctx, payload := [] }]) s =
      .next (t, .ok (memRead
        (blocks.foldl (blockStep s.hashAbsorbOverwrite) (initialHB outLen.toNat)) 0 outLen.toNat))

/-! ## Faults and whole-machine rules -/

/-- A command ends with NotStarted (code 5) exactly when it is one that needs a started (constructed)
context and names one that is not (R206). The order R202 is in the predicates of this and the next
four statements: each asks that no earlier cause holds. -/
def Obligations.NotStartedExactlyOnUnstartedContext : Prop :=
  ∀ (i : Instr) (s t : State), exec i s = .next t → (t.status = 5 ↔ namesUnstarted s i)

/-- A command ends with InvalidParameter (code 1) exactly on the causes the table of R204 lists; the
`aead.dec` wrapper reports it when its input is shorter than the tag, and issues nothing then. -/
def Obligations.InvalidParameterExactlyOnListedCauses : Prop :=
  (∀ (i : Instr) (s t : State), exec i s = .next t → (t.status = 1 ↔ badParameter s i)) ∧
  (∀ (c : Byte) (l : BitVec 16) (d : Byte) (ann ctTag ad key : List Byte) (s : State),
    ctTag.length < l.toNat / 8 → aeadDec c l d ann ctTag ad key s = .next (s, .error 1))

/-- A command ends with ModeError (code 2) exactly when it is PRG.ENCRYPT or PRG.DECRYPT on a started
context that is not keyed, for any data length, and then no context has changed (R205). -/
def Obligations.ModeErrorExactlyOnUnkeyedContext : Prop :=
  ∀ (i : Instr) (s t : State), exec i s = .next t →
    (t.status = 2 ↔ unkeyedCrypt s i) ∧ (t.status = 2 → t.prg = s.prg ∧ t.hash = s.hash)

/-- The commit step's defensive check: a command ends with InternalConsistency (code 4) exactly when it
reaches its commit with the cursor past the buffer (R132, R209). -/
def Obligations.InternalConsistencyExactlyPastBuffer : Prop :=
  ∀ (i : Instr) (s t : State), exec i s = .next t → (t.status = 4 ↔ commitsPastBuffer s i)

/-- A command that ends with any code but OK changes no context and no parameter and puts nothing out;
unless the code is InvalidCommand, exactly its payload is taken from DIN and dropped (R203). -/
def Obligations.FaultChangesNothing : Prop :=
  ∀ (i : Instr) (s t : State), exec i s = .next t → t.status ≠ 0 →
    t.prg = s.prg ∧ t.hash = s.hash ∧ t.hashAbsorbOverwrite = s.hashAbsorbOverwrite ∧
    t.dout = s.dout ∧
    (t.status ≠ 6 → t.din = s.din.drop (payloadLen i) ∧ t.streamBroken = s.streamBroken)

/-- Whatever a well-formed command answers, it takes exactly the payload R74 gives it and puts out
exactly the output R74 gives it, and nothing unless it ends with OK. -/
def Obligations.PayloadAndOutputLengths : Prop :=
  ∀ (i : Instr) (s t : State), i.wellFormed s.params = true → s.Inv → exec i s = .next t →
    t.din = s.din.drop (payloadLen i) ∧
    ∃ out, t.dout = s.dout ++ out ∧ out.length = if t.status = 0 then outputLen s i else 0

/-- Frame: a command changes no context but the one it writes, no parameter, and no count of contexts;
after a clone, therefore, a command on one of the two contexts never changes the other (R67, R20). -/
def Obligations.CommandsTouchOnlyTheirContext : Prop :=
  ∀ (i : Instr) (s t : State), exec i s = .next t →
    t.params = s.params ∧
    (∀ j, prgTarget i ≠ some j → t.prg[j]? = s.prg[j]?) ∧
    (∀ j, hashTarget i ≠ some j → t.hash[j]? = s.hash[j]?)

/-- Every code a command ends with, from a state that meets the invariant, is one the fault matrix
gives it (R210). -/
def Obligations.FaultMatrixHolds : Prop :=
  ∀ (i : Instr) (s t : State), s.Inv → exec i s = .next t →
    ∃ k ∈ matrix i, t.status = k.code

/-- InternalConsistency is raised by no command from a state whose contexts meet the cursor invariant,
and by no sequence of commands after reset, whatever the host sends (R151). -/
def Obligations.InternalConsistencyUnreachable : Prop :=
  (∀ (i : Instr) (s t : State), (∀ c ∈ s.prg, c.Inv) → exec i s = .next t → t.status ≠ 4) ∧
  (∀ (p : Params) (streams : List (List Byte)),
    (runStreams streams (State.resetWith p)).status ≠ 4)

/-- No command reads `STATUS` (R31). -/
def Obligations.StatusIsNeverRead : Prop :=
  ∀ (i : Instr) (s : State) (b : Byte), exec i { s with status := b } = exec i s

/-- Nothing can observe the fields of an Unstarted or unconstructed context: a step from two blocks
that differ only there ends the same way, in blocks that differ only there (R34). -/
def Obligations.UnspecifiedFieldsUnobservable : Prop :=
  ∀ s s' : State, s.Same s' → Outcome.Same (step s) (step s')

/-- The invariant of the block, the cursor invariant R143 and the values of R26 to R28 and R30 in it, is
kept by every step from every state. -/
def Obligations.StepKeepsInvariant : Prop :=
  ∀ s t : State, s.Inv → step s = .next t → t.Inv

/-- The invariant holds after reset. (The values of the unspecified fields are the model's,
notes/assumptions/6.md; the invariant asks nothing of them.) -/
def Obligations.ResetMeetsInvariant : Prop :=
  State.reset.Inv

/-- After reset every automaton context is Unstarted, every hash context unconstructed, and `STATUS` is
0; there are `NPRG` and `NHASH` of them, whatever the parameters (R230). -/
def Obligations.ResetState : Prop :=
  ∀ p : Params,
    (State.resetWith p).prg.length = p.nprg ∧ (State.resetWith p).hash.length = p.nhash ∧
    (∀ c ∈ (State.resetWith p).prg, c.started = false) ∧
    (∀ h ∈ (State.resetWith p).hash, h.constructed = false) ∧
    (State.resetWith p).status = 0 ∧ State.reset = State.resetWith Params.default

/-! ## The composite schemes -/

/-- `prg.hash` ends with `l/4` bytes that depend on `l`, `d` and the data alone, not on the block or the
context it runs on (R190). How the host issues the commands is notes/assumptions/11.md. -/
def Obligations.PrgHashIsPure : Prop :=
  ∀ (c c' : Byte) (l : BitVec 16) (d : Byte) (data : List Byte) (s s' : State),
    s.streamBroken = false → s'.streamBroken = false → c.toNat < s.prg.length →
    c'.toNat < s'.prg.length → goodLevel l.toNat d.toNat → data.length < 2 ^ 64 →
    ∃ t t' out, prgHash c l d data s = .next (t, .ok out) ∧
      prgHash c' l d data s' = .next (t', .ok out) ∧ out.length = l.toNat / 4

/-- Round trip: with a valid key, `aead.dec` of what `aead.enc` returned is the plaintext (R193). How the
host issues the commands is notes/assumptions/11.md. -/
def Obligations.AeadRoundTrip : Prop :=
  ∀ (c : Byte) (l : BitVec 16) (d : Byte) (ann pt ad key : List Byte) (s : State),
    s.streamBroken = false → c.toNat < s.prg.length → goodLevel l.toNat d.toNat →
    goodLengths l.toNat ann.length key.length → key ≠ [] →
    pt.length < 2 ^ 64 → ad.length < 2 ^ 64 →
    ∃ t u ctTag, aeadEnc c l d ann pt ad key s = .next (t, .ok ctTag) ∧
      ctTag.length = pt.length + l.toNat / 8 ∧
      aeadDec c l d ann ctTag ad key t = .next (u, .ok pt)

/-- Tamper detection on the tag: whatever tag of the right length other than the one `aead.enc` returned
makes `aead.dec` fail with AuthenticationError (R193, the tag case). How the host issues the commands
is notes/assumptions/11.md. -/
def Obligations.WrongTagFailsAuthentication : Prop :=
  ∀ (c : Byte) (l : BitVec 16) (d : Byte) (ann pt ad key tag : List Byte) (s t : State)
    (ctTag : List Byte),
    s.streamBroken = false → c.toNat < s.prg.length → goodLevel l.toNat d.toNat →
    goodLengths l.toNat ann.length key.length → key ≠ [] →
    pt.length < 2 ^ 64 → ad.length < 2 ^ 64 →
    aeadEnc c l d ann pt ad key s = .next (t, .ok ctTag) →
    tag.length = l.toNat / 8 → tag ≠ ctTag.drop pt.length →
    ∃ u, aeadDec c l d ann (ctTag.take pt.length ++ tag) ad key t = .next (u, .error 3)
end

