-- ==== Sys2Proof/Laws/Bits.lean ====
section
/-! SUPPORT. Laws of the byte order of a word (R6, R9): reading the bytes of a word put together
from bytes gives them back, both ways, and the two byte orders differ by the byte swap. -/

namespace Sys2Proof.Machine

open Sys2Proof

/-- A bit of a word put together from bytes is the bit of the byte it lies in. -/
theorem getLsbD_le64 (f : Nat → Byte) {n : Nat} (h : n < 64) :
    (le64 f).getLsbD n = (f (n / 8)).getLsbD (n % 8) := by
  simp only [le64, BitVec.getLsbD_append]
  have hq : n = 8 * (n / 8) + n % 8 := (Nat.div_add_mod n 8).symm
  have hr : n % 8 < 8 := Nat.mod_lt _ (by omega)
  have hb : n / 8 < 8 := by omega
  generalize n / 8 = q at *
  generalize n % 8 = r at *
  subst hq
  interval_cases q <;>
    (repeat' split) <;> first | omega | (congr 1; omega)

/-- A bit of byte `j` of a word. -/
theorem getLsbD_byteOf (w : Word) (j n : Nat) :
    (byteOf w j).getLsbD n = (decide (n < 8) && w.getLsbD (8 * j + n)) := by
  simp [byteOf]

/-- Byte `j` of a word put together from bytes is the byte given. -/
@[simp] theorem byteOf_le64 (f : Nat → Byte) {j : Nat} (hj : j < 8) : byteOf (le64 f) j = f j := by
  apply BitVec.eq_of_getLsbD_eq
  intro n hn
  rw [getLsbD_byteOf, getLsbD_le64 f (by omega)]
  simp [hn, show (8 * j + n) / 8 = j by omega, show (8 * j + n) % 8 = n by omega]

/-- A word is put together from its own bytes. -/
@[simp] theorem le64_byteOf (w : Word) : le64 (byteOf w) = w := by
  apply BitVec.eq_of_getLsbD_eq
  intro n hn
  rw [getLsbD_le64 _ hn, getLsbD_byteOf, Nat.div_add_mod]
  simp [Nat.mod_lt]

/-- Only the bytes 0 to 7 of a byte function matter. -/
theorem le64_congr {f g : Nat → Byte} (h : ∀ j < 8, f j = g j) : le64 f = le64 g := by
  simp [le64, h]

/-- Two words with equal bytes are equal. -/
theorem word_ext {w v : Word} (h : ∀ j < 8, byteOf w j = byteOf v j) : w = v := by
  rw [← le64_byteOf w, ← le64_byteOf v]
  exact le64_congr h

/-- `BE64` is `LE64` of the reversed bytes (R6). -/
theorem be64_eq_le64 (f : Nat → Byte) : be64 f = le64 fun j => f (7 - j) := rfl

/-- Byte `k` of the swapped word is byte `7 - k` of the word (R9). -/
@[simp] theorem byteOf_bswap64 (w : Word) {j : Nat} (hj : j < 8) :
    byteOf (bswap64 w) j = byteOf w (7 - j) := by
  rw [bswap64, be64_eq_le64, byteOf_le64 _ hj]

/-- The byte swap is its own inverse (R9). -/
@[simp] theorem bswap64_bswap64 (w : Word) : bswap64 (bswap64 w) = w := by
  apply word_ext
  intro j hj
  rw [byteOf_bswap64 _ hj, byteOf_bswap64 _ (by omega)]
  congr 1
  omega

/-- Rotation by 0 is the identity (R8). -/
@[simp] theorem rotl64_zero (w : Word) : rotl64 w 0 = w := rfl

/-- Rotation by 64 is the identity (R8). -/
@[simp] theorem rotl64_sixtyFour (w : Word) : rotl64 w 64 = w := rfl

end Sys2Proof.Machine
end

