-- ==== Sys2Proof/Laws/Bytes.lean ====
section
/-! SUPPORT. Laws of the byte view of a State (R21, R50, R60 to R62): a State is its 192 bytes, and
each data move says byte by byte what it leaves. -/

namespace Sys2Proof.Machine

open Sys2Proof

/-- The byte view of a State built from bytes. -/
theorem byteAt_ofBytes (f : Nat → Byte) {k : Nat} (hk : k < 192) : byteAt (ofBytes f) k = f k := by
  have h : k / 8 < 24 := by omega
  have hm : k % 8 < 8 := Nat.mod_lt _ (by omega)
  simp [byteAt, ofBytes, Vector.getD, h, hm, Nat.div_add_mod]

/-- Offsets past the State read as zero. -/
theorem byteAt_of_ge (S : Sponge) {k : Nat} (hk : 192 ≤ k) : byteAt S k = 0 := by
  have h : ¬ k / 8 < 24 := by omega
  simp [byteAt, Vector.getD, h, byteOf]

/-- Two States with the same 192 bytes are equal. -/
theorem sponge_ext {S T : Sponge} (h : ∀ k < 192, byteAt S k = byteAt T k) : S = T := by
  apply Vector.ext
  intro i hi
  apply word_ext
  intro j hj
  have hk := h (8 * i + j) (by omega)
  have hd : (8 * i + j) / 8 = i := by omega
  have hm : (8 * i + j) % 8 = j := by omega
  simpa [byteAt, hd, hm, Vector.getD, hi] using hk

/-- A State is built from its own bytes. -/
@[simp] theorem ofBytes_byteAt (S : Sponge) : ofBytes (byteAt S) = S :=
  sponge_ext fun _ hk => byteAt_ofBytes _ hk

/-- The spec of `mapBytes`. -/
theorem byteAt_mapBytes (g : Nat → Byte → Byte) (S : Sponge) {k : Nat} (hk : k < 192) :
    byteAt (mapBytes g S) k = g k (byteAt S k) :=
  byteAt_ofBytes _ hk

/-- The spec of `memWrite`: the bytes written, every other byte as before. -/
theorem byteAt_memWrite (addr : Nat) (X : List Byte) (S : Sponge) {k : Nat} (hk : k < 192) :
    byteAt (memWrite addr X S) k =
      if addr ≤ k ∧ k < addr + X.length then X.getD (k - addr) 0 else byteAt S k :=
  byteAt_mapBytes _ S hk

/-- The spec of `xorIn` (R60). -/
theorem byteAt_xorIn (off : Nat) (X : List Byte) (S : Sponge) {k : Nat} (hk : k < 192) :
    byteAt (xorIn off X S) k =
      if off ≤ k ∧ k < off + X.length then byteAt S k ^^^ X.getD (k - off) 0 else byteAt S k :=
  byteAt_mapBytes _ S hk

/-- The spec of `xorByte`. -/
theorem byteAt_xorByte (o : Nat) (v : Byte) (S : Sponge) {k : Nat} (hk : k < 192) :
    byteAt (xorByte o v S) k = if k = o then byteAt S k ^^^ v else byteAt S k := by
  rw [xorByte, byteAt_xorIn _ _ _ hk]
  by_cases h : k = o
  · subst h; simp
  · rw [if_neg h, if_neg (by simp only [List.length_singleton]; omega)]

/-- The spec of `xorSponge` (R141). -/
theorem byteAt_xorSponge (S T : Sponge) {k : Nat} (hk : k < 192) :
    byteAt (xorSponge S T) k = byteAt S k ^^^ byteAt T k :=
  byteAt_mapBytes _ S hk

@[simp] theorem memRead_length (S : Sponge) (a n : Nat) : (memRead S a n).length = n := by
  simp [memRead]

/-- The spec of `memRead`. -/
theorem memRead_getD (S : Sponge) (a n : Nat) {i : Nat} (h : i < n) :
    (memRead S a n).getD i 0 = byteAt S (a + i) := by
  simp [memRead, h]

/-- XORing nothing in changes nothing. -/
@[simp] theorem xorIn_nil (off : Nat) (S : Sponge) : xorIn off [] S = S := by
  apply sponge_ext
  intro k hk
  have : ¬(off ≤ k ∧ k < off) := by omega
  rw [byteAt_xorIn _ _ _ hk]
  simp [this]

/-- Writing nothing changes nothing. -/
@[simp] theorem memWrite_nil (addr : Nat) (S : Sponge) : memWrite addr [] S = S := by
  apply sponge_ext
  intro k hk
  have : ¬(addr ≤ k ∧ k < addr) := by omega
  rw [byteAt_memWrite _ _ _ hk]
  simp [this]

/-- XORing the same bytes in twice changes nothing. -/
theorem xorIn_xorIn_cancel (off : Nat) (X : List Byte) (S : Sponge) :
    xorIn off X (xorIn off X S) = S := by
  apply sponge_ext
  intro k hk
  rw [byteAt_xorIn _ _ _ hk, byteAt_xorIn _ _ _ hk]
  split <;> simp

/-- Both directions of the duplex leave the ciphertext in the buffer (R62): overwriting with the
bytes an XOR left is that XOR. -/
theorem memWrite_memRead_xorIn (X : List Byte) (S : Sponge) :
    memWrite 0 (memRead (xorIn 0 X S) 0 X.length) S = xorIn 0 X S := by
  apply sponge_ext
  intro k hk
  rw [byteAt_memWrite _ _ _ hk, byteAt_xorIn _ _ _ hk, memRead_length]
  by_cases h : k < X.length
  · rw [if_pos (by omega), memRead_getD _ _ _ (by omega), Nat.zero_add, Nat.sub_zero,
      byteAt_xorIn _ _ _ hk, Nat.sub_zero]
  · rw [if_neg (by omega), if_neg (by omega)]

/-- A State read from its own bytes (R21). -/
@[simp] theorem spongeOfBytes_bytesOfSponge (S : Sponge) :
    spongeOfBytes (bytesOfSponge S) = S := by
  apply sponge_ext
  intro k hk
  rw [spongeOfBytes, byteAt_ofBytes _ hk, bytesOfSponge, memRead_getD _ _ _ hk, Nat.zero_add]

@[simp] theorem bytesOfSponge_length (S : Sponge) : (bytesOfSponge S).length = 192 := by
  simp [bytesOfSponge]

end Sys2Proof.Machine
end

