-- ==== Sys2Proof/Laws/Decode.lean ====
section
/-! SUPPORT. Laws of the descriptor (R71, R72): its fields are what it was put together from, it is
put together from its fields, and its 16 bytes are read back as it was. -/

namespace Sys2Proof

section Fields
variable (op ctx p0 p1 : Byte) (p2 : BitVec 16) (p3 rsv : Byte) (q : BitVec 64)

@[simp] theorem fieldOp_descriptor :
    fieldOp (descriptor op ctx p0 p1 p2 p3 rsv q) = op := by
  apply BitVec.eq_of_getLsbD_eq
  intro n hn
  simp only [fieldOp, descriptor, BitVec.getLsbD_extractLsb', BitVec.getLsbD_append, hn,
    decide_true, Bool.true_and]
  repeat' split
  all_goals first | omega | (congr 1; omega)

@[simp] theorem fieldCtx_descriptor :
    fieldCtx (descriptor op ctx p0 p1 p2 p3 rsv q) = ctx := by
  apply BitVec.eq_of_getLsbD_eq
  intro n hn
  simp only [fieldCtx, descriptor, BitVec.getLsbD_extractLsb', BitVec.getLsbD_append, hn,
    decide_true, Bool.true_and]
  repeat' split
  all_goals first | omega | (congr 1; omega)

@[simp] theorem fieldP0_descriptor :
    fieldP0 (descriptor op ctx p0 p1 p2 p3 rsv q) = p0 := by
  apply BitVec.eq_of_getLsbD_eq
  intro n hn
  simp only [fieldP0, descriptor, BitVec.getLsbD_extractLsb', BitVec.getLsbD_append, hn,
    decide_true, Bool.true_and]
  repeat' split
  all_goals first | omega | (congr 1; omega)

@[simp] theorem fieldP1_descriptor :
    fieldP1 (descriptor op ctx p0 p1 p2 p3 rsv q) = p1 := by
  apply BitVec.eq_of_getLsbD_eq
  intro n hn
  simp only [fieldP1, descriptor, BitVec.getLsbD_extractLsb', BitVec.getLsbD_append, hn,
    decide_true, Bool.true_and]
  repeat' split
  all_goals first | omega | (congr 1; omega)

@[simp] theorem fieldP2_descriptor :
    fieldP2 (descriptor op ctx p0 p1 p2 p3 rsv q) = p2 := by
  apply BitVec.eq_of_getLsbD_eq
  intro n hn
  simp only [fieldP2, descriptor, BitVec.getLsbD_extractLsb', BitVec.getLsbD_append, hn,
    decide_true, Bool.true_and]
  repeat' split
  all_goals first | omega | (congr 1; omega)

@[simp] theorem fieldP3_descriptor :
    fieldP3 (descriptor op ctx p0 p1 p2 p3 rsv q) = p3 := by
  apply BitVec.eq_of_getLsbD_eq
  intro n hn
  simp only [fieldP3, descriptor, BitVec.getLsbD_extractLsb', BitVec.getLsbD_append, hn,
    decide_true, Bool.true_and]
  repeat' split
  all_goals first | omega | (congr 1; omega)

@[simp] theorem fieldRsv_descriptor :
    fieldRsv (descriptor op ctx p0 p1 p2 p3 rsv q) = rsv := by
  apply BitVec.eq_of_getLsbD_eq
  intro n hn
  simp only [fieldRsv, descriptor, BitVec.getLsbD_extractLsb', BitVec.getLsbD_append, hn,
    decide_true, Bool.true_and]
  repeat' split
  all_goals first | omega | (congr 1; omega)

@[simp] theorem fieldQ_descriptor :
    fieldQ (descriptor op ctx p0 p1 p2 p3 rsv q) = q := by
  apply BitVec.eq_of_getLsbD_eq
  intro n hn
  simp only [fieldQ, descriptor, BitVec.getLsbD_extractLsb', BitVec.getLsbD_append, hn,
    decide_true, Bool.true_and]
  repeat' split
  all_goals first | omega | (congr 1; omega)

end Fields

/-- A descriptor is put together from its own fields: the eight fields of R71 cover all 128 bits. -/
theorem descriptor_fields (d : Descriptor) :
    descriptor (fieldOp d) (fieldCtx d) (fieldP0 d) (fieldP1 d) (fieldP2 d) (fieldP3 d)
      (fieldRsv d) (fieldQ d) = d := by
  apply BitVec.eq_of_getLsbD_eq
  intro n hn
  simp only [descriptor, fieldOp, fieldCtx, fieldP0, fieldP1, fieldP2, fieldP3, fieldRsv, fieldQ,
    BitVec.getLsbD_append, BitVec.getLsbD_extractLsb']
  repeat' split
  all_goals first
    | omega
    | (rw [decide_eq_true (by omega), Bool.true_and]; congr 1; omega)

/-- The opcode map and the opcode numbers agree (R75). -/
@[simp] theorem opOfByte_code (op : Op) : opOfByte op.code = some op := by
  cases op <;> rfl

/-- Only an operation's own number stands for it (R75). -/
theorem code_of_opOfByte {b : Byte} {op : Op} (h : opOfByte b = some op) : op.code = b := by
  unfold opOfByte at h
  split at h <;> first
    | (obtain rfl := Option.some.inj h
       apply BitVec.eq_of_toNat_eq
       rename_i hb
       rw [hb]
       rfl)
    | cases h

/-- Bits of a descriptor read from bytes: byte `n / 8`, bit `n % 8` (R72). -/
theorem getLsbD_descriptorOfBytes (bs : List Byte) (n : Nat) :
    (descriptorOfBytes bs).getLsbD n = (decide (n < 128) && (bs.getD (n / 8) 0).getLsbD (n % 8)) := by
  induction bs generalizing n with
  | nil => simp [descriptorOfBytes]
  | cons b bs ih =>
    simp only [descriptorOfBytes, BitVec.getLsbD_or, BitVec.getLsbD_setWidth,
      BitVec.getLsbD_shiftLeft, ih]
    by_cases h8 : n < 8
    · have hd : n / 8 = 0 := by omega
      have hm : n % 8 = n := by omega
      simp [h8, hd, hm]
    · have hd : n / 8 = (n - 8) / 8 + 1 := by omega
      have hm : n % 8 = (n - 8) % 8 := by omega
      have hb : b.getLsbD n = false := BitVec.getLsbD_of_ge _ _ (by omega)
      rw [hd, hm]
      by_cases h128 : n < 128
      · have : n - 8 < 128 := by omega
        simp [h8, h128, this, hb]
      · simp [h8, h128]

@[simp] theorem descriptorBytes_length (d : Descriptor) : (descriptorBytes d).length = 16 := by
  simp [descriptorBytes]

/-- A descriptor is read back from its 16 bytes (R72). -/
@[simp] theorem descriptorOfBytes_descriptorBytes (d : Descriptor) :
    descriptorOfBytes (descriptorBytes d) = d := by
  apply BitVec.eq_of_getLsbD_eq
  intro n hn
  have hq : n / 8 < 16 := by omega
  have hr : n % 8 < 8 := Nat.mod_lt _ (by omega)
  rw [getLsbD_descriptorOfBytes]
  simp [hn, descriptorBytes, hq, descriptorByte, hr, Nat.div_add_mod]

/-- The fetch takes exactly the descriptor that was delivered (R70, R72). -/
@[simp] theorem fetchDescriptor_descriptorBytes (d : Descriptor) (rest : List Byte) :
    fetchDescriptor (descriptorBytes d ++ rest) = some (d, rest) := by
  have h : (descriptorBytes d).length = 16 := descriptorBytes_length d
  have ht : (descriptorBytes d ++ rest).take 16 = descriptorBytes d := by
    rw [← h, List.take_left]
  have hd : (descriptorBytes d ++ rest).drop 16 = rest := by
    rw [← h, List.drop_left]
  simp [fetchDescriptor, h, ht, hd]

/-- Fewer than 16 bytes are no descriptor. -/
theorem fetchDescriptor_eq_none_iff (bytes : List Byte) :
    fetchDescriptor bytes = none ↔ bytes.length < 16 := by
  simp [fetchDescriptor]

/-- What a fetch answers: the descriptor of the first 16 bytes and the rest. -/
theorem fetchDescriptor_eq_some {bytes rest : List Byte} {d : Descriptor}
    (h : fetchDescriptor bytes = some (d, rest)) :
    16 ≤ bytes.length ∧ d = descriptorOfBytes (bytes.take 16) ∧ rest = bytes.drop 16 := by
  unfold fetchDescriptor at h
  split at h
  · obtain ⟨rfl, rfl⟩ := Prod.mk.inj (Option.some.inj h)
    exact ⟨‹_›, rfl, rfl⟩
  · exact absurd h (by simp)

/-- A command is well formed exactly when it has no defect (R77). -/
theorem wellFormed_iff (p : Params) (i : Instr) : i.wellFormed p = true ↔ i.defect p = none := by
  simp [Instr.wellFormed]

/-- What the decoder answers when it answers a command (R77). -/
theorem decode_eq_ok {p : Params} {d : Descriptor} {i : Instr} (h : decode p d = .ok i) :
    ∃ op, opOfByte (fieldOp d) = some op ∧ fieldRsv d = 0 ∧
      (mbzFields op).all (Field.isZero d) = true ∧ i = operandsOf d op ∧ i.defect p = none := by
  unfold decode at h
  split at h
  · cases h
  · rename_i op hop
    split at h
    · cases h
    · rename_i hrsv
      split at h
      · rename_i hmbz
        split at h
        · rename_i hdef
          cases h
          exact ⟨op, hop, not_not.mp hrsv, hmbz, rfl, hdef⟩
        · cases h
      · cases h

end Sys2Proof
end

