-- ==== Sys2Proof/Laws/Hash.lean ====
section
/-! SUPPORT. Laws of the hash engine's shared steps (R173 to R176). -/

namespace Sys2Proof.Machine

open Sys2Proof

/-- The bytes of a reset engine: zero but for `out_len` at offset 184 (R173). -/
theorem byteAt_initial (h : HashCtx) {k : Nat} (hk : k < 192) :
    byteAt h.initial.HB k = if k = 184 then BitVec.ofNat 8 h.outLen else 0 := by
  simp only [HashCtx.initial]
  rw [byteAt_ofBytes _ hk]

/-- A byte that does not fill the buffer only joins the pending bytes (R175). -/
theorem updateByte_partial (ow : Bool) (h : HashCtx) (b : Byte) (hlt : h.hcur + 1 ≠ h.blockLen) :
    h.updateByte ow b = { h with hbuf := h.hbuf.set h.hcur b, hcur := h.hcur + 1 } := by
  simp [HashCtx.updateByte, hlt]

/-- The byte that fills the buffer runs the block step at once (R175). -/
theorem updateByte_full (ow : Bool) (h : HashCtx) (b : Byte) (hfull : h.hcur + 1 = h.blockLen) :
    h.updateByte ow b =
      { h with
        HB := (h.block ow ((h.hbuf.set h.hcur b).take h.blockLen)).HB
        hbuf := h.hbuf.set h.hcur b
        hcur := 0 } := by
  simp [HashCtx.updateByte, hfull, HashCtx.block]

/-- A byte never changes the fixed fields of an engine, nor its counter or its buffer's size. -/
theorem updateByte_frame (ow : Bool) (h : HashCtx) (b : Byte) :
    (h.updateByte ow b).constructed = h.constructed ∧ (h.updateByte ow b).outLen = h.outLen ∧
    (h.updateByte ow b).blockLen = h.blockLen ∧ (h.updateByte ow b).total = h.total ∧
    (h.updateByte ow b).hbuf.length = h.hbuf.length := by
  by_cases hf : h.hcur + 1 = h.blockLen
  · simp [updateByte_full ow h b hf]
  · simp [updateByte_partial ow h b hf]

@[simp] theorem finalBlock_length (h : HashCtx) : h.finalBlock.length = h.blockLen := by
  simp [HashCtx.finalBlock]

end Sys2Proof.Machine
end

