-- ==== Sys2Proof/Laws/State.lean ====
section
/-! SUPPORT. One lemma per field per update of the state, so that no later proof unfolds a record
update. -/

namespace Sys2Proof.Machine

open Sys2Proof

section Updates
variable (s : State) (i : Nat) (c : PrgCtx) (h : HashCtx) (X : List Byte) (k : Status)

@[simp] theorem withStatus_prg : (s.withStatus k).prg = s.prg := rfl
@[simp] theorem withStatus_hash : (s.withStatus k).hash = s.hash := rfl
@[simp] theorem withStatus_status : (s.withStatus k).status = k.code := rfl
@[simp] theorem withStatus_overwrite :
    (s.withStatus k).hashAbsorbOverwrite = s.hashAbsorbOverwrite := rfl
@[simp] theorem withStatus_din : (s.withStatus k).din = s.din := rfl
@[simp] theorem withStatus_dout : (s.withStatus k).dout = s.dout := rfl
@[simp] theorem withStatus_streamBroken : (s.withStatus k).streamBroken = s.streamBroken := rfl

@[simp] theorem putOut_prg : (s.putOut X).prg = s.prg := rfl
@[simp] theorem putOut_hash : (s.putOut X).hash = s.hash := rfl
@[simp] theorem putOut_status : (s.putOut X).status = s.status := rfl
@[simp] theorem putOut_overwrite :
    (s.putOut X).hashAbsorbOverwrite = s.hashAbsorbOverwrite := rfl
@[simp] theorem putOut_din : (s.putOut X).din = s.din := rfl
@[simp] theorem putOut_dout : (s.putOut X).dout = s.dout ++ X := rfl
@[simp] theorem putOut_streamBroken : (s.putOut X).streamBroken = s.streamBroken := rfl

@[simp] theorem setPrg_prg : (s.setPrg i c).prg = s.prg.set i c := rfl
@[simp] theorem setPrg_hash : (s.setPrg i c).hash = s.hash := rfl
@[simp] theorem setPrg_status : (s.setPrg i c).status = s.status := rfl
@[simp] theorem setPrg_overwrite :
    (s.setPrg i c).hashAbsorbOverwrite = s.hashAbsorbOverwrite := rfl
@[simp] theorem setPrg_din : (s.setPrg i c).din = s.din := rfl
@[simp] theorem setPrg_dout : (s.setPrg i c).dout = s.dout := rfl
@[simp] theorem setPrg_streamBroken : (s.setPrg i c).streamBroken = s.streamBroken := rfl

@[simp] theorem setHash_prg : (s.setHash i h).prg = s.prg := rfl
@[simp] theorem setHash_hash : (s.setHash i h).hash = s.hash.set i h := rfl
@[simp] theorem setHash_status : (s.setHash i h).status = s.status := rfl
@[simp] theorem setHash_overwrite :
    (s.setHash i h).hashAbsorbOverwrite = s.hashAbsorbOverwrite := rfl
@[simp] theorem setHash_din : (s.setHash i h).din = s.din := rfl
@[simp] theorem setHash_dout : (s.setHash i h).dout = s.dout := rfl
@[simp] theorem setHash_streamBroken : (s.setHash i h).streamBroken = s.streamBroken := rfl

@[simp] theorem finish_prg : (s.finish X).prg = s.prg := rfl
@[simp] theorem finish_hash : (s.finish X).hash = s.hash := rfl
@[simp] theorem finish_status : (s.finish X).status = Status.ok.code := rfl
@[simp] theorem finish_overwrite :
    (s.finish X).hashAbsorbOverwrite = s.hashAbsorbOverwrite := rfl
@[simp] theorem finish_din : (s.finish X).din = s.din := rfl
@[simp] theorem finish_dout : (s.finish X).dout = s.dout ++ X := rfl
@[simp] theorem finish_streamBroken : (s.finish X).streamBroken = s.streamBroken := rfl

@[simp] theorem raiseFault_prg : (raiseFault k s).prg = s.prg := rfl
@[simp] theorem raiseFault_hash : (raiseFault k s).hash = s.hash := rfl
@[simp] theorem raiseFault_status : (raiseFault k s).status = k.code := rfl
@[simp] theorem raiseFault_overwrite :
    (raiseFault k s).hashAbsorbOverwrite = s.hashAbsorbOverwrite := rfl
@[simp] theorem raiseFault_din : (raiseFault k s).din = s.din := rfl
@[simp] theorem raiseFault_dout : (raiseFault k s).dout = s.dout := rfl
@[simp] theorem raiseFault_streamBroken : (raiseFault k s).streamBroken = s.streamBroken := rfl

@[simp] theorem raiseInvalidCommand_prg : (raiseInvalidCommand s).prg = s.prg := rfl
@[simp] theorem raiseInvalidCommand_hash : (raiseInvalidCommand s).hash = s.hash := rfl
@[simp] theorem raiseInvalidCommand_status :
    (raiseInvalidCommand s).status = Status.invalidCommand.code := rfl
@[simp] theorem raiseInvalidCommand_overwrite :
    (raiseInvalidCommand s).hashAbsorbOverwrite = s.hashAbsorbOverwrite := rfl
@[simp] theorem raiseInvalidCommand_din : (raiseInvalidCommand s).din = s.din := rfl
@[simp] theorem raiseInvalidCommand_dout : (raiseInvalidCommand s).dout = s.dout := rfl
@[simp] theorem raiseInvalidCommand_streamBroken :
    (raiseInvalidCommand s).streamBroken = true := rfl

end Updates

section Din
variable (s : State) (bytes : List Byte)

@[simp] theorem din_prg : ({ s with din := bytes } : State).prg = s.prg := rfl
@[simp] theorem din_hash : ({ s with din := bytes } : State).hash = s.hash := rfl
@[simp] theorem din_params : ({ s with din := bytes } : State).params = s.params := rfl

end Din

/-- The codes are pairwise distinct (R201). -/
theorem Status.code_injective {k k' : Status} (h : k.code = k'.code) : k = k' := by
  cases k <;> cases k' <;> first | rfl | exact absurd h (by decide)

/-- `OK` is the only code 0. -/
theorem Status.code_eq_zero_iff (k : Status) : k.code = 0 ↔ k = .ok := by
  cases k <;> decide

end Sys2Proof.Machine
end

