-- ==== Sys2Proof/Laws/Ops.lean ====
section
/-! SUPPORT. What the shared command shapes can do, said once: the cases of `takePayload`,
`runPrg`, `runHash`, `runPure` and `step`, and how each goes when its inputs are there. -/

namespace Sys2Proof.Machine

open Sys2Proof

/-- When the payload is on DIN it is taken, first byte first (R53). -/
theorem takePayload_append (s : State) (payload rest : List Byte)
    (h : s.din = payload ++ rest) :
    takePayload payload.length s = some (payload, { s with din := rest }) := by
  simp [takePayload, h]

/-- A command without payload takes nothing from DIN. -/
@[simp] theorem takePayload_zero (s : State) : takePayload 0 s = some ([], s) := by
  simp [takePayload]

/-- All that taking a payload can do. -/
theorem takePayload_eq_some {n : Nat} {s s1 : State} {payload : List Byte}
    (h : takePayload n s = some (payload, s1)) :
    n ≤ s.din.length ∧ payload = s.din.take n ∧ s1 = { s with din := s.din.drop n } := by
  unfold takePayload at h
  split at h
  · obtain ⟨rfl, rfl⟩ := Prod.mk.inj (Option.some.inj h)
    exact ⟨‹_›, rfl, rfl⟩
  · exact absurd h (by simp)

/-- The payload is missing exactly when DIN is too short. -/
theorem takePayload_eq_none_iff (n : Nat) (s : State) :
    takePayload n s = none ↔ s.din.length < n := by
  simp [takePayload]

section Run
variable {ctx n : Nat} {s t : State}

@[simp] theorem settlePrg_error (s : State) (k : Status) :
    settlePrg ctx s (.error k) = raiseFault k s := rfl

@[simp] theorem settlePrg_ok (s : State) (r : PrgCtx × List Byte) :
    settlePrg ctx s (.ok r) = (s.setPrg ctx r.1).finish r.2 := rfl

/-- A command on an automaton context that does not exist is InvalidCommand (R77 (c)). -/
theorem runPrg_outOfRange (f : List Byte → PrgCtx → Except Status (PrgCtx × List Byte))
    (h : s.prg[ctx]? = none) : runPrg ctx n f s = .next (raiseInvalidCommand s) := by
  simp [runPrg, h]

/-- A command on an automaton context whose payload is on DIN answers a next state. -/
theorem runPrg_run (f : List Byte → PrgCtx → Except Status (PrgCtx × List Byte))
    {c : PrgCtx} {payload rest : List Byte} (hc : s.prg[ctx]? = some c)
    (hd : s.din = payload ++ rest) :
    runPrg ctx payload.length f s =
      .next (settlePrg ctx { s with din := rest } (f payload c)) := by
  simp only [runPrg, hc, takePayload_append s payload rest hd]

/-- The same for a command without payload. -/
theorem runPrg_run_zero (f : List Byte → PrgCtx → Except Status (PrgCtx × List Byte))
    {c : PrgCtx} (hc : s.prg[ctx]? = some c) :
    runPrg ctx 0 f s = .next (settlePrg ctx s (f [] c)) := by
  simp only [runPrg, hc, takePayload_zero]

/-- All that a command on an automaton context can do when it answers a next state. -/
theorem runPrg_cases {f : List Byte → PrgCtx → Except Status (PrgCtx × List Byte)}
    (h : runPrg ctx n f s = .next t) :
    (s.prg[ctx]? = none ∧ t = raiseInvalidCommand s) ∨
    ∃ c, s.prg[ctx]? = some c ∧ n ≤ s.din.length ∧
      t = settlePrg ctx { s with din := s.din.drop n } (f (s.din.take n) c) := by
  unfold runPrg at h
  split at h
  · exact .inl ⟨‹_›, by simpa using h.symm⟩
  · rename_i c hc
    split at h
    · cases h
    · rename_i r hp
      obtain ⟨payload, s1⟩ := r
      obtain ⟨hn, rfl, rfl⟩ := takePayload_eq_some hp
      exact .inr ⟨c, hc, hn, by simpa using h.symm⟩

/-- A command on an automaton context stops exactly when its payload is not on DIN. -/
theorem runPrg_eq_fault_iff (f : List Byte → PrgCtx → Except Status (PrgCtx × List Byte))
    {c : PrgCtx} (hc : s.prg[ctx]? = some c) (e : Fault) :
    runPrg ctx n f s = .fault e ↔ s.din.length < n := by
  rw [← takePayload_eq_none_iff, runPrg, hc]
  cases takePayload n s <;> cases e <;> simp

@[simp] theorem settleHash_error (s : State) (k : Status) :
    settleHash ctx s (.error k) = raiseFault k s := rfl

@[simp] theorem settleHash_ok (s : State) (r : HashCtx × List Byte) :
    settleHash ctx s (.ok r) = (s.setHash ctx r.1).finish r.2 := rfl

/-- A command on a hash context that does not exist is InvalidCommand (R77 (c)). -/
theorem runHash_outOfRange (f : List Byte → HashCtx → Except Status (HashCtx × List Byte))
    (h : s.hash[ctx]? = none) : runHash ctx n f s = .next (raiseInvalidCommand s) := by
  simp [runHash, h]

/-- A command on a hash context whose payload is on DIN answers a next state. -/
theorem runHash_run (f : List Byte → HashCtx → Except Status (HashCtx × List Byte))
    {c : HashCtx} {payload rest : List Byte} (hc : s.hash[ctx]? = some c)
    (hd : s.din = payload ++ rest) :
    runHash ctx payload.length f s =
      .next (settleHash ctx { s with din := rest } (f payload c)) := by
  simp only [runHash, hc, takePayload_append s payload rest hd]

/-- The same for a command without payload. -/
theorem runHash_run_zero (f : List Byte → HashCtx → Except Status (HashCtx × List Byte))
    {c : HashCtx} (hc : s.hash[ctx]? = some c) :
    runHash ctx 0 f s = .next (settleHash ctx s (f [] c)) := by
  simp only [runHash, hc, takePayload_zero]

/-- All that a command on a hash context can do when it answers a next state. -/
theorem runHash_cases {f : List Byte → HashCtx → Except Status (HashCtx × List Byte)}
    (h : runHash ctx n f s = .next t) :
    (s.hash[ctx]? = none ∧ t = raiseInvalidCommand s) ∨
    ∃ c, s.hash[ctx]? = some c ∧ n ≤ s.din.length ∧
      t = settleHash ctx { s with din := s.din.drop n } (f (s.din.take n) c) := by
  unfold runHash at h
  split at h
  · exact .inl ⟨‹_›, by simpa using h.symm⟩
  · rename_i c hc
    split at h
    · cases h
    · rename_i r hp
      obtain ⟨payload, s1⟩ := r
      obtain ⟨hn, rfl, rfl⟩ := takePayload_eq_some hp
      exact .inr ⟨c, hc, hn, by simpa using h.symm⟩

/-- A command on a hash context stops exactly when its payload is not on DIN. -/
theorem runHash_eq_fault_iff (f : List Byte → HashCtx → Except Status (HashCtx × List Byte))
    {c : HashCtx} (hc : s.hash[ctx]? = some c) (e : Fault) :
    runHash ctx n f s = .fault e ↔ s.din.length < n := by
  rw [← takePayload_eq_none_iff, runHash, hc]
  cases takePayload n s <;> cases e <;> simp

/-- A command on the scratch file whose payload is on DIN (R23). -/
theorem runPure_run (f : List Byte → List Byte) {payload rest : List Byte}
    (hd : s.din = payload ++ rest) :
    runPure payload.length f s =
      .next (({ s with din := rest } : State).finish (f payload)) := by
  simp only [runPure, takePayload_append s payload rest hd]

/-- All that a command on the scratch file can do when it answers a next state. -/
theorem runPure_cases {f : List Byte → List Byte} (h : runPure n f s = .next t) :
    n ≤ s.din.length ∧
      t = (({ s with din := s.din.drop n } : State).finish (f (s.din.take n))) := by
  unfold runPure at h
  split at h
  · cases h
  · rename_i r hp
    obtain ⟨payload, s1⟩ := r
    obtain ⟨hn, rfl, rfl⟩ := takePayload_eq_some hp
    exact ⟨hn, by simpa using h.symm⟩

end Run

/-- All that a step can do when it answers a next state: a decoded command ran, or the descriptor
was illegal (R207). -/
theorem step_cases {s t : State} (h : step s = .next t) :
    s.streamBroken = false ∧ ∃ d rest, fetchDescriptor s.din = some (d, rest) ∧
      ((∃ i, decode s.params d = .ok i ∧ exec i { s with din := rest } = .next t) ∨
       ((∃ r, decode s.params d = .error r) ∧
          t = raiseInvalidCommand { s with din := rest })) := by
  unfold step at h
  split at h
  · cases h
  · rename_i hb
    refine ⟨by simpa using hb, ?_⟩
    split at h
    · cases h
    · rename_i d rest hf
      refine ⟨d, rest, hf, ?_⟩
      split at h
      · rename_i i hi
        exact .inl ⟨i, hi, h⟩
      · rename_i r hr
        exact .inr ⟨⟨r, hr⟩, by simpa using h.symm⟩

end Sys2Proof.Machine
end

