-- ==== Sys2Proof/Laws/PerInstr.lean ====
section
/-! SUPPORT. Laws about every command as syntax, one lemma per constructor. The family
`EncodeFields`: an encoded command carries its opcode, and every field the table R76 does not give
it is zero. -/

namespace Sys2Proof

/-- The operation a command is. -/
def Instr.op : Instr → Op
  | .bashs _ _ _ _ => .bashs
  | .bashf _ => .bashf
  | .prgStart _ _ _ _ _ => .prgStart
  | .prgRestart _ _ _ => .prgRestart
  | .prgAbsorb _ _ => .prgAbsorb
  | .prgSqueeze _ _ => .prgSqueeze
  | .prgEncrypt _ _ => .prgEncrypt
  | .prgDecrypt _ _ => .prgDecrypt
  | .prgRatchet _ => .prgRatchet
  | .prgClone _ _ => .prgClone
  | .hashInit _ _ => .hashInit
  | .hashReset _ => .hashReset
  | .hashUpdate _ _ => .hashUpdate
  | .hashDigest _ => .hashDigest
  | .hashClone _ _ => .hashClone

end Sys2Proof

namespace Sys2Proof.Laws.EncodeFields

open Sys2Proof

/-- The encoding of `i` has `i`'s opcode, `RSV` zero and every MBZ field of its row zero (R75,
R76). -/
def Statement (i : Instr) : Prop :=
  fieldOp (encode i) = i.op.code ∧ fieldRsv (encode i) = 0 ∧
    (mbzFields i.op).all (Field.isZero (encode i)) = true

theorem bashs (m1 n1 m2 n2 : Byte) : Statement (.bashs m1 n1 m2 n2) := by
  simp [Statement, encode, Instr.op, mbzFields, Field.isZero]

theorem bashf (be : Byte) : Statement (.bashf be) := by
  simp [Statement, encode, Instr.op, mbzFields, Field.isZero]

theorem prgStart (c a k : Byte) (l : BitVec 16) (d : Byte) : Statement (.prgStart c a k l d) := by
  simp [Statement, encode, Instr.op, mbzFields, Field.isZero]

theorem prgRestart (c a k : Byte) : Statement (.prgRestart c a k) := by
  simp [Statement, encode, Instr.op, mbzFields, Field.isZero]

theorem prgAbsorb (c : Byte) (q : BitVec 64) : Statement (.prgAbsorb c q) := by
  simp [Statement, encode, Instr.op, mbzFields, Field.isZero]

theorem prgSqueeze (c : Byte) (q : BitVec 64) : Statement (.prgSqueeze c q) := by
  simp [Statement, encode, Instr.op, mbzFields, Field.isZero]

theorem prgEncrypt (c : Byte) (q : BitVec 64) : Statement (.prgEncrypt c q) := by
  simp [Statement, encode, Instr.op, mbzFields, Field.isZero]

theorem prgDecrypt (c : Byte) (q : BitVec 64) : Statement (.prgDecrypt c q) := by
  simp [Statement, encode, Instr.op, mbzFields, Field.isZero]

theorem prgRatchet (c : Byte) : Statement (.prgRatchet c) := by
  simp [Statement, encode, Instr.op, mbzFields, Field.isZero]

theorem prgClone (dst src : Byte) : Statement (.prgClone dst src) := by
  simp [Statement, encode, Instr.op, mbzFields, Field.isZero]

theorem hashInit (c : Byte) (n : BitVec 16) : Statement (.hashInit c n) := by
  simp [Statement, encode, Instr.op, mbzFields, Field.isZero]

theorem hashReset (c : Byte) : Statement (.hashReset c) := by
  simp [Statement, encode, Instr.op, mbzFields, Field.isZero]

theorem hashUpdate (c : Byte) (q : BitVec 64) : Statement (.hashUpdate c q) := by
  simp [Statement, encode, Instr.op, mbzFields, Field.isZero]

theorem hashDigest (c : Byte) : Statement (.hashDigest c) := by
  simp [Statement, encode, Instr.op, mbzFields, Field.isZero]

theorem hashClone (dst src : Byte) : Statement (.hashClone dst src) := by
  simp [Statement, encode, Instr.op, mbzFields, Field.isZero]

end Sys2Proof.Laws.EncodeFields
end

