-- ==== Sys2Proof/Laws/Prg.lean ====
section
/-! SUPPORT. Laws of the automaton's shared steps: the commit step and one turn of the chunk loop
(R132, R137). -/

namespace Sys2Proof.Machine

open Sys2Proof

/-- All that the commit step can do (R132). -/
theorem commit_cases (code : Byte) (c : PrgCtx) :
    (c.bufLen < c.pos ∧ c.commit code = .error .internalConsistency) ∨
    (c.pos ≤ c.bufLen ∧ c.commit code =
      .ok { c with S := permute (xorByte c.bufLen prgMark (xorByte c.pos code c.S)), pos := 0 }) := by
  unfold PrgCtx.commit
  by_cases h : c.bufLen < c.pos
  · exact .inl ⟨h, if_pos h⟩
  · exact .inr ⟨Nat.le_of_not_lt h, if_neg h⟩

/-- With the cursor inside the buffer the commit step succeeds (R132, R151). -/
theorem commit_ok (code : Byte) {c : PrgCtx} (h : c.pos ≤ c.bufLen) :
    c.commit code =
      .ok { c with S := permute (xorByte c.bufLen prgMark (xorByte c.pos code c.S)), pos := 0 } := by
  simp [PrgCtx.commit, Nat.not_lt.mpr h]

/-- Nothing left to do: the loop stops. -/
@[simp] theorem streamLoop_done (mv : Move) (fuel : Nat) (input : List Byte) (c : PrgCtx) :
    streamLoop mv fuel 0 input c = (c, []) := by
  cases fuel <;> simp [streamLoop]

/-- A last chunk shorter than the buffer stays resident and leaves the cursor at its length
(R137). -/
theorem streamLoop_partial (mv : Move) {fuel n : Nat} (input : List Byte) {c : PrgCtx}
    (hn : 0 < n) (hlt : n < c.bufLen) (hf : 0 < fuel) :
    streamLoop mv fuel n input c =
      ({ c with S := (mv n (input.take n) c.S).1, pos := n }, (mv n (input.take n) c.S).2) := by
  obtain ⟨fuel, rfl⟩ : ∃ f, fuel = f + 1 := ⟨fuel - 1, by omega⟩
  have hmin : min c.bufLen n = n := by omega
  have hne : n ≠ c.bufLen := by omega
  have h0 : n ≠ 0 := by omega
  simp [streamLoop, hmin, hne, h0]

/-- A chunk that fills the buffer is followed at once by the permutation, and the loop goes on with
the cursor at 0 (R137). -/
theorem streamLoop_full (mv : Move) {fuel n : Nat} (input : List Byte) {c : PrgCtx}
    (hb : 0 < c.bufLen) (hle : c.bufLen ≤ n) :
    streamLoop mv (fuel + 1) n input c =
      ((streamLoop mv fuel (n - c.bufLen) (input.drop c.bufLen)
          { c with S := permute (mv c.bufLen (input.take c.bufLen) c.S).1, pos := 0 }).1,
        (mv c.bufLen (input.take c.bufLen) c.S).2 ++
          (streamLoop mv fuel (n - c.bufLen) (input.drop c.bufLen)
            { c with S := permute (mv c.bufLen (input.take c.bufLen) c.S).1, pos := 0 }).2) := by
  have hmin : min c.bufLen n = c.bufLen := by omega
  have h0 : n ≠ 0 := by omega
  simp [streamLoop, hmin, h0]

/-- The chunk loop leaves everything but the State and the cursor. -/
theorem streamLoop_frame (mv : Move) (fuel n : Nat) (input : List Byte) (c : PrgCtx) :
    (streamLoop mv fuel n input c).1.started = c.started ∧
    (streamLoop mv fuel n input c).1.l = c.l ∧ (streamLoop mv fuel n input c).1.d = c.d ∧
    (streamLoop mv fuel n input c).1.bufLen = c.bufLen := by
  induction fuel generalizing n input c with
  | zero => simp [streamLoop]
  | succ fuel ih =>
    simp only [streamLoop]
    split
    · simp
    · split <;> simpa using ih _ _ _

end Sys2Proof.Machine
end

