-- ==== Sys2Proof/Tests/Slice0.lean ====
section
/-! SUPPORT. Tests on fixed values, and one witness for the hypotheses of each statement. Expected
values come from spec/95_test_vectors.md (its section is named), from spec/30_encoding.md R82, or,
where it says so, from spec/ref_model.py. -/

open Sys2Proof Sys2Proof.Machine Sys2Proof.Spec

namespace Sys2Proof.Tests

-- One theorem at a time: a thread for each costs more memory than the check allows.
set_option Elab.async false

/-! ## Helpers -/

/-- The `n` bytes a numeral shows, the first shown first. -/
def hex (n w : Nat) : List Byte :=
  (List.range n).map fun k => BitVec.ofNat 8 (w >>> (8 * (n - 1 - k)))

/-- The outcome is a next state of which `P` holds. -/
def nextHas (o : Host.Outcome State Fault Refusal) (P : State → Bool) : Bool :=
  match o with
  | .next t => P t
  | _ => false

theorem exists_next {o : Host.Outcome State Fault Refusal} {P : State → Bool}
    (h : nextHas o P = true) : ∃ t, o = .next t ∧ P t = true := by
  cases o with
  | next t => exact ⟨t, rfl, h⟩
  | fault f => cases h
  | refused r => cases h

/-- Automaton context `j` of a block, a reset one where there is none. -/
def prgAt (t : State) (j : Nat) : PrgCtx := t.prg.getD j PrgCtx.reset

/-- Hash context `j` of a block, a reset one where there is none. -/
def hashAt (t : State) (j : Nat) : HashCtx := t.hash.getD j HashCtx.reset

/-- The context after `prg.start c, 128, 1` unkeyed: 95 section 7, P1 step 1. -/
def unkeyed : PrgCtx :=
  { S := Sponge.zero.set 23 0x21, started := true, l := 128, d := 1, bufLen := 160, pos := 1 }

/-- The context after `prg.start c, 256, 2` with the key `00 .. 1F`: 95 sections 4.1, 6.5. -/
def keyed : PrgCtx :=
  { S := ((((((Sponge.zero.set 0 0x0605040302010008).set 1 0x0E0D0C0B0A090807).set 2
      0x161514131211100F).set 3 0x1E1D1C1B1A191817).set 4 0x1F).set 23 0x42)
    started := true, l := 256, d := 2, bufLen := 128, pos := 33 }

/-- A context no run reaches: the cursor is past the buffer. -/
def pastBuffer : PrgCtx := { unkeyed with pos := 161 }

/-- As `pastBuffer`, keyed. -/
def pastBufferKeyed : PrgCtx := { keyed with pos := 129 }

/-- A hash context after `hash.init c, n`, with the given bytes pending. -/
def hashing (n : Nat) (pending : List Byte) : HashCtx :=
  { constructed := true, outLen := n, blockLen := 192 - 2 * n
    HB := Sponge.zero.set 23 (BitVec.ofNat 64 n)
    hbuf := pending ++ List.replicate (192 - 2 * n - pending.length) 0
    hcur := pending.length, total := pending.length }

/-- A block with one used and one unused context of each kind, and bytes on DIN. -/
def block (c : PrgCtx) (h : HashCtx) (din : List Byte) : State :=
  { State.reset with prg := [c, PrgCtx.reset], hash := [h, HashCtx.reset], din := din }

/-! ## WellFormed and the decoder refuse each defect (R77) -/

theorem test_illFormed_amounts :
    (Instr.bashs 65 0 0 0).defect Params.default = some .rotationAmount ∧
    (Instr.bashs 0 65 0 0).defect Params.default = some .rotationAmount ∧
    (Instr.bashs 0 0 65 0).defect Params.default = some .rotationAmount ∧
    (Instr.bashs 0 0 0 65).defect Params.default = some .rotationAmount ∧
    (Instr.bashs 64 64 64 64).wellFormed Params.default = true := by decide

theorem test_illFormed_be :
    (Instr.bashf 2).defect Params.default = some .byteOrderFlag ∧
    (Instr.bashf 1).wellFormed Params.default = true := by decide

theorem test_illFormed_prgContext :
    [Instr.prgStart 2 0 0 128 1, .prgRestart 2 0 0, .prgAbsorb 2 0, .prgSqueeze 2 0,
      .prgEncrypt 2 0, .prgDecrypt 2 0, .prgRatchet 2, .prgClone 2 0, .prgClone 0 2].map
        (Instr.defect Params.default) =
      List.replicate 9 (some .contextOutOfRange) ∧
    (Instr.prgClone 1 1).wellFormed Params.default = true := by decide

theorem test_illFormed_hashContext :
    [Instr.hashInit 2 32, .hashReset 2, .hashUpdate 2 0, .hashDigest 2, .hashClone 2 0,
      .hashClone 0 2].map (Instr.defect Params.default) =
      List.replicate 6 (some .contextOutOfRange) ∧
    (Instr.hashDigest 1).wellFormed Params.default = true := by decide

/-- The descriptors of 95 sections 2.5, 3.9 and 6.4 that fault with InvalidCommand. -/
theorem test_decode_refuses :
    decode Params.default 0x00000000000000000000000000000000#128 = .error .unknownOpcode ∧
    decode Params.default 0x00000000000000000000000000000018#128 = .error .unknownOpcode ∧
    decode Params.default 0x00000000000000040000000000010013#128 = .error .mbzNonzero ∧
    decode Params.default 0x00000000000000000000000000000102#128 = .error .mbzNonzero ∧
    decode Params.default 0x00000000000000010001008000000010#128 = .error .mbzNonzero ∧
    decode Params.default 0x00000000000000000100000000000016#128 = .error .reservedNonzero ∧
    decode Params.default 0x00000000000000040000000000000213#128 = .error .contextOutOfRange ∧
    decode Params.default 0x00000000000000000000000000020017#128 = .error .contextOutOfRange ∧
    decode Params.default 0x00000000000000000000000000020002#128 = .error .byteOrderFlag ∧
    decode Params.default 0x00000000000000000000410000000001#128 = .error .rotationAmount ∧
    decodeBytes Params.default (List.replicate 15 0x10) = .error .truncated := by decide

/-! ## Written-out words decode: one for each constructor (R71, R76) -/

/-- 95 sections 2.5 and 3.2. -/
theorem test_decode_permutation :
    decode Params.default 0x00000000000000000000010E35080001#128 = .ok (.bashs 8 53 14 1) ∧
    decode Params.default 0x00000000000000000000000000010002#128 = .ok (.bashf 1) := by decide

/-- 95 sections 6.4 and 7, and words put together by hand from R71 and R76. -/
theorem test_decode_prg :
    decode Params.default 0x00000000000000000001008010040110#128 = .ok (.prgStart 1 4 16 128 1) ∧
    decode Params.default 0x0000000000000000000000000C040111#128 = .ok (.prgRestart 1 4 12) ∧
    decode Params.default 0x00000000000000020000000000000112#128 = .ok (.prgAbsorb 1 2) ∧
    decode Params.default 0x00000000000000200000000000000113#128 = .ok (.prgSqueeze 1 32) ∧
    decode Params.default 0x000000000000000A0000000000000014#128 = .ok (.prgEncrypt 0 10) ∧
    decode Params.default 0x800000000000000A0000000000000115#128 =
      .ok (.prgDecrypt 1 0x800000000000000A) ∧
    decode Params.default 0x00000000000000000000000000000116#128 = .ok (.prgRatchet 1) ∧
    decode Params.default 0x00000000000000000000000000010017#128 = .ok (.prgClone 0 1) := by decide

/-- 95 section 7, P4 and P6, and words put together by hand from R71 and R76. -/
theorem test_decode_hash :
    decode Params.default 0x00000000000000000000004000000020#128 = .ok (.hashInit 0 64) ∧
    decode Params.default 0x00000000000000000000000000000121#128 = .ok (.hashReset 1) ∧
    decode Params.default 0x00000000000000640000000000000022#128 = .ok (.hashUpdate 0 100) ∧
    decode Params.default 0x00000000000000000000000000000123#128 = .ok (.hashDigest 1) ∧
    decode Params.default 0x00000000000000000000000000000124#128 = .ok (.hashClone 1 0) := by decide

/-- The bytes of R72's stream order: the opcode first. -/
theorem test_encodeBytes_order :
    (encodeBytes (.prgStart 1 4 16 128 1)) = hex 16 0x10010410800001000000000000000000 := by decide

/-- The host's two entries on one word of the table: `prg.ratchet 1`, NotStarted after reset. -/
theorem test_table_word :
    decodeTableWord 128 0x116 = some (.prgRatchet 1) ∧
    nextHas (step (State.reset.withFetchWord 128 0x116)) (fun t => t.status == 5) = true := by
  decide

/-- A payload is supplied with a table word that needs one: `bashs 8, 53, 14, 1`. -/
theorem test_table_word_payload :
    nextHas (step (State.reset.withFetchWord 128 0x010E35080001))
      (fun t => t.status == 0 && t.din == [] && t.dout.length == 24) = true := by
  decide +kernel

/-! ## One step of each command -/

/-- 95 section 2.5, from its bytes on DIN. -/
theorem test_bashs :
    nextHas (step { State.reset with
        din := descriptorBytes 0x00000000000000000000010E35080001#128 ++
          hex 24 0xEFCDAB89674523011032547698BADCFE78695A4B3C2D1E0F })
      (fun t => t.dout == hex 24 0x204F5A43B81F0EDF5CFE0A38C43392F57827E409ADB275D8 &&
        t.status == 0) = true := by decide +kernel

/-- 95 section 2.5: an amount of 65 is InvalidCommand and puts out nothing. -/
theorem test_bashs_amount_65 :
    nextHas (step { State.reset with
        din := descriptorBytes 0x00000000000000000000410000000001#128 })
      (fun t => t.status == 6 && t.dout == [] && t.streamBroken) = true := by decide +kernel

/-- 95 section 3.1: the first and last 8 bytes. -/
theorem test_bashf_zero :
    nextHas (exec (.bashf 0) { State.reset with din := List.replicate 192 0 })
      (fun t => t.dout.take 8 == hex 8 0xFCC7718C6F6FB137 &&
        t.dout.drop 184 == hex 8 0x1544E83CEBA3DD25 && t.status == 0) = true := by decide +kernel

/-- 95 section 3.4: the first and last 8 bytes, bytes `00 .. BF` in, `be = 1`. -/
theorem test_bashf_be :
    nextHas (exec (.bashf 1) { State.reset with din := (List.range 192).map (BitVec.ofNat 8) })
      (fun t => t.dout.take 8 == hex 8 0x3FF805120B2D2E1D &&
        t.dout.drop 184 == hex 8 0x3413E0E8525B1D70 && t.status == 0) = true := by decide +kernel

/-- 95 section 7, P2 step 1: the fields, and the State's first 24 bytes and byte 184. -/
theorem test_prgStart :
    nextHas (exec (.prgStart 0 4 16 128 1)
        (block pastBuffer HashCtx.reset (hex 20 0xA1A2A3A4000102030405060708090A0B0C0D0E0F)))
      (fun t =>
        let c := prgAt t 0
        c.started && c.l == 128 && c.d == 1 && c.bufLen == 168 && c.pos == 21 &&
          memRead c.S 0 24 == hex 24 0x14A1A2A3A4000102030405060708090A0B0C0D0E0F000000 &&
          memRead c.S 184 8 == hex 8 0x2100000000000000 && t.din == [] && t.status == 0) = true := by
  decide +kernel

/-- 95 section 6.4: `l = 100` is InvalidParameter, and the context stays. -/
theorem test_prgStart_l_100 :
    nextHas (exec (.prgStart 0 0 0 100 1) (block unkeyed HashCtx.reset []))
      (fun t => t == { block unkeyed HashCtx.reset [] with status := 1 }) = true := by decide +kernel

/-- 95 section 4.5 (a): unkeyed to keyed at `l = 256`, `d = 2`. -/
theorem test_prgRestart :
    nextHas (exec (.prgRestart 0 0 32)
        (block { unkeyed with S := Sponge.zero.set 23 0x42, l := 256, d := 2, bufLen := 64 }
          HashCtx.reset
          (hex 32 0x101112131415161718191A1B1C1D1E1F202122232425262728292A2B2C2D2E2F)))
      (fun t =>
        let c := prgAt t 0
        c.bufLen == 128 && c.pos == 33 && c.keyed && memRead c.S 0 8 == hex 8 0xC5826B252485CAC7 &&
          memRead c.S 32 8 == hex 8 0x3A81A031924463DF && t.status == 0) = true := by
  decide +kernel

/-- 95 section 6.4: NotStarted comes before InvalidParameter. -/
theorem test_prgRestart_order :
    nextHas (exec (.prgRestart 1 3 0) (block unkeyed HashCtx.reset [1, 2, 3]))
      (fun t => t.status == 5 && t.din == []) = true := by decide

/-- 95 section 7, P3 step 2: the first and last 8 bytes, the cursor. -/
theorem test_prgAbsorb :
    nextHas (exec (.prgAbsorb 0 3) (block unkeyed HashCtx.reset [1, 2, 3]))
      (fun t =>
        let c := prgAt t 0
        memRead c.S 0 8 == hex 8 0x7BBB04DF55555BA5 && memRead c.S 184 8 == hex 8 0x1DFFF45AFB3B02F4 &&
          c.pos == 3 && c.bufLen == 160 && t.status == 0) = true := by decide +kernel

/-- 95 section 7, P5 step 1: the payload of a faulting command is dropped. -/
theorem test_prgAbsorb_notStarted :
    nextHas (exec (.prgAbsorb 1 2) (block unkeyed HashCtx.reset [0xAA, 0xBB, 0x16]))
      (fun t => t == { block unkeyed HashCtx.reset [0x16] with status := 5 }) = true := by decide +kernel

/-- 95 section 7, P5 step 7. -/
theorem test_prgSqueeze :
    nextHas (exec (.prgSqueeze 0 4) (block unkeyed HashCtx.reset []))
      (fun t => t.dout == hex 4 0x2E437730 && (prgAt t 0).pos == 4 &&
        memRead (prgAt t 0).S 0 8 == hex 8 0x2E4377304BFFFE02 && t.status == 0) = true := by
  decide +kernel

/-- 95 section 6.5, `n = 1`. -/
theorem test_prgEncrypt :
    nextHas (exec (.prgEncrypt 0 1) (block keyed HashCtx.reset [0]))
      (fun t => t.dout == [0x0F] && (prgAt t 0).pos == 1 && t.status == 0) = true := by
  decide +kernel

/-- 95 section 6.4: ModeError for any length, 0 included. -/
theorem test_prgEncrypt_modeError :
    nextHas (exec (.prgEncrypt 0 0) (block unkeyed HashCtx.reset []))
      (fun t => t == { block unkeyed HashCtx.reset [] with status := 2 }) = true := by decide +kernel

/-- 95 section 6.5, `n = 1`, the other way: the ciphertext stays in the buffer. -/
theorem test_prgDecrypt :
    nextHas (exec (.prgDecrypt 0 1) (block keyed HashCtx.reset [0x0E]))
      (fun t => t.dout == [0x01] && (prgAt t 0).pos == 1 && byteAt (prgAt t 0).S 0 == 0x0E &&
        t.status == 0) = true := by decide +kernel

/-- spec/ref_model.py: start 128, 1 unkeyed, then ratchet. -/
theorem test_prgRatchet :
    nextHas (exec (.prgRatchet 0) (block unkeyed HashCtx.reset []))
      (fun t => memRead (prgAt t 0).S 0 8 == hex 8 0xDFEA1122736D5E7D &&
        memRead (prgAt t 0).S 184 8 == hex 8 0x53ABF44372BB3BFC && (prgAt t 0).pos == 0 &&
        t.status == 0) = true := by decide +kernel

/-- R150: the destination is in `CTX`, the source in `P0`. -/
theorem test_prgClone :
    nextHas (exec (.prgClone 1 0) (block unkeyed HashCtx.reset []))
      (fun t => t.prg == [unkeyed, unkeyed] && t.status == 0) = true := by decide +kernel

/-- R150: a clone of an Unstarted context makes the destination Unstarted. -/
theorem test_prgClone_unstarted :
    nextHas (exec (.prgClone 0 1) (block unkeyed HashCtx.reset []))
      (fun t => !(prgAt t 0).started && t.status == 0) = true := by decide +kernel

/-- 95 section 7, P4 step 1. -/
theorem test_hashInit :
    nextHas (exec (.hashInit 0 32) (block unkeyed HashCtx.reset []))
      (fun t => hashAt t 0 == hashing 32 [] && t.status == 0) = true := by decide +kernel

/-- 95 section 5.8. -/
theorem test_hashInit_33 :
    nextHas (exec (.hashInit 0 33) (block unkeyed (hashing 64 [1]) []))
      (fun t => t == { block unkeyed (hashing 64 [1]) [] with status := 1 }) = true := by decide +kernel

/-- 95 section 7, P4 step 8. -/
theorem test_hashReset :
    nextHas (exec (.hashReset 0) (block unkeyed (hashing 32 [0x61, 0x62, 0x63, 0x58]) []))
      (fun t => hashAt t 0 == hashing 32 [] && t.status == 0) = true := by decide +kernel

/-- 95 section 7, P4 step 4: nothing runs before the block is full. -/
theorem test_hashUpdate :
    nextHas (exec (.hashUpdate 0 1) (block unkeyed (hashing 32 [0x61, 0x62, 0x63]) [0x58]))
      (fun t => hashAt t 0 == hashing 32 [0x61, 0x62, 0x63, 0x58] && t.din == []) = true := by
  decide +kernel

/-- spec/ref_model.py, the message `00 01 ..` of 95 section 5.5 at `n = 64`: the 64th byte runs the
block step at once, and the cursor is 0. -/
theorem test_hashUpdate_full :
    nextHas (exec (.hashUpdate 0 1)
        (block unkeyed (hashing 64 ((List.range 63).map (BitVec.ofNat 8))) [63]))
      (fun t => (hashAt t 0).hcur == 0 && (hashAt t 0).total == 64 &&
        memRead (hashAt t 0).HB 0 8 == hex 8 0xE007559830FBFB54) = true := by decide +kernel

/-- D0's own vector, 95 sections 1.1 and 5.2: the digest of the empty message. -/
theorem test_hashDigest :
    nextHas (exec (.hashDigest 0) (block unkeyed (hashing 32 []) []))
      (fun t => t.dout ==
          hex 32 0x114C3DFAE373D9BCBC3602D6386F2D6A2059BA1BF9048DBAA5146A6CB775709D &&
        t.hash == [hashing 32 [], HashCtx.reset] && t.status == 0) = true := by decide +kernel

/-- 95 section 7, P4 step 3. -/
theorem test_hashClone :
    nextHas (exec (.hashClone 1 0) (block unkeyed (hashing 32 [0x61]) []))
      (fun t => t.hash == [hashing 32 [0x61], hashing 32 [0x61]] && t.status == 0) = true := by
  decide +kernel

/-! ## The host-side composites (spec/44_composite.md R192, R193) -/

/-- The result of a host-side sequence, its code or its bytes, and the `STATUS` it leaves. -/
def ended (o : Host.Outcome HostResult Fault Refusal) : Option (Except Byte (List Byte) × Byte) :=
  match o with
  | .next (t, r) => some (r, t.status)
  | _ => none

/-- `aead.dec` as in 95 section 7, P2, on the given ciphertext and tag. -/
def decP2 (ctTag : Nat) : Option (Except Byte (List Byte) × Byte) :=
  ended (aeadDec 1 128 1 (hex 4 0xA1A2A3A4) (hex 26 ctTag) (hex 5 0x0102030405)
    (hex 16 0x000102030405060708090A0B0C0D0E0F) State.reset)

/-- R192 and 95 section 7, P2: the untouched string gives the plaintext back. -/
theorem test_aeadDec :
    decP2 0x48B7F74DF953A38601FCCCC93FF5E458171DA4DB811D54E2EA30 =
      some (.ok (hex 10 0x00112233445566778899), 0) := by decide +kernel

/-- R193's ciphertext-bit case, 95 section 7, variant of P2 (`48` to `49`): AuthenticationError, and
every `STATUS` is 0. -/
theorem test_aeadDec_ciphertext_bit_first :
    decP2 0x49B7F74DF953A38601FCCCC93FF5E458171DA4DB811D54E2EA30 = some (.error 3, 0) := by
  decide +kernel

/-- R193's ciphertext-bit case at the last bit of the ciphertext (`FC` to `7C`). -/
theorem test_aeadDec_ciphertext_bit_last :
    decP2 0x48B7F74DF953A386017CCCC93FF5E458171DA4DB811D54E2EA30 = some (.error 3, 0) := by
  decide +kernel

/-! ## Witnesses: for each statement with hypotheses, values that meet all of them

One for each clause, at a boundary of its range where it has one. -/

/-- Every form of operand check at its last legal value. -/
theorem witness_DecodeEncodeRoundTrip :
    (Instr.bashs 64 64 64 64).wellFormed Params.default = true ∧
    (Instr.bashf 1).wellFormed Params.default = true ∧
    (Instr.prgStart 1 255 255 0xFFFF 255).wellFormed Params.default = true ∧
    (Instr.prgClone 1 1).wellFormed Params.default = true ∧
    (Instr.hashUpdate 1 0xFFFFFFFFFFFFFFFF).wellFormed Params.default = true := by decide

theorem witness_LegalDescriptorIsItsCommandsEncoding :
    decode Params.default 0x00000000000000000000404040400001#128 = .ok (.bashs 64 64 64 64) := by
  decide

theorem illegal_of_all {p : Params} {ds : List Descriptor}
    (h : ds.all (fun d => decide (illegal p d)) = true) : ∀ d ∈ ds, illegal p d :=
  fun d hd => of_decide_eq_true (List.all_eq_true.mp h d hd)

/-- A descriptor of each kind R77 names, each at the first value past its range. -/
theorem witness_illegal :
    ∀ d ∈ [0x18#128, 0x0100000000000016#128, 0x102#128, 0x10013#128, 0x1000022#128,
        0x100000012#128, 0x1000000000020#128, 0x00000000000000010001008000000010#128] ++
        [0x213#128, 0x20017#128, 0x223#128, 0x20024#128, 0x20002#128, 0x410001#128,
          0x41000001#128, 0x4100000001#128, 0x410000000001#128],
      illegal Params.default d := illegal_of_all (by decide +kernel)

/-- A legal descriptor with every operand at the end of its range. -/
theorem witness_legal : ¬illegal Params.default 0x404040400001#128 := by decide +kernel

theorem witness_StepRunsTheDecodedCommand :
    (block keyed HashCtx.reset (descriptorBytes 0x16#128)).streamBroken = false ∧
    (block keyed HashCtx.reset (descriptorBytes 0x16#128)).din = descriptorBytes 0x16#128 ++ [] ∧
    decode (block keyed HashCtx.reset (descriptorBytes 0x16#128)).params 0x16#128 =
      .ok (.prgRatchet 0) := by decide +kernel

theorem witness_IllegalDescriptorIsInvalidCommand :
    (block keyed HashCtx.reset (descriptorBytes 0x18#128 ++ [1])).streamBroken = false ∧
    illegal (block keyed HashCtx.reset (descriptorBytes 0x18#128 ++ [1])).params 0x18#128 ∧
    ∃ t, step (block keyed HashCtx.reset (descriptorBytes 0x18#128 ++ [1])) = .next t ∧
      (t.status == 6) = true := by
  exact ⟨by decide, by decide +kernel, exists_next (by decide +kernel)⟩

theorem witness_StreamAfterInvalidCommandIsRefused :
    ∃ t, step (block keyed HashCtx.reset (descriptorBytes 0x18#128)) = .next t ∧
      (t.status == 6) = true := exists_next (by decide +kernel)

/-- The three stops: an idle block, a broken stream, a payload not delivered whole. -/
theorem witness_StepStopsOnlyWithoutAWholeCommand :
    step State.reset = .refused .noCommand ∧
    step { State.reset with streamBroken := true } = .refused .streamBroken ∧
    step { State.reset with din := descriptorBytes 0x00000000000000020000000000000012#128 ++ [1] } =
      .fault .dinUnderrun := ⟨rfl, rfl, rfl⟩

theorem witness_EveryCommandEnds :
    (Instr.bashs 64 0 64 0).wellFormed State.reset.params = true ∧
    payloadLen (.bashs 64 0 64 0) ≤ { State.reset with din := List.replicate 24 0 }.din.length := by
  decide

/-- R8 and 95 section 2.4: the amounts 0, 63, 64. -/
theorem witness_RotationMovesEveryBit :
    64 ≤ 64 ∧ rotl64 1 64 = 1 ∧ rotl64 1 0 = 1 ∧ rotl64 1 63 = 0x8000000000000000 ∧
    rotl64 0x8000000000000001 1 = 3 := by decide

theorem witness_ByteWriteSeenByWordRead :
    191 < 192 ∧ (memWrite 191 [0x5A] Sponge.zero).getD 23 0 = 0x5A00000000000000 ∧
    (memWrite 8 [0x5A] Sponge.zero).getD 1 0 = 0x5A := by decide +kernel

/-- Both clauses: amounts at 64 and one at 65, the words 1, 2, 3 on DIN. -/
theorem witness_BashsResult :
    { State.reset with din := hex 24 0x010000000000000002000000000000000300000000000000 }.din =
      le64bytes 1 ++ le64bytes 2 ++ le64bytes 3 ++ [] ∧
    (64 : Byte).toNat ≤ 64 ∧ 64 < (65 : Byte).toNat := by decide +kernel

theorem witness_RoundWordByWord : 23 < 24 ∧ (List.finRange 8).reverse.Perm (List.finRange 8) :=
  ⟨by decide, by decide⟩

/-- Both clauses: `be` at 1 and at 2. -/
theorem witness_BashfResult :
    (List.replicate 192 (0 : Byte)).length = 192 ∧ (1 : Byte).toNat ≤ 1 ∧ 1 < (2 : Byte).toNat := by
  decide +kernel

theorem witness_BigEndianViewWithFlagIsPlainPermutation :
    (List.replicate 192 (0 : Byte)).length = 192 := by decide +kernel

/-- The operands that pass: the longest ones, and the shortest key of each level. -/
theorem witness_PrgStartResult :
    (0 : Byte).toNat < (block unkeyed HashCtx.reset (List.replicate 120 7)).prg.length ∧
    (List.replicate 60 (7 : Byte)).length = (60 : Byte).toNat ∧
    (block unkeyed HashCtx.reset (List.replicate 120 7)).din =
      List.replicate 60 7 ++ List.replicate 60 7 ++ [] ∧
    goodLevel (256 : BitVec 16).toNat (2 : Byte).toNat ∧
    goodLengths (256 : BitVec 16).toNat (60 : Byte).toNat (60 : Byte).toNat ∧
    goodLevel 128 1 ∧ goodLengths 256 0 32 ∧ goodLengths 192 0 24 ∧ goodLengths 128 0 16 ∧
    goodLengths 128 0 0 := by decide +kernel

/-- The first values that fail: those of 95 section 6.4, and lengths that are no multiple of 4. -/
theorem witness_PrgStartResult_fault :
    (¬goodLevel 100 1 ∧ ¬goodLevel 128 0 ∧ ¬goodLevel 128 3) ∧
    (¬goodLengths 128 3 0 ∧ ¬goodLengths 128 64 0 ∧ ¬goodLengths 128 0 12) ∧
    ¬goodLengths 256 0 28 ∧ ¬goodLengths 128 0 64 ∧ ¬goodLengths 128 0 18 := by decide +kernel

/-- The three clauses: an Unstarted context, a key below `l/8`, and operands that pass. -/
theorem witness_PrgRestartResult :
    (block unkeyed HashCtx.reset (List.replicate 76 7)).prg[(0 : Byte).toNat]? = some unkeyed ∧
    (block unkeyed HashCtx.reset (List.replicate 76 7)).prg[(1 : Byte).toNat]? =
      some PrgCtx.reset ∧
    (List.replicate 60 (7 : Byte)).length = (60 : Byte).toNat ∧
    (List.replicate 16 (7 : Byte)).length = (16 : Byte).toNat ∧
    (block unkeyed HashCtx.reset (List.replicate 76 7)).din =
      List.replicate 60 7 ++ List.replicate 16 7 ++ [] ∧
    PrgCtx.reset.started = false ∧ unkeyed.started = true ∧ unkeyed.Inv ∧ keyed.Inv ∧
    goodLengths unkeyed.l (60 : Byte).toNat (16 : Byte).toNat ∧ ¬goodLengths unkeyed.l 0 12 ∧
    goodLengths unkeyed.l 0 0 := by decide +kernel

/-- A data string of one full chunk and a last byte, at the buffer length 160 of `unkeyed`; and an
Unstarted context beside it. -/
theorem witness_PrgAbsorbResult :
    (block unkeyed HashCtx.reset (List.replicate 161 7)).prg[(0 : Byte).toNat]? = some unkeyed ∧
    (List.replicate 161 (7 : Byte)).length = (161#64).toNat ∧
    (block unkeyed HashCtx.reset (List.replicate 161 7)).din = List.replicate 161 7 ++ [] ∧
    unkeyed.started = true ∧ unkeyed.Inv ∧
    List.replicate 161 (7 : Byte) = [List.replicate 160 7].flatten ++ [7] ∧
    (∀ x ∈ [List.replicate 160 (7 : Byte)], x.length = unkeyed.bufLen) ∧
    [(7 : Byte)].length < unkeyed.bufLen ∧
    (block unkeyed HashCtx.reset []).prg[(1 : Byte).toNat]? = some PrgCtx.reset ∧
    PrgCtx.reset.started = false := by decide +kernel

/-- Counts of two full chunks and of one chunk with all but one byte of the next. -/
theorem witness_PrgSqueezeResult :
    (block unkeyed HashCtx.reset []).prg[(0 : Byte).toNat]? = some unkeyed ∧
    unkeyed.started = true ∧ unkeyed.Inv ∧ (320#64).toNat = 2 * unkeyed.bufLen + 0 ∧
    0 < unkeyed.bufLen ∧ (319#64).toNat = 1 * unkeyed.bufLen + 159 ∧ 159 < unkeyed.bufLen ∧
    (block unkeyed HashCtx.reset []).prg[(1 : Byte).toNat]? = some PrgCtx.reset ∧
    PrgCtx.reset.started = false := by decide +kernel

/-- The three clauses: keyed with 255 bytes at the buffer length 128, unkeyed, Unstarted. -/
theorem witness_PrgEncryptResult :
    (block keyed HashCtx.reset (List.replicate 255 7)).prg[(0 : Byte).toNat]? = some keyed ∧
    (List.replicate 255 (7 : Byte)).length = (255#64).toNat ∧
    (block keyed HashCtx.reset (List.replicate 255 7)).din = List.replicate 255 7 ++ [] ∧
    keyed.started = true ∧ keyed.Inv ∧ 16 * (192 - keyed.bufLen) = keyed.l * (2 + keyed.d) ∧
    List.replicate 255 (7 : Byte) = [List.replicate 128 7].flatten ++ List.replicate 127 7 ∧
    (∀ x ∈ [List.replicate 128 (7 : Byte)], x.length = keyed.bufLen) ∧
    (List.replicate 127 (7 : Byte)).length < keyed.bufLen ∧
    unkeyed.started = true ∧ 16 * (192 - unkeyed.bufLen) ≠ unkeyed.l * (2 + unkeyed.d) ∧
    PrgCtx.reset.started = false := by decide +kernel

/-- As for PRG.ENCRYPT, with data of one full chunk and nothing after it. -/
theorem witness_PrgDecryptResult :
    (block keyed HashCtx.reset (List.replicate 128 7)).prg[(0 : Byte).toNat]? = some keyed ∧
    (List.replicate 128 (7 : Byte)).length = (128#64).toNat ∧
    (block keyed HashCtx.reset (List.replicate 128 7)).din = List.replicate 128 7 ++ [] ∧
    keyed.started = true ∧ keyed.Inv ∧ 16 * (192 - keyed.bufLen) = keyed.l * (2 + keyed.d) ∧
    List.replicate 128 (7 : Byte) = [List.replicate 128 7].flatten ++ [] ∧
    (∀ x ∈ [List.replicate 128 (7 : Byte)], x.length = keyed.bufLen) ∧
    ([] : List Byte).length < keyed.bufLen ∧
    unkeyed.started = true ∧ 16 * (192 - unkeyed.bufLen) ≠ unkeyed.l * (2 + unkeyed.d) ∧
    PrgCtx.reset.started = false := by decide +kernel

theorem witness_PrgRatchetResult :
    (block keyed HashCtx.reset []).prg[(0 : Byte).toNat]? = some keyed ∧ keyed.started = true ∧
    keyed.Inv ∧ (block keyed HashCtx.reset []).prg[(1 : Byte).toNat]? = some PrgCtx.reset ∧
    PrgCtx.reset.started = false := by decide +kernel

/-- Both clauses: indices at 1 and at 2. -/
theorem witness_PrgCloneResult :
    (block keyed HashCtx.reset []).prg[(0 : Byte).toNat]? = some keyed ∧
    (1 : Byte).toNat < (block keyed HashCtx.reset []).prg.length ∧
    (block keyed HashCtx.reset []).prg.length ≤ (2 : Byte).toNat := by decide +kernel

/-- The keyed and the unkeyed buffer length of a level (95 section 4.1). -/
theorem witness_KeyedTestReadsTheMode :
    goodLevel keyed.l keyed.d ∧ keyed.bufLen = 192 - keyed.l * (2 + keyed.d) / 16 ∧
    goodLevel unkeyed.l unkeyed.d ∧ unkeyed.bufLen = 192 - unkeyed.d * unkeyed.l / 4 := by
  decide +kernel

/-- A command on context 0 seen from both contexts. -/
theorem witness_OnlyStartAndCloneSetLevel :
    (∃ t, exec (.prgAbsorb 0 0) (block unkeyed HashCtx.reset []) = .next t ∧
      (t.prg[0]?.isSome && t.prg[1]?.isSome) = true) ∧
    startsOrClonesOnto 0 (.prgAbsorb 0 0) = false ∧ startsOrClonesOnto 1 (.prgStart 0 0 0 128 1) = false :=
  ⟨exists_next (by decide +kernel), rfl, rfl⟩

theorem witness_ModeChangesOnlyByKeyedRestart :
    (∃ t, exec (.prgRestart 0 0 12) (block unkeyed HashCtx.reset (List.replicate 12 0)) = .next t ∧
      (t.status == 1 && t.prg == [unkeyed, PrgCtx.reset]) = true) ∧
    unkeyed.started = true ∧ unkeyed.Inv ∧ startsOrClonesOnto 0 (.prgRestart 0 0 12) = false :=
  ⟨exists_next (by decide +kernel), by decide +kernel⟩

theorem witness_EncryptDecryptConverge :
    (0 : Byte) ≠ 1 ∧
    { block keyed HashCtx.reset [7] with prg := [keyed, keyed] }.prg[(0 : Byte).toNat]? =
      some keyed ∧
    { block keyed HashCtx.reset [7] with prg := [keyed, keyed] }.prg[(1 : Byte).toNat]? =
      some keyed ∧
    keyed.started = true ∧ keyed.keyed = true ∧ keyed.Inv ∧
    ([7] : List Byte).length = (1#64).toNat ∧
    { block keyed HashCtx.reset [7] with prg := [keyed, keyed] }.din = [7] ++ [] := by decide +kernel

/-- Both clauses: each legal length, and values beside them. -/
theorem witness_HashInitResult :
    (1 : Byte).toNat < (block unkeyed HashCtx.reset []).hash.length ∧
    ((32 : BitVec 16).toNat = 32 ∧ (48 : BitVec 16).toNat = 48 ∧ (64 : BitVec 16).toNat = 64) ∧
    (∀ n ∈ [0, 16, 33, 65535], (BitVec.ofNat 16 n).toNat ≠ 32 ∧ (BitVec.ofNat 16 n).toNat ≠ 48 ∧
      (BitVec.ofNat 16 n).toNat ≠ 64) := by decide +kernel

theorem witness_HashResetResult :
    (block unkeyed (hashing 32 [1]) []).hash[(0 : Byte).toNat]? = some (hashing 32 [1]) ∧
    (hashing 32 [1]).constructed = true ∧
    (block unkeyed (hashing 32 [1]) []).hash[(1 : Byte).toNat]? = some HashCtx.reset ∧
    HashCtx.reset.constructed = false := by decide +kernel

/-- 63 pending bytes and 65 more: two full blocks of 64 and no rest. -/
theorem witness_HashUpdateResult :
    (block unkeyed (hashing 64 (List.replicate 63 7)) (List.replicate 65 7)).hash[(0 : Byte).toNat]? =
      some (hashing 64 (List.replicate 63 7)) ∧
    (List.replicate 65 (7 : Byte)).length = (65#64).toNat ∧
    (block unkeyed (hashing 64 (List.replicate 63 7)) (List.replicate 65 7)).din =
      List.replicate 65 7 ++ [] ∧
    HashCtx.reset.constructed = false ∧
    (hashing 64 (List.replicate 63 7)).constructed = true ∧
    (hashing 64 (List.replicate 63 7)).Inv ∧
    (hashing 64 (List.replicate 63 7)).hbuf.take (hashing 64 (List.replicate 63 7)).hcur ++
      List.replicate 65 7 = [List.replicate 64 7, List.replicate 64 7].flatten ++ [] ∧
    (∀ x ∈ [List.replicate 64 (7 : Byte), List.replicate 64 7],
      x.length = (hashing 64 (List.replicate 63 7)).blockLen) ∧
    ([] : List Byte).length < (hashing 64 (List.replicate 63 7)).blockLen := by decide +kernel

theorem witness_HashDigestResult :
    (block unkeyed (hashing 48 (List.replicate 95 7)) []).hash[(0 : Byte).toNat]? =
      some (hashing 48 (List.replicate 95 7)) ∧
    (hashing 48 (List.replicate 95 7)).constructed = true ∧
    (hashing 48 (List.replicate 95 7)).Inv ∧ HashCtx.reset.constructed = false := by decide +kernel

/-- Both clauses: indices at 1 and at 2. -/
theorem witness_HashCloneResult :
    (block unkeyed (hashing 32 []) []).hash[(0 : Byte).toNat]? = some (hashing 32 []) ∧
    (1 : Byte).toNat < (block unkeyed (hashing 32 []) []).hash.length ∧
    (block unkeyed (hashing 32 []) []).hash.length ≤ (2 : Byte).toNat := by decide +kernel

theorem witness_UpdateSplitsFreely :
    (1 : Byte).toNat < State.reset.hash.length ∧ ([1] : List Byte).length = (1#64).toNat ∧
    ([2, 3] : List Byte).length = (2#64).toNat ∧ (3#64).toNat = (1#64).toNat + (2#64).toNat ∧
    { State.reset with din := [1, 2, 3] }.din = [1] ++ [2, 3] ++ [] := by decide

theorem witness_OverwriteAgreesBelowOneBlock :
    (List.replicate 127 (7 : Byte)).length < 192 - 2 * 32 ∧
    (List.replicate 63 (7 : Byte)).length < 192 - 2 * 64 := by decide +kernel

/-- The message `616263` in two pieces, padded to one block. -/
theorem witness_DigestIsAFunctionOfTheMessage :
    State.reset.streamBroken = false ∧ (1 : Byte).toNat < State.reset.hash.length ∧
    (32 : BitVec 16).toNat = 32 ∧
    (∀ x ∈ [[0x61], [0x62, (0x63 : Byte)]], x.length < 2 ^ 64) ∧ 124 < 192 - 2 * 32 ∧
    [[0x61], [0x62, (0x63 : Byte)]].flatten ++ [0x40] ++ List.replicate 124 0 =
      [[0x61, 0x62, 0x63, 0x40] ++ List.replicate 124 (0 : Byte)].flatten ∧
    (∀ x ∈ [[0x61, 0x62, 0x63, 0x40] ++ List.replicate 124 (0 : Byte)], x.length = 192 - 2 * 32) := by
  decide +kernel

/-- A next state with each code the block can leave in `STATUS`, and one with the code 4 of a state
no run reaches: the hypothesis of the statements about codes, in both directions. -/
theorem witness_codes :
    (∃ t, exec (.prgClone 1 0) (block unkeyed HashCtx.reset []) = .next t ∧ (t.status == 0) = true) ∧
    (∃ t, exec (.prgRestart 0 3 0) (block unkeyed HashCtx.reset [1, 2, 3]) = .next t ∧
      (t.status == 1) = true) ∧
    (∃ t, exec (.prgDecrypt 0 1) (block unkeyed HashCtx.reset [1]) = .next t ∧
      (t.status == 2) = true) ∧
    (∃ t, exec (.prgRatchet 0) (block pastBuffer HashCtx.reset []) = .next t ∧
      (t.status == 4) = true) ∧
    (∃ t, exec (.prgEncrypt 0 1) (block pastBufferKeyed HashCtx.reset [1]) = .next t ∧
      (t.status == 4 && t.dout == [] && t.prg == [pastBufferKeyed, PrgCtx.reset]) = true) ∧
    (∃ t, exec (.hashDigest 1) (block unkeyed HashCtx.reset []) = .next t ∧ (t.status == 5) = true) ∧
    (∃ t, exec (.prgClone 0 2) (block unkeyed HashCtx.reset []) = .next t ∧
      (t.status == 6) = true) :=
  ⟨exists_next (by decide +kernel), exists_next (by decide +kernel), exists_next (by decide +kernel),
    exists_next (by decide +kernel), exists_next (by decide +kernel),
    exists_next (by decide +kernel), exists_next (by decide +kernel)⟩

/-- The causes, met and not met, one for each command class. -/
theorem witness_NotStartedExactlyOnUnstartedContext :
    namesUnstarted State.reset (.prgRatchet 1) ∧ namesUnstarted State.reset (.hashDigest 1) ∧
    ¬namesUnstarted State.reset (.prgClone 0 1) :=
  ⟨⟨_, rfl, rfl⟩, ⟨_, rfl, rfl⟩, id⟩

theorem witness_InvalidParameterExactlyOnListedCauses :
    badParameter State.reset (.prgStart 1 0 0 129 1) ∧
    badParameter (block unkeyed HashCtx.reset []) (.prgRestart 0 64 0) ∧
    badParameter State.reset (.hashInit 1 33) ∧
    ([] : List Byte).length < (128 : BitVec 16).toNat / 8 ∧
    (List.replicate 15 (0 : Byte)).length < (128 : BitVec 16).toNat / 8 :=
  ⟨⟨by decide, .inl (by decide)⟩, ⟨unkeyed, rfl, rfl, .inr (.inl (by decide))⟩,
    ⟨by decide, by decide, by decide, by decide⟩, by decide, by decide⟩

theorem witness_ModeErrorExactlyOnUnkeyedContext :
    unkeyedCrypt (block unkeyed HashCtx.reset []) (.prgEncrypt 0 0) ∧
    unkeyedCrypt (block unkeyed HashCtx.reset []) (.prgDecrypt 0 1) :=
  ⟨⟨unkeyed, rfl, rfl, by decide⟩, ⟨unkeyed, rfl, rfl, by decide⟩⟩

theorem witness_InternalConsistencyExactlyPastBuffer :
    commitsPastBuffer (block pastBuffer HashCtx.reset []) (.prgSqueeze 0 0) ∧
    commitsPastBuffer (block pastBufferKeyed HashCtx.reset []) (.prgDecrypt 0 0) :=
  ⟨⟨pastBuffer, rfl, rfl, by decide⟩, ⟨pastBufferKeyed, rfl, rfl, by decide, by decide⟩⟩

theorem witness_FaultChangesNothing :
    ∃ t, exec (.prgStart 0 0 4 128 1) (block unkeyed HashCtx.reset [1, 2, 3, 4, 5]) = .next t ∧
      (t.status != 0 && t.status != 6 && t.din == [5]) = true := exists_next (by decide +kernel)

/-- A state that meets the invariant, a well-formed command that ends with OK, and one that faults. -/
theorem witness_PayloadAndOutputLengths :
    (block keyed (hashing 32 [1]) [2, 3]).Inv ∧
    (Instr.hashUpdate 0 1).wellFormed (block keyed (hashing 32 [1]) [2, 3]).params = true ∧
    (∃ t, exec (.hashUpdate 0 1) (block keyed (hashing 32 [1]) [2, 3]) = .next t ∧
      (t.status == 0 && t.din == [3]) = true) ∧
    (∃ t, exec (.prgAbsorb 1 2) (block keyed (hashing 32 [1]) [2, 3]) = .next t ∧
      (t.status == 5 && t.din == []) = true) :=
  ⟨by decide +kernel, by decide, exists_next (by decide +kernel), exists_next (by decide +kernel)⟩

theorem witness_CommandsTouchOnlyTheirContext :
    prgTarget (.prgRatchet 0) ≠ some 1 ∧ hashTarget (.hashDigest 0) ≠ some 0 ∧
    ∃ t, exec (.prgClone 1 0) (block keyed HashCtx.reset []) = .next t ∧
      (prgAt t 0 == keyed) = true :=
  ⟨by decide, by decide, exists_next (by decide +kernel)⟩

theorem witness_FaultMatrixHolds :
    (block unkeyed (hashing 32 [1]) []).Inv ∧
    ∃ t, exec (.prgEncrypt 0 0) (block unkeyed (hashing 32 [1]) []) = .next t ∧
      (t.status == 2) = true :=
  ⟨by decide +kernel, exists_next (by decide +kernel)⟩

theorem witness_InternalConsistencyUnreachable :
    (∀ c ∈ (block unkeyed HashCtx.reset []).prg, c.Inv) ∧
    ∃ t, exec (.prgRatchet 1) (block unkeyed HashCtx.reset []) = .next t ∧ (t.status == 5) = true :=
  ⟨by decide +kernel, exists_next (by decide +kernel)⟩

/-- Two different blocks that nothing can tell apart. -/
theorem witness_UnspecifiedFieldsUnobservable :
    (block keyed HashCtx.reset []).Same
      { block keyed HashCtx.reset [] with prg := [keyed, { unkeyed with started := false }] } ∧
    PrgCtx.reset ≠ { unkeyed with started := false } := by
  refine ⟨⟨.cons (.inl rfl) (.cons (.inr ⟨rfl, rfl⟩) .nil),
    .cons (.inl rfl) (.cons (.inl rfl) .nil), rfl, rfl, rfl, rfl, rfl⟩, by decide +kernel⟩

/-- A step that starts a context, from a block that meets the invariant. -/
theorem witness_StepKeepsInvariant :
    (block { pastBuffer with started := false } (hashing 64 []) (descriptorBytes 0x00000000000000000001008000000010#128)).Inv ∧
    ∃ t, step (block { pastBuffer with started := false } (hashing 64 [])
        (descriptorBytes 0x00000000000000000001008000000010#128)) = .next t ∧
      ((prgAt t 0).started && t.status == 0) = true :=
  ⟨by decide +kernel, exists_next (by decide +kernel)⟩

theorem witness_PrgHashIsPure :
    State.reset.streamBroken = false ∧ (block keyed HashCtx.reset [9]).streamBroken = false ∧
    (0 : Byte).toNat < State.reset.prg.length ∧
    (1 : Byte).toNat < (block keyed HashCtx.reset [9]).prg.length ∧ goodLevel 192 2 ∧
    ([0x61, 0x62, 0x63] : List Byte).length < 2 ^ 64 := by
  decide +kernel

theorem witness_AeadRoundTrip :
    State.reset.streamBroken = false ∧ (1 : Byte).toNat < State.reset.prg.length ∧
    goodLevel 128 1 ∧ goodLengths 128 4 16 ∧ List.replicate 16 (7 : Byte) ≠ [] ∧
    ([1, 2, 3] : List Byte).length < 2 ^ 64 := by
  decide +kernel

/-- The bytes a host-side sequence ended with, if it did. -/
def resultOf (o : Host.Outcome HostResult Fault Refusal) : Option (List Byte) :=
  match o with
  | .next (_, .ok out) => some out
  | _ => none

theorem exists_result {o : Host.Outcome HostResult Fault Refusal} {out : List Byte}
    (h : resultOf o = some out) : ∃ t, o = .next (t, .ok out) := by
  match o, h with
  | .next (t, .ok x), h => exact ⟨t, by cases h; rfl⟩

/-- 95 section 6.1, `l = 128`, `d = 1`, everything empty: the output is the tag; another tag of its
length. -/
theorem witness_WrongTagFailsAuthentication :
    goodLevel (128 : BitVec 16).toNat (1 : Byte).toNat ∧
    goodLengths (128 : BitVec 16).toNat ([] : List Byte).length
      (hex 16 0x000102030405060708090A0B0C0D0E0F).length ∧
    hex 16 0x000102030405060708090A0B0C0D0E0F ≠ [] ∧
    (∃ t, aeadEnc 0 128 1 [] [] [] (hex 16 0x000102030405060708090A0B0C0D0E0F) State.reset =
      .next (t, .ok (hex 16 0x602024E7B4B758C30B23B86F825C4594))) ∧
    (hex 16 0x602024E7B4B758C30B23B86F825C4595).length = (128 : BitVec 16).toNat / 8 ∧
    hex 16 0x602024E7B4B758C30B23B86F825C4595 ≠
      (hex 16 0x602024E7B4B758C30B23B86F825C4594).drop ([] : List Byte).length :=
  ⟨by decide, by decide, by decide, exists_result (by decide +kernel), by decide, by decide⟩

end Sys2Proof.Tests
end

section
/-! Laws of rotation and byte order that say the whole rule (R6, R8, R9). -/

namespace Sys2Proof.Machine

open Sys2Proof

/-- Between 0 and 64 the rotation is the two shifts (R8). -/
theorem rotl64_eq_shifts (w : Word) {n : Nat} (h0 : 0 < n) (h64 : n < 64) :
    rotl64 w n = (w <<< n) ||| (w >>> (64 - n)) :=
  if_neg (by omega)

/-- For every amount R8 admits the rotation is the library's, which takes the amount modulo 64. -/
theorem rotl64_eq_rotateLeft (w : Word) {n : Nat} (h : n ≤ 64) : rotl64 w n = w.rotateLeft n := by
  obtain rfl | rfl | ⟨h0, h64⟩ : n = 0 ∨ n = 64 ∨ (0 < n ∧ n < 64) := by omega
  · simp [BitVec.rotateLeft_def, BitVec.ushiftRight_eq_zero]
  · simp [BitVec.rotateLeft_def, BitVec.ushiftRight_eq_zero]
  · rw [rotl64_eq_shifts w h0 h64, BitVec.rotateLeft_def, Nat.mod_eq_of_lt h64]

/-- Bit `i` of a word goes to bit `(i + n) mod 64` (R8). -/
theorem getLsbD_rotl64 (w : Word) {n i : Nat} (hn : n ≤ 64) (hi : i < 64) :
    (rotl64 w n).getLsbD ((i + n) % 64) = w.getLsbD i := by
  rw [rotl64_eq_rotateLeft w hn, BitVec.getLsbD_rotateLeft]
  by_cases hwrap : i + n % 64 < 64
  · -- the bit moves up without passing the top
    have hj : (i + n) % 64 = i + n % 64 := by omega
    have hge : ¬(i + n % 64 < n % 64) := by omega
    simp [hj, hge, hwrap]
  · -- the bit passes the top and comes in at the bottom
    have hj : (i + n) % 64 = i + n % 64 - 64 := by omega
    have hlt : i + n % 64 - 64 < n % 64 := by omega
    have hback : 64 - n % 64 + (i + n % 64 - 64) = i := by omega
    simp [hj, hlt, hback]

/-- The two shifts of R8 on numbers. -/
theorem toNat_rotl64 (w : Word) {n : Nat} (h0 : 0 < n) (h64 : n < 64) :
    (rotl64 w n).toNat = ((w.toNat <<< n) ||| (w.toNat >>> (64 - n))) % 2 ^ 64 := by
  have hlow : w.toNat >>> (64 - n) < 2 ^ 64 :=
    lt_of_le_of_lt (Nat.shiftRight_le _ _) w.isLt
  rw [rotl64_eq_shifts w h0 h64, BitVec.toNat_or, BitVec.toNat_shiftLeft,
    BitVec.toNat_ushiftRight, Nat.or_mod_two_pow, Nat.mod_eq_of_lt hlow]

/-- Settles O10: each clause is one law of `rotl64`. -/
theorem rotationMovesEveryBit : Obligations.RotationMovesEveryBit := by
  intro w n hn
  refine ⟨fun i hi => getLsbD_rotl64 w hn hi, toNat_rotl64 w, ?_⟩
  rintro (rfl | rfl)
  · exact rotl64_zero w
  · exact rotl64_sixtyFour w

/-- Entry `j` of `le64bytes w` is byte `j` of `w` (R6). -/
theorem le64bytes_getD (w : Word) {j : Nat} (hj : j < 8) : (le64bytes w).getD j 0 = byteOf w j := by
  simp [le64bytes, hj]

/-- Settles O11: the swap is `BE64` of the word's bytes by definition, and `byteOf_bswap64` and
`bswap64_bswap64` are its byte rule and its involution. -/
theorem byteSwapReversesBytes : Obligations.ByteSwapReversesBytes := by
  intro w
  refine ⟨?_, fun k hk => byteOf_bswap64 w hk, bswap64_bswap64 w⟩
  rw [bswap64, be64_eq_le64, be64_eq_le64]
  exact le64_congr fun j _ => (le64bytes_getD w (by omega)).symm

end Sys2Proof.Machine
end

section
/-! When a command ends and when it stops: every well-formed command ends exactly when its payload
is on DIN (R12, R74), and a step stops only without a whole command (R77, R235). -/

namespace Sys2Proof.Machine

open Sys2Proof

/-- How a command with `n` payload bytes runs from `s`: it ends with a next state when they are on
DIN, and stops with `dinUnderrun` when they are not. -/
def EndsOncePayloadIsHere (n : Nat) (s : State) (o : Host.Outcome State Fault Refusal) : Prop :=
  (n ≤ s.din.length ∧ ∃ t, o = .next t) ∨ (s.din.length < n ∧ o = .fault .dinUnderrun)

/-! The three shapes of `exec`'s arms, for contexts in range. -/

section Shapes
variable {ctx n : Nat} {s : State}

theorem runPrg_ends (f : List Byte → PrgCtx → Except Status (PrgCtx × List Byte))
    (hctx : ctx < s.prg.length) : EndsOncePayloadIsHere n s (runPrg ctx n f s) := by
  have hc := List.getElem?_eq_getElem hctx
  obtain hn | hn := Nat.lt_or_ge s.din.length n
  · exact .inr ⟨hn, (runPrg_eq_fault_iff f hc _).mpr hn⟩
  · exact .inl ⟨hn, by simp [runPrg, hc, takePayload, hn]⟩

theorem runHash_ends (f : List Byte → HashCtx → Except Status (HashCtx × List Byte))
    (hctx : ctx < s.hash.length) : EndsOncePayloadIsHere n s (runHash ctx n f s) := by
  have hc := List.getElem?_eq_getElem hctx
  obtain hn | hn := Nat.lt_or_ge s.din.length n
  · exact .inr ⟨hn, (runHash_eq_fault_iff f hc _).mpr hn⟩
  · exact .inl ⟨hn, by simp [runHash, hc, takePayload, hn]⟩

theorem runPure_ends (f : List Byte → List Byte) :
    EndsOncePayloadIsHere n s (runPure n f s) := by
  obtain hn | hn := Nat.lt_or_ge s.din.length n
  · exact .inr ⟨hn, by simp [runPure, (takePayload_eq_none_iff n s).mpr hn]⟩
  · exact .inl ⟨hn, by simp [runPure, takePayload, hn]⟩

end Shapes

/-- A check of R77 that finds no defect has passed. -/
theorem check_of_no_defect {P : Prop} [Decidable P] {r : Reject}
    (h : (if P then none else some r) = none) : P := by
  by_contra hP
  simp [hP] at h

/-- BASHS with amounts in range is its transform on 24 payload bytes (R103). -/
theorem execBashs_inRange {m1 n1 m2 n2 : Byte} (s : State)
    (h : m1.toNat ≤ 64 ∧ n1.toNat ≤ 64 ∧ m2.toNat ≤ 64 ∧ n2.toNat ≤ 64) :
    execBashs m1 n1 m2 n2 s =
      runPure 24 (bashsBytes ⟨m1.toNat, n1.toNat, m2.toNat, n2.toNat⟩) s :=
  if_neg (by omega)

/-- BASHF with a flag in range is the permutation of 192 payload bytes (R117). -/
theorem execBashf_inRange {be : Byte} (s : State) (h : be.toNat ≤ 1) :
    execBashf be s = runPure 192 (bashfBytes (be == 1)) s :=
  if_neg (by omega)

/-- PRG.CLONE from a context that exists is a command on its destination without payload (R150). -/
theorem execPrgClone_inRange {dst src : Byte} {s : State} (h : src.toNat < s.prg.length) :
    execPrgClone dst src s = runPrg dst.toNat 0 (fun _ _ => .ok (s.prg[src.toNat], [])) s := by
  simp only [execPrgClone, List.getElem?_eq_getElem h]

/-- HASH.CLONE from a context that exists is a command on its destination without payload (R177). -/
theorem execHashClone_inRange {dst src : Byte} {s : State} (h : src.toNat < s.hash.length) :
    execHashClone dst src s = runHash dst.toNat 0 (fun _ _ => .ok (s.hash[src.toNat], [])) s := by
  simp only [execHashClone, List.getElem?_eq_getElem h]

/-- Every command without a defect takes its payload length of R74 and ends (R12). -/
theorem exec_ends {i : Instr} {s : State} (hi : i.defect s.params = none) :
    EndsOncePayloadIsHere (payloadLen i) s (exec i s) := by
  cases i with
  | bashs =>
    rw [exec, execBashs_inRange s (check_of_no_defect hi)]
    exact runPure_ends _
  | bashf =>
    rw [exec, execBashf_inRange s (check_of_no_defect hi)]
    exact runPure_ends _
  | prgClone dst src =>
    obtain ⟨hdst, hsrc⟩ := check_of_no_defect hi
    rw [exec, execPrgClone_inRange hsrc]
    exact runPrg_ends _ hdst
  | hashClone dst src =>
    obtain ⟨hdst, hsrc⟩ := check_of_no_defect hi
    rw [exec, execHashClone_inRange hsrc]
    exact runHash_ends _ hdst
  | prgStart | prgRestart | prgAbsorb | prgSqueeze | prgEncrypt | prgDecrypt | prgRatchet =>
    rw [exec, payloadLen]
    exact runPrg_ends _ (check_of_no_defect hi)
  | hashInit | hashReset | hashUpdate | hashDigest =>
    rw [exec, payloadLen]
    exact runHash_ends _ (check_of_no_defect hi)

/-- Settles O9: with the payload on DIN only the first case of `exec_ends` is left. -/
theorem everyCommandEnds : Obligations.EveryCommandEnds := by
  intro i s hwf hdin
  obtain ⟨-, hnext⟩ | ⟨hshort, -⟩ := exec_ends ((wellFormed_iff _ i).mp hwf)
  · exact hnext
  · omega

section Step
variable {s : State}

/-- After an InvalidCommand a step is refused (R77). -/
theorem step_streamBroken (hb : s.streamBroken = true) : step s = .refused .streamBroken := by
  simp [step, hb]

/-- With less than a descriptor on DIN a step is refused: the block is idle (R12). -/
theorem step_noCommand (hb : s.streamBroken = false) (hlen : s.din.length < 16) :
    step s = .refused .noCommand := by
  simp [step, hb, (fetchDescriptor_eq_none_iff s.din).mpr hlen]

/-- A step runs the command of the first 16 bytes, with the bytes behind them on DIN (R70). -/
theorem step_decoded {i : Instr} (hb : s.streamBroken = false) (hlen : 16 ≤ s.din.length)
    (hi : decode s.params (descriptorOfBytes (s.din.take 16)) = .ok i) :
    step s = exec i { s with din := s.din.drop 16 } := by
  simp [step, hb, fetchDescriptor, hlen, hi]

/-- A step whose first 16 bytes are an illegal descriptor is InvalidCommand (R207). -/
theorem step_illegal {r : Reject} (hb : s.streamBroken = false) (hlen : 16 ≤ s.din.length)
    (hr : decode s.params (descriptorOfBytes (s.din.take 16)) = .error r) :
    step s = .next (raiseInvalidCommand { s with din := s.din.drop 16 }) := by
  simp [step, hb, fetchDescriptor, hlen, hr]

/-- A step with a legal descriptor ends or stops as its command does, descriptor and payload counted
together. -/
theorem step_ends {i : Instr} (hb : s.streamBroken = false) (hlen : 16 ≤ s.din.length)
    (hi : decode s.params (descriptorOfBytes (s.din.take 16)) = .ok i) :
    EndsOncePayloadIsHere (16 + payloadLen i) s (step s) := by
  obtain ⟨op, -, -, -, -, hdef⟩ := decode_eq_ok hi
  have hexec := exec_ends (s := { s with din := s.din.drop 16 }) hdef
  rw [← step_decoded hb hlen hi] at hexec
  simp only [EndsOncePayloadIsHere, List.length_drop] at hexec
  refine hexec.imp (And.imp_left ?_) (And.imp_left ?_) <;> intro <;> omega

end Step

/-- Settles O8: the cases of a step, in the order it makes its tests. -/
theorem stepStopsOnlyWithoutAWholeCommand : Obligations.StepStopsOnlyWithoutAWholeCommand := by
  intro s
  cases hb : s.streamBroken with
  | true => simp [step_streamBroken hb, eq_comm]
  | false =>
    obtain hlen | hlen := Nat.lt_or_ge s.din.length 16
    · have hlen' : ¬16 ≤ s.din.length := by omega
      simp [step_noCommand hb hlen, hlen, hlen', eq_comm]
    have hlen' : ¬s.din.length < 16 := by omega
    cases hd : decode s.params (descriptorOfBytes (s.din.take 16)) with
    | error r => simp [step_illegal hb hlen hd, hlen']
    | ok i =>
      obtain ⟨hpay, t, ht⟩ | ⟨hpay, ht⟩ := step_ends hb hlen hd
      · simp [ht, hlen', hpay]
      · simp [ht, hlen, hlen', hpay]

end Sys2Proof.Machine
end

section
/-! How the command shapes run, by what is there: a missing context, a missing payload, or both
there. With these the proofs below compare two runs without unfolding them. -/

namespace Sys2Proof.Machine

open Sys2Proof

section Prg
variable {ctx n : Nat} {s : State} (f : List Byte → PrgCtx → Except Status (PrgCtx × List Byte))
  {c : PrgCtx}

/-- A command on an automaton context stops when its payload is not on DIN (R235 (a)). -/
theorem runPrg_underrun (hc : s.prg[ctx]? = some c) (hn : s.din.length < n) :
    runPrg ctx n f s = .fault .dinUnderrun :=
  (runPrg_eq_fault_iff f hc _).mpr hn

/-- A command on an automaton context takes the first `n` bytes of DIN (R53). -/
theorem runPrg_take (hc : s.prg[ctx]? = some c) (hn : n ≤ s.din.length) :
    runPrg ctx n f s =
      .next (settlePrg ctx { s with din := s.din.drop n } (f (s.din.take n) c)) := by
  simp only [runPrg, hc, takePayload, if_pos hn]

end Prg

section Hash
variable {ctx n : Nat} {s : State} (f : List Byte → HashCtx → Except Status (HashCtx × List Byte))
  {h : HashCtx}

/-- A command on a hash context stops when its payload is not on DIN (R235 (a)). -/
theorem runHash_underrun (hh : s.hash[ctx]? = some h) (hn : s.din.length < n) :
    runHash ctx n f s = .fault .dinUnderrun :=
  (runHash_eq_fault_iff f hh _).mpr hn

/-- A command on a hash context takes the first `n` bytes of DIN (R53). -/
theorem runHash_take (hh : s.hash[ctx]? = some h) (hn : n ≤ s.din.length) :
    runHash ctx n f s =
      .next (settleHash ctx { s with din := s.din.drop n } (f (s.din.take n) h)) := by
  simp only [runHash, hh, takePayload, if_pos hn]

end Hash

section Pure
variable {n : Nat} {s : State} (f : List Byte → List Byte)

/-- A command on the scratch file stops when its payload is not on DIN (R235 (a)). -/
theorem runPure_underrun (hn : s.din.length < n) : runPure n f s = .fault .dinUnderrun := by
  simp only [runPure, (takePayload_eq_none_iff n s).mpr hn]

/-- A command on the scratch file takes the first `n` bytes of DIN (R53). -/
theorem runPure_take (hn : n ≤ s.din.length) :
    runPure n f s =
      .next (({ s with din := s.din.drop n } : State).finish (f (s.din.take n))) := by
  simp only [runPure, takePayload, if_pos hn]

end Pure

/-- Whether BASHS refuses its amounts does not depend on the block: it is InvalidCommand on every
block, or a command on the scratch file on every block (R103). -/
theorem execBashs_cases (m1 n1 m2 n2 : Byte) :
    (∀ s, execBashs m1 n1 m2 n2 s = .next (raiseInvalidCommand s)) ∨
    ∃ f, ∀ s, execBashs m1 n1 m2 n2 s = runPure 24 f s := by
  by_cases h : 64 < m1.toNat ∨ 64 < n1.toNat ∨ 64 < m2.toNat ∨ 64 < n2.toNat
  · exact .inl fun _ => if_pos h
  · exact .inr ⟨_, fun _ => if_neg h⟩

/-- Whether BASHF refuses its flag does not depend on the block (R117). -/
theorem execBashf_cases (be : Byte) :
    (∀ s, execBashf be s = .next (raiseInvalidCommand s)) ∨
    ∃ f, ∀ s, execBashf be s = runPure 192 f s := by
  by_cases h : 1 < be.toNat
  · exact .inl fun _ => if_pos h
  · exact .inr ⟨_, fun _ => if_neg h⟩

section Clone
variable {dst src : Byte} {s : State}

/-- PRG.CLONE from a context that does not exist is InvalidCommand (R77 (c)). -/
theorem execPrgClone_noSource (h : s.prg[src.toNat]? = none) :
    execPrgClone dst src s = .next (raiseInvalidCommand s) := by
  simp only [execPrgClone, h]

/-- PRG.CLONE writes its source's context, whatever the destination held (R150). -/
theorem execPrgClone_source {c : PrgCtx} (h : s.prg[src.toNat]? = some c) :
    execPrgClone dst src s = runPrg dst.toNat 0 (fun _ _ => .ok (c, [])) s := by
  simp only [execPrgClone, h]

/-- HASH.CLONE from a context that does not exist is InvalidCommand (R77 (c)). -/
theorem execHashClone_noSource (hh : s.hash[src.toNat]? = none) :
    execHashClone dst src s = .next (raiseInvalidCommand s) := by
  simp only [execHashClone, hh]

/-- HASH.CLONE writes its source's context, whatever the destination held (R177). -/
theorem execHashClone_source {h : HashCtx} (hh : s.hash[src.toNat]? = some h) :
    execHashClone dst src s = runHash dst.toNat 0 (fun _ _ => .ok (h, [])) s := by
  simp only [execHashClone, hh]

end Clone

end Sys2Proof.Machine
end

section
/-! Nothing observes the fields of an Unstarted or unconstructed context (R34): a command that would
read them answers `NotStarted` first, and the commands that write such a context, PRG.START,
HASH.INIT and the clones, do not read what it held. -/

namespace Sys2Proof.Machine

open Sys2Proof

/-- Two answers of an operation on one context: the same fault, or contexts that `R` relates and the
same bytes put out. -/
inductive AnswerRel {α : Type} (R : α → α → Prop) :
    Except Status (α × List Byte) → Except Status (α × List Byte) → Prop
  | error (k : Status) : AnswerRel R (.error k) (.error k)
  | ok {a a' : α} (X : List Byte) (h : R a a') : AnswerRel R (.ok (a, X)) (.ok (a', X))

theorem AnswerRel.refl {α : Type} {R : α → α → Prop} (hR : ∀ a, R a a) :
    ∀ r, AnswerRel R r r
  | .error k => .error k
  | .ok (a, X) => .ok X (hR a)

/-! ## Related lists, entry by entry -/

section Lists
variable {α : Type} {R : α → α → Prop} {l l' : List α}

/-- Two related lists miss an entry together, or hold related entries there. -/
theorem forall₂_getElem? (h : List.Forall₂ R l l') (i : Nat) :
    (l[i]? = none ∧ l'[i]? = none) ∨ ∃ a a', l[i]? = some a ∧ l'[i]? = some a' ∧ R a a' := by
  induction h generalizing i with
  | nil => exact .inl ⟨rfl, rfl⟩
  | cons hab _ ih =>
    cases i with
    | zero => exact .inr ⟨_, _, rfl, rfl, hab⟩
    | succ i => exact ih i

/-- Writing related entries at one place keeps two lists related. -/
theorem forall₂_set (h : List.Forall₂ R l l') {a a' : α} (ha : R a a') (i : Nat) :
    List.Forall₂ R (l.set i a) (l'.set i a') := by
  induction h generalizing i with
  | nil => exact .nil
  | cons hab hl ih =>
    cases i with
    | zero => exact .cons ha hl
    | succ i => exact .cons hab (ih i)

end Lists

/-! ## The updates of the block keep two blocks alike -/

section Updates
variable {s s' : State}

theorem State.Same.prg_alike (hs : s.Same s') : List.Forall₂ PrgCtx.Same s.prg s'.prg := by
  obtain ⟨hprg, -⟩ := hs
  exact hprg

theorem State.Same.hash_alike (hs : s.Same s') : List.Forall₂ HashCtx.Same s.hash s'.hash := by
  obtain ⟨-, hhash, -⟩ := hs
  exact hhash

/-- The decoder sees the same parameters in two blocks alike: only the lengths of the lists and
`HASH_ABSORB_OVERWRITE` count. -/
theorem State.Same.params_eq (hs : s.Same s') : s.params = s'.params := by
  obtain ⟨hprg, hhash, -, how, -⟩ := hs
  simp only [State.params, hprg.length_eq, hhash.length_eq, how]

/-- Two blocks alike share `HASH_ABSORB_OVERWRITE`, which the hash commands read. -/
theorem State.Same.overwrite_eq (hs : s.Same s') :
    s.hashAbsorbOverwrite = s'.hashAbsorbOverwrite := by
  obtain ⟨-, -, -, how, -⟩ := hs
  exact how

theorem State.Same.din_eq (hs : s.Same s') : s.din = s'.din := by
  obtain ⟨-, -, -, -, hdin, -⟩ := hs
  exact hdin

theorem State.Same.streamBroken_eq (hs : s.Same s') : s.streamBroken = s'.streamBroken := by
  obtain ⟨-, -, -, -, -, -, hb⟩ := hs
  exact hb

theorem State.Same.withDin (hs : s.Same s') (bytes : List Byte) :
    State.Same { s with din := bytes } { s' with din := bytes } := by
  obtain ⟨hprg, hhash, hst, how, -, hdout, hb⟩ := hs
  exact ⟨hprg, hhash, hst, how, rfl, hdout, hb⟩

theorem State.Same.raiseFault (hs : s.Same s') (k : Status) :
    (raiseFault k s).Same (raiseFault k s') := by
  obtain ⟨hprg, hhash, -, how, hdin, hdout, hb⟩ := hs
  exact ⟨hprg, hhash, rfl, how, hdin, hdout, hb⟩

theorem State.Same.raiseInvalidCommand (hs : s.Same s') :
    (raiseInvalidCommand s).Same (raiseInvalidCommand s') := by
  obtain ⟨hprg, hhash, -, how, hdin, hdout, -⟩ := hs
  exact ⟨hprg, hhash, rfl, how, hdin, hdout, rfl⟩

theorem State.Same.finish (hs : s.Same s') (X : List Byte) :
    (s.finish X).Same (s'.finish X) := by
  obtain ⟨hprg, hhash, -, how, hdin, hdout, hb⟩ := hs
  exact ⟨hprg, hhash, rfl, how, hdin, congrArg (· ++ X) hdout, hb⟩

theorem State.Same.setPrg (hs : s.Same s') {c c' : PrgCtx} (hc : c.Same c') (i : Nat) :
    (s.setPrg i c).Same (s'.setPrg i c') := by
  obtain ⟨hprg, hrest⟩ := hs
  exact ⟨forall₂_set hprg hc i, hrest⟩

theorem State.Same.setHash (hs : s.Same s') {h h' : HashCtx} (hh : h.Same h') (i : Nat) :
    (s.setHash i h).Same (s'.setHash i h') := by
  obtain ⟨hprg, hhash, hrest⟩ := hs
  exact ⟨hprg, forall₂_set hhash hh i, hrest⟩

end Updates

/-! ## The command shapes keep two blocks alike -/

section Runs
variable {ctx n : Nat} {s s' : State}

theorem settlePrg_same (hs : s.Same s') {r r' : Except Status (PrgCtx × List Byte)}
    (hr : AnswerRel PrgCtx.Same r r') : (settlePrg ctx s r).Same (settlePrg ctx s' r') := by
  cases hr with
  | error k => exact hs.raiseFault k
  | ok X hc => exact (hs.setPrg hc ctx).finish X

theorem settleHash_same (hs : s.Same s') {r r' : Except Status (HashCtx × List Byte)}
    (hr : AnswerRel HashCtx.Same r r') : (settleHash ctx s r).Same (settleHash ctx s' r') := by
  cases hr with
  | error k => exact hs.raiseFault k
  | ok X hh => exact (hs.setHash hh ctx).finish X

/-- A command on an automaton context ends alike if its operation answers alike on contexts nothing
can tell apart. The two operations may differ: PRG.CLONE's carries its source. -/
theorem runPrg_same {f f' : List Byte → PrgCtx → Except Status (PrgCtx × List Byte)}
    (hs : s.Same s')
    (hf : ∀ X c c', c.Same c' → AnswerRel PrgCtx.Same (f X c) (f' X c')) :
    Outcome.Same (runPrg ctx n f s) (runPrg ctx n f' s') := by
  have hdin := hs.din_eq
  obtain ⟨hc, hc'⟩ | ⟨c, c', hc, hc', hcc⟩ := forall₂_getElem? hs.prg_alike ctx
  · rw [runPrg_outOfRange f hc, runPrg_outOfRange f' hc']
    exact hs.raiseInvalidCommand
  obtain hn | hn := Nat.lt_or_ge s.din.length n
  · rw [runPrg_underrun f hc hn, runPrg_underrun f' hc' (hdin ▸ hn)]
  · rw [runPrg_take f hc hn, runPrg_take f' hc' (hdin ▸ hn), hdin]
    exact settlePrg_same (hs.withDin _) (hf _ _ _ hcc)

/-- A command on a hash context ends alike if its operation answers alike on contexts nothing can
tell apart. -/
theorem runHash_same {f f' : List Byte → HashCtx → Except Status (HashCtx × List Byte)}
    (hs : s.Same s')
    (hf : ∀ X h h', h.Same h' → AnswerRel HashCtx.Same (f X h) (f' X h')) :
    Outcome.Same (runHash ctx n f s) (runHash ctx n f' s') := by
  have hdin := hs.din_eq
  obtain ⟨hh, hh'⟩ | ⟨h, h', hh, hh', hhh⟩ := forall₂_getElem? hs.hash_alike ctx
  · rw [runHash_outOfRange f hh, runHash_outOfRange f' hh']
    exact hs.raiseInvalidCommand
  obtain hn | hn := Nat.lt_or_ge s.din.length n
  · rw [runHash_underrun f hh hn, runHash_underrun f' hh' (hdin ▸ hn)]
  · rw [runHash_take f hh hn, runHash_take f' hh' (hdin ▸ hn), hdin]
    exact settleHash_same (hs.withDin _) (hf _ _ _ hhh)

/-- A command that asks for a started context first ends alike (R34, R206). -/
theorem runPrg_same_of_needs_started
    {f : List Byte → PrgCtx → Except Status (PrgCtx × List Byte)} (hs : s.Same s')
    (hf : ∀ X c, c.started = false → f X c = .error .notStarted) :
    Outcome.Same (runPrg ctx n f s) (runPrg ctx n f s') := by
  refine runPrg_same hs fun X c c' hcc => ?_
  obtain rfl | ⟨h, h'⟩ := hcc
  · exact .refl (fun _ => .inl rfl) _
  · rw [hf X c h, hf X c' h']
    exact .error _

/-- A command that asks for a constructed context first ends alike (R34, R206). -/
theorem runHash_same_of_needs_constructed
    {f : List Byte → HashCtx → Except Status (HashCtx × List Byte)} (hs : s.Same s')
    (hf : ∀ X h, h.constructed = false → f X h = .error .notStarted) :
    Outcome.Same (runHash ctx n f s) (runHash ctx n f s') := by
  refine runHash_same hs fun X h h' hhh => ?_
  obtain rfl | ⟨hc, hc'⟩ := hhh
  · exact .refl (fun _ => .inl rfl) _
  · rw [hf X h hc, hf X h' hc']
    exact .error _

/-- A command whose operation reads nothing of the old context ends alike (R34). -/
theorem runPrg_same_of_ignores_context
    {f : List Byte → PrgCtx → Except Status (PrgCtx × List Byte)} (hs : s.Same s')
    (hf : ∀ X c c', f X c = f X c') :
    Outcome.Same (runPrg ctx n f s) (runPrg ctx n f s') := by
  refine runPrg_same hs fun X c c' _ => ?_
  rw [hf X c c']
  exact .refl (fun _ => .inl rfl) _

/-- A command whose operation reads nothing of the old context ends alike (R34). -/
theorem runHash_same_of_ignores_context
    {f : List Byte → HashCtx → Except Status (HashCtx × List Byte)} (hs : s.Same s')
    (hf : ∀ X h h', f X h = f X h') :
    Outcome.Same (runHash ctx n f s) (runHash ctx n f s') := by
  refine runHash_same hs fun X h h' _ => ?_
  rw [hf X h h']
  exact .refl (fun _ => .inl rfl) _

theorem runPure_same (f : List Byte → List Byte) (hs : s.Same s') :
    Outcome.Same (runPure n f s) (runPure n f s') := by
  have hdin := hs.din_eq
  obtain hn | hn := Nat.lt_or_ge s.din.length n
  · rw [runPure_underrun f hn, runPure_underrun f (hdin ▸ hn)]
  · rw [runPure_take f hn, runPure_take f (hdin ▸ hn), hdin]
    exact (hs.withDin _).finish _

end Runs

/-! ## The checks and the blind writes of the operations on one context (R206, R135, R172) -/

section Checks
variable {c : PrgCtx} {h : HashCtx}

@[simp] theorem restart_unstarted (hc : c.started = false) (ann key : List Byte) :
    c.restart ann key = .error .notStarted := if_pos hc

@[simp] theorem absorb_unstarted (hc : c.started = false) (n : Nat) (data : List Byte) :
    c.absorb n data = .error .notStarted := if_pos hc

@[simp] theorem squeeze_unstarted (hc : c.started = false) (n : Nat) :
    c.squeeze n = .error .notStarted := if_pos hc

@[simp] theorem encrypt_unstarted (hc : c.started = false) (n : Nat) (data : List Byte) :
    c.encrypt n data = .error .notStarted := if_pos hc

@[simp] theorem decrypt_unstarted (hc : c.started = false) (n : Nat) (data : List Byte) :
    c.decrypt n data = .error .notStarted := if_pos hc

@[simp] theorem ratchet_unstarted (hc : c.started = false) :
    c.ratchet = .error .notStarted := if_pos hc

@[simp] theorem resetCtx_unconstructed (hh : h.constructed = false) :
    h.resetCtx = .error .notStarted := if_pos hh

@[simp] theorem update_unconstructed (hh : h.constructed = false) (ow : Bool) (data : List Byte) :
    h.update ow data = .error .notStarted := if_pos hh

@[simp] theorem digest_unconstructed (hh : h.constructed = false) (ow : Bool) :
    h.digest ow = .error .notStarted := if_pos hh

end Checks

/-- PRG.START reads nothing of the context it starts (R135). -/
theorem start_eq_start (l d : Nat) (ann key : List Byte) (c c' : PrgCtx) :
    c.start l d ann key = c'.start l d ann key := rfl

/-- HASH.INIT reads nothing of the context it constructs (R172). -/
theorem init_eq_init (outLen : Nat) (h h' : HashCtx) : h.init outLen = h'.init outLen := by
  simp only [HashCtx.init, HashCtx.initial]

/-! ## Commands and steps -/

section Step
variable {s s' : State}

theorem execPrgClone_same (dst src : Byte) (hs : s.Same s') :
    Outcome.Same (execPrgClone dst src s) (execPrgClone dst src s') := by
  obtain ⟨hc, hc'⟩ | ⟨c, c', hc, hc', hcc⟩ := forall₂_getElem? hs.prg_alike src.toNat
  · rw [execPrgClone_noSource hc, execPrgClone_noSource hc']
    exact hs.raiseInvalidCommand
  · rw [execPrgClone_source hc, execPrgClone_source hc']
    exact runPrg_same hs fun _ _ _ _ => .ok [] hcc

theorem execHashClone_same (dst src : Byte) (hs : s.Same s') :
    Outcome.Same (execHashClone dst src s) (execHashClone dst src s') := by
  obtain ⟨hh, hh'⟩ | ⟨h, h', hh, hh', hhh⟩ := forall₂_getElem? hs.hash_alike src.toNat
  · rw [execHashClone_noSource hh, execHashClone_noSource hh']
    exact hs.raiseInvalidCommand
  · rw [execHashClone_source hh, execHashClone_source hh']
    exact runHash_same hs fun _ _ _ _ => .ok [] hhh

/-- Every command ends alike on two blocks nothing can tell apart (R34). -/
theorem exec_same (i : Instr) (hs : s.Same s') : Outcome.Same (exec i s) (exec i s') := by
  cases i with
  | bashs m1 n1 m2 n2 =>
    obtain h | ⟨f, h⟩ := execBashs_cases m1 n1 m2 n2
    · rw [exec, exec, h, h]
      exact hs.raiseInvalidCommand
    · rw [exec, exec, h, h]
      exact runPure_same f hs
  | bashf be =>
    obtain h | ⟨f, h⟩ := execBashf_cases be
    · rw [exec, exec, h, h]
      exact hs.raiseInvalidCommand
    · rw [exec, exec, h, h]
      exact runPure_same f hs
  | prgStart =>
    rw [exec, exec, execPrgStart, execPrgStart]
    exact runPrg_same_of_ignores_context hs fun _ => start_eq_start _ _ _ _
  | prgRestart =>
    rw [exec, exec, execPrgRestart, execPrgRestart]
    exact runPrg_same_of_needs_started hs fun _ _ hc => restart_unstarted hc _ _
  | prgAbsorb =>
    rw [exec, exec, execPrgAbsorb, execPrgAbsorb]
    exact runPrg_same_of_needs_started hs fun _ _ hc => absorb_unstarted hc _ _
  | prgSqueeze =>
    rw [exec, exec, execPrgSqueeze, execPrgSqueeze]
    exact runPrg_same_of_needs_started hs fun _ _ hc => squeeze_unstarted hc _
  | prgEncrypt =>
    rw [exec, exec, execPrgEncrypt, execPrgEncrypt]
    exact runPrg_same_of_needs_started hs fun _ _ hc => encrypt_unstarted hc _ _
  | prgDecrypt =>
    rw [exec, exec, execPrgDecrypt, execPrgDecrypt]
    exact runPrg_same_of_needs_started hs fun _ _ hc => decrypt_unstarted hc _ _
  | prgRatchet =>
    rw [exec, exec, execPrgRatchet, execPrgRatchet]
    exact runPrg_same_of_needs_started hs fun _ _ hc => ratchet_unstarted hc
  | prgClone dst src => exact execPrgClone_same dst src hs
  | hashInit =>
    rw [exec, exec, execHashInit, execHashInit]
    exact runHash_same_of_ignores_context hs fun _ => init_eq_init _
  | hashReset =>
    rw [exec, exec, execHashReset, execHashReset]
    exact runHash_same_of_needs_constructed hs fun _ _ hh => resetCtx_unconstructed hh
  | hashUpdate =>
    rw [exec, exec, execHashUpdate, execHashUpdate, hs.overwrite_eq]
    exact runHash_same_of_needs_constructed hs fun _ _ hh => update_unconstructed hh _ _
  | hashDigest =>
    rw [exec, exec, execHashDigest, execHashDigest, hs.overwrite_eq]
    exact runHash_same_of_needs_constructed hs fun _ _ hh => digest_unconstructed hh _
  | hashClone dst src => exact execHashClone_same dst src hs

/-- Settles O49: the step makes its tests on fields the two blocks share, then the command ends
alike on both (`exec_same`). -/
theorem unspecifiedFieldsUnobservable : Obligations.UnspecifiedFieldsUnobservable := by
  intro s s' hs
  have hbb := hs.streamBroken_eq
  have hdin := hs.din_eq
  have hp := hs.params_eq
  cases hb : s.streamBroken with
  | true => rw [step_streamBroken hb, step_streamBroken (hbb ▸ hb)]
  | false =>
    obtain hlen | hlen := Nat.lt_or_ge s.din.length 16
    · rw [step_noCommand hb hlen, step_noCommand (hbb ▸ hb) (hdin ▸ hlen)]
    cases hd : decode s.params (descriptorOfBytes (s.din.take 16)) with
    | error r =>
      rw [step_illegal hb hlen hd, step_illegal (hbb ▸ hb) (hdin ▸ hlen) (hp ▸ hdin ▸ hd), hdin]
      exact (hs.withDin _).raiseInvalidCommand
    | ok i =>
      rw [step_decoded hb hlen hd, step_decoded (hbb ▸ hb) (hdin ▸ hlen) (hp ▸ hdin ▸ hd), hdin]
      exact exec_same i (hs.withDin _)

end Step

end Sys2Proof.Machine
end

section
/-! Only PRG.START and PRG.CLONE write the `started`, `l` and `d` of a context (R25 to R27): every
other operation keeps its context's level. -/

namespace Sys2Proof.Machine

open Sys2Proof

/-- What PRG.START fixes of a context, apart from its buffer: `started`, `l` and `d`. -/
def PrgCtx.level (c : PrgCtx) : Bool × Nat × Nat := (c.started, c.l, c.d)

theorem level_eq_iff (c c' : PrgCtx) :
    c'.level = c.level ↔ c'.started = c.started ∧ c'.l = c.l ∧ c'.d = c.d := by
  simp only [PrgCtx.level, Prod.mk.injEq]

/-! ## The operations that keep the level of their context -/

section Operations
variable {c c' : PrgCtx} {n : Nat} {ann key data : List Byte} {r : PrgCtx × List Byte}

theorem commit_keeps_level {code : Byte} (h : c.commit code = .ok c') : c'.level = c.level := by
  obtain ⟨-, he⟩ | ⟨-, ho⟩ := commit_cases code c
  · exact nomatch he.symm.trans h
  · obtain rfl := Except.ok.inj (ho.symm.trans h)
    simp only [PrgCtx.level]

theorem streamLoop_keeps_level (mv : Move) (fuel n : Nat) (input : List Byte) (c : PrgCtx) :
    (streamLoop mv fuel n input c).1.level = c.level := by
  obtain ⟨hstarted, hl, hd, -⟩ := streamLoop_frame mv fuel n input c
  exact (level_eq_iff _ _).mpr ⟨hstarted, hl, hd⟩

theorem stream_keeps_level {code : Byte} {mv : Move} (h : c.stream code mv n data = .ok r) :
    r.1.level = c.level := by
  unfold PrgCtx.stream at h
  split at h
  · cases h
  · rename_i c1 hc
    obtain rfl := Except.ok.inj h
    exact (streamLoop_keeps_level _ _ _ _ _).trans (commit_keeps_level hc)

theorem mixIn_keeps_level (ann key : List Byte) (c : PrgCtx) :
    (c.mixIn ann key).level = c.level := by
  simp only [PrgCtx.level, PrgCtx.mixIn]

theorem restart_keeps_level (h : c.restart ann key = .ok r) : r.1.level = c.level := by
  unfold PrgCtx.restart at h
  split_ifs at h
  · split at h
    · cases h
    · rename_i c1 hc
      obtain rfl := Except.ok.inj h
      rw [mixIn_keeps_level, ← commit_keeps_level hc]
      simp only [PrgCtx.level]
  · split at h
    · cases h
    · rename_i c1 hc
      obtain rfl := Except.ok.inj h
      rw [mixIn_keeps_level, commit_keeps_level hc]

theorem absorb_keeps_level (h : c.absorb n data = .ok r) : r.1.level = c.level := by
  unfold PrgCtx.absorb at h
  split_ifs at h
  exact stream_keeps_level h

theorem squeeze_keeps_level (h : c.squeeze n = .ok r) : r.1.level = c.level := by
  unfold PrgCtx.squeeze at h
  split_ifs at h
  exact stream_keeps_level h

theorem encrypt_keeps_level (h : c.encrypt n data = .ok r) : r.1.level = c.level := by
  unfold PrgCtx.encrypt at h
  split_ifs at h
  exact stream_keeps_level h

theorem decrypt_keeps_level (h : c.decrypt n data = .ok r) : r.1.level = c.level := by
  unfold PrgCtx.decrypt at h
  split_ifs at h
  exact stream_keeps_level h

theorem ratchet_keeps_level (h : c.ratchet = .ok r) : r.1.level = c.level := by
  unfold PrgCtx.ratchet at h
  split_ifs at h
  split at h
  · cases h
  · rename_i c1 hc
    obtain rfl := Except.ok.inj h
    rw [← commit_keeps_level hc]
    simp only [PrgCtx.level]

end Operations

/-! ## What a command does to the list of contexts -/

section Runs
variable {ctx n : Nat} {s t : State}

/-- A command on an automaton context leaves the list of contexts, or writes there the answer of its
operation. -/
theorem runPrg_prg {f : List Byte → PrgCtx → Except Status (PrgCtx × List Byte)}
    (h : runPrg ctx n f s = .next t) :
    t.prg = s.prg ∨ ∃ c X r, s.prg[ctx]? = some c ∧ f X c = .ok r ∧ t.prg = s.prg.set ctx r.1 := by
  obtain ⟨-, rfl⟩ | ⟨c, hc, -, rfl⟩ := runPrg_cases h
  · exact .inl rfl
  · cases hf : f (s.din.take n) c with
    | error k => exact .inl rfl
    | ok r => exact .inr ⟨c, _, r, hc, hf, rfl⟩

/-- A command on a hash context touches no automaton context. -/
theorem runHash_prg {f : List Byte → HashCtx → Except Status (HashCtx × List Byte)}
    (h : runHash ctx n f s = .next t) : t.prg = s.prg := by
  obtain ⟨-, rfl⟩ | ⟨c, -, -, rfl⟩ := runHash_cases h
  · rfl
  · cases f (s.din.take n) c <;> rfl

/-- A command on the scratch file touches no automaton context (R23). -/
theorem runPure_prg {f : List Byte → List Byte} (h : runPure n f s = .next t) : t.prg = s.prg := by
  obtain ⟨-, rfl⟩ := runPure_cases h
  rfl

end Runs

/-- From `s` to `t` context `j` keeps its level. -/
def KeepsLevelAt (j : Nat) (s t : State) : Prop :=
  ∀ c c', s.prg[j]? = some c → t.prg[j]? = some c' → c'.level = c.level

section Keeps
variable {ctx n j : Nat} {s t : State}

theorem KeepsLevelAt.of_prg_eq (h : t.prg = s.prg) : KeepsLevelAt j s t := by
  intro c c' hc hc'
  rw [h, hc] at hc'
  cases hc'
  rfl

/-- A command on one context keeps the level of context `j` if its operation does whenever `j` is
that context. -/
theorem runPrg_keeps_level {f : List Byte → PrgCtx → Except Status (PrgCtx × List Byte)}
    (h : runPrg ctx n f s = .next t)
    (hf : ctx = j → ∀ X c r, f X c = .ok r → r.1.level = c.level) : KeepsLevelAt j s t := by
  obtain hprg | ⟨c, X, r, hc, hr, hprg⟩ := runPrg_prg h
  · exact .of_prg_eq hprg
  intro c₀ c' hc₀ hc'
  rw [hprg] at hc'
  by_cases hj : ctx = j
  · subst hj
    obtain ⟨hlt, -⟩ := List.getElem?_eq_some_iff.mp hc
    rw [List.getElem?_set_self hlt] at hc'
    cases hc'
    cases hc.symm.trans hc₀
    exact hf rfl X c r hr
  · rw [List.getElem?_set_ne hj] at hc'
    cases hc₀.symm.trans hc'
    rfl

/-- Every command but PRG.START and PRG.CLONE onto context `j` keeps its level. -/
theorem exec_keeps_level {i : Instr} (h : exec i s = .next t)
    (hi : Spec.startsOrClonesOnto j i = false) : KeepsLevelAt j s t := by
  cases i with
  | bashs m1 n1 m2 n2 =>
    rw [exec] at h
    obtain hb | ⟨f, hb⟩ := execBashs_cases m1 n1 m2 n2
    · cases (hb s).symm.trans h
      exact .of_prg_eq rfl
    · exact .of_prg_eq (runPure_prg ((hb s).symm.trans h))
  | bashf be =>
    rw [exec] at h
    obtain hb | ⟨f, hb⟩ := execBashf_cases be
    · cases (hb s).symm.trans h
      exact .of_prg_eq rfl
    · exact .of_prg_eq (runPure_prg ((hb s).symm.trans h))
  | prgStart =>
    rw [exec, execPrgStart] at h
    exact runPrg_keeps_level h fun hj => absurd hj (beq_eq_false_iff_ne.mp hi)
  | prgRestart =>
    rw [exec, execPrgRestart] at h
    exact runPrg_keeps_level h fun _ _ _ _ => restart_keeps_level
  | prgAbsorb =>
    rw [exec, execPrgAbsorb] at h
    exact runPrg_keeps_level h fun _ _ _ _ => absorb_keeps_level
  | prgSqueeze =>
    rw [exec, execPrgSqueeze] at h
    exact runPrg_keeps_level h fun _ _ _ _ => squeeze_keeps_level
  | prgEncrypt =>
    rw [exec, execPrgEncrypt] at h
    exact runPrg_keeps_level h fun _ _ _ _ => encrypt_keeps_level
  | prgDecrypt =>
    rw [exec, execPrgDecrypt] at h
    exact runPrg_keeps_level h fun _ _ _ _ => decrypt_keeps_level
  | prgRatchet =>
    rw [exec, execPrgRatchet] at h
    exact runPrg_keeps_level h fun _ _ _ _ => ratchet_keeps_level
  | prgClone dst src =>
    rw [exec] at h
    cases hsrc : s.prg[src.toNat]? with
    | none =>
      cases (execPrgClone_noSource hsrc).symm.trans h
      exact .of_prg_eq rfl
    | some c =>
      rw [execPrgClone_source hsrc] at h
      exact runPrg_keeps_level h fun hj => absurd hj (beq_eq_false_iff_ne.mp hi)
  | hashInit | hashReset | hashUpdate | hashDigest =>
    rw [exec] at h
    exact .of_prg_eq (runHash_prg h)
  | hashClone dst src =>
    rw [exec] at h
    cases hsrc : s.hash[src.toNat]? with
    | none =>
      cases (execHashClone_noSource hsrc).symm.trans h
      exact .of_prg_eq rfl
    | some c =>
      rw [execHashClone_source hsrc] at h
      exact .of_prg_eq (runHash_prg h)

end Keeps

/-- Settles O28: `exec_keeps_level`, the level taken apart. -/
theorem onlyStartAndCloneSetLevel : Obligations.OnlyStartAndCloneSetLevel := by
  intro i s t j c c' h hc hc' hi
  exact (level_eq_iff c c').mp (exec_keeps_level h hi c c' hc hc')

end Sys2Proof.Machine
end

section
/-! The head of DIN, the byte view of a State, and `STATUS`, which nothing reads (R21, R31, R70). -/

namespace Sys2Proof.Machine

open Sys2Proof

/-- Settles O5: the fetch takes back the descriptor delivered (`fetchDescriptor_descriptorBytes`). -/
theorem stepRunsTheDecodedCommand : Obligations.StepRunsTheDecodedCommand := by
  intro s d i rest hb hdin hi
  simp [step, hb, hdin, hi]

/-- A word is put together from the bytes of the State at its place (R21). -/
theorem le64_byteAt (S : Sponge) (i : Nat) :
    (le64 fun j => byteAt S (8 * i + j)) = S.getD i 0 := by
  rw [← le64_byteOf (S.getD i 0)]
  refine le64_congr fun j hj => ?_
  rw [byteAt, Nat.mul_add_div (by decide), Nat.div_eq_of_lt hj, Nat.mul_add_mod,
    Nat.mod_eq_of_lt hj, Nat.add_zero]

/-- The byte at the start of a word is its least significant one (R21). -/
theorem byteAt_eight_mul (S : Sponge) {i : Nat} (hi : i < 24) :
    byteAt S (8 * i) = S[i].extractLsb' 0 8 := by
  simp [byteAt, byteOf, Vector.getD, hi]

/-- Settles O12: the first and the last clause are the definition of `byteAt`, the other is
`le64_byteAt`. -/
theorem byteViewOfTheState : Obligations.ByteViewOfTheState :=
  fun S => ⟨fun _ _ => rfl, fun i _ => (le64_byteAt S i).symm,
    byteAt_eight_mul S (i := 23) (by decide)⟩

/-! ## `STATUS` -/

section Status
variable {ctx n : Nat} (s : State) (b : Byte)

theorem runPrg_withStatus (f : List Byte → PrgCtx → Except Status (PrgCtx × List Byte)) :
    runPrg ctx n f { s with status := b } = runPrg ctx n f s := by
  cases hc : s.prg[ctx]? with
  | none => rw [runPrg_outOfRange (s := { s with status := b }) f hc, runPrg_outOfRange f hc]; rfl
  | some c =>
    obtain hn | hn := Nat.lt_or_ge s.din.length n
    · rw [runPrg_underrun (s := { s with status := b }) f hc hn, runPrg_underrun f hc hn]
    · rw [runPrg_take (s := { s with status := b }) f hc hn, runPrg_take f hc hn]
      cases f (s.din.take n) c <;> rfl

theorem runHash_withStatus (f : List Byte → HashCtx → Except Status (HashCtx × List Byte)) :
    runHash ctx n f { s with status := b } = runHash ctx n f s := by
  cases hh : s.hash[ctx]? with
  | none => rw [runHash_outOfRange (s := { s with status := b }) f hh, runHash_outOfRange f hh]; rfl
  | some h =>
    obtain hn | hn := Nat.lt_or_ge s.din.length n
    · rw [runHash_underrun (s := { s with status := b }) f hh hn, runHash_underrun f hh hn]
    · rw [runHash_take (s := { s with status := b }) f hh hn, runHash_take f hh hn]
      cases f (s.din.take n) h <;> rfl

theorem runPure_withStatus (f : List Byte → List Byte) :
    runPure n f { s with status := b } = runPure n f s := by
  obtain hn | hn := Nat.lt_or_ge s.din.length n
  · rw [runPure_underrun (s := { s with status := b }) f hn, runPure_underrun f hn]
  · rw [runPure_take (s := { s with status := b }) f hn, runPure_take f hn]; rfl

end Status

/-- Settles O48: no command shape reads `STATUS`, and every end of a command writes it (R31). -/
theorem statusIsNeverRead : Obligations.StatusIsNeverRead := by
  intro i s b
  cases i with
  | bashs m1 n1 m2 n2 =>
    obtain h | ⟨f, h⟩ := execBashs_cases m1 n1 m2 n2
    · rw [exec, exec, h, h]; rfl
    · rw [exec, exec, h, h, runPure_withStatus]
  | bashf be =>
    obtain h | ⟨f, h⟩ := execBashf_cases be
    · rw [exec, exec, h, h]; rfl
    · rw [exec, exec, h, h, runPure_withStatus]
  | prgStart | prgRestart | prgAbsorb | prgSqueeze | prgEncrypt | prgDecrypt | prgRatchet =>
    rw [exec, exec]
    exact runPrg_withStatus s b _
  | prgClone dst src =>
    rw [exec, exec]
    cases hc : s.prg[src.toNat]? with
    | none => exact (execPrgClone_noSource hc).trans (execPrgClone_noSource hc).symm
    | some c =>
      rw [execPrgClone_source (s := { s with status := b }) hc, execPrgClone_source hc,
        runPrg_withStatus]
  | hashInit | hashReset | hashUpdate | hashDigest =>
    rw [exec, exec]
    exact runHash_withStatus s b _
  | hashClone dst src =>
    rw [exec, exec]
    cases hh : s.hash[src.toNat]? with
    | none => exact (execHashClone_noSource hh).trans (execHashClone_noSource hh).symm
    | some h =>
      rw [execHashClone_source (s := { s with status := b }) hh, execHashClone_source hh,
        runHash_withStatus]

end Sys2Proof.Machine
end

section
/-! The frame of memory: a byte written is seen in its word and nowhere else (R55), and a command
writes no context but its own (R67, R20). -/

namespace Sys2Proof.Machine

open Sys2Proof

/-! ## Bytes written and words read -/

/-- Byte `j` of word `i` is byte `8·i + j` of the State (R21). -/
theorem byteAt_eight_mul_add (S : Sponge) (i : Nat) {j : Nat} (hj : j < 8) :
    byteAt S (8 * i + j) = (S.getD i 0).extractLsb' (8 * j) 8 := by
  rw [byteAt, byteOf, Nat.mul_add_div (by decide), Nat.div_eq_of_lt hj, Nat.mul_add_mod,
    Nat.mod_eq_of_lt hj, Nat.add_zero]

/-- The spec of writing one byte. -/
theorem byteAt_memWrite_singleton (o : Nat) (v : Byte) (S : Sponge) {k : Nat} (hk : k < 192) :
    byteAt (memWrite o [v] S) k = if k = o then v else byteAt S k := by
  rw [byteAt_memWrite _ _ _ hk]
  by_cases h : k = o
  · subst h; simp
  · rw [if_neg h, if_neg (by simp only [List.length_singleton]; omega)]

/-- Settles O13: a byte of a word is a byte of the State, and one byte of the State is written. -/
theorem byteWriteSeenByWordRead : Obligations.ByteWriteSeenByWordRead := by
  intro S k v _ i hi j hj
  rw [← byteAt_eight_mul_add _ i hj, ← byteAt_eight_mul_add _ i hj,
    byteAt_memWrite_singleton _ _ _ (by omega)]

/-! ## The contexts a command writes -/

/-- From `s` to `t` at most the named automaton context and the named hash context change; the
parameters, the numbers of contexts among them, do not. -/
structure ChangesOnly (prgCtx hashCtx : Option Nat) (s t : State) : Prop where
  params : t.params = s.params
  prg : ∀ j, prgCtx ≠ some j → t.prg[j]? = s.prg[j]?
  hash : ∀ j, hashCtx ≠ some j → t.hash[j]? = s.hash[j]?

section Frame
variable {ctx n : Nat} {s t : State} {prgCtx hashCtx : Option Nat}

/-- A fault leaves the contexts alone (R203). -/
theorem raiseFault_changesOnly (k : Status) (s : State) (bytes : List Byte) :
    ChangesOnly prgCtx hashCtx s (raiseFault k { s with din := bytes }) :=
  ⟨rfl, fun _ _ => rfl, fun _ _ => rfl⟩

/-- InvalidCommand leaves the contexts alone (R207). -/
theorem raiseInvalidCommand_changesOnly (s : State) :
    ChangesOnly prgCtx hashCtx s (raiseInvalidCommand s) :=
  ⟨rfl, fun _ _ => rfl, fun _ _ => rfl⟩

/-- A command on the scratch file leaves the contexts alone (R23). -/
theorem runPure_changesOnly {f : List Byte → List Byte} (h : runPure n f s = .next t) :
    ChangesOnly prgCtx hashCtx s t := by
  obtain ⟨-, rfl⟩ := runPure_cases h
  exact ⟨rfl, fun _ _ => rfl, fun _ _ => rfl⟩

/-- A command on an automaton context changes that context at most. -/
theorem runPrg_changesOnly {f : List Byte → PrgCtx → Except Status (PrgCtx × List Byte)}
    (h : runPrg ctx n f s = .next t) : ChangesOnly (some ctx) hashCtx s t := by
  obtain ⟨-, rfl⟩ | ⟨c, -, -, rfl⟩ := runPrg_cases h
  · exact raiseInvalidCommand_changesOnly s
  cases f (s.din.take n) c with
  | error k => exact raiseFault_changesOnly k s _
  | ok r =>
    exact {
      params := by simp [State.params]
      prg := fun j hj => List.getElem?_set_ne fun he => hj (congrArg some he)
      hash := fun _ _ => rfl }

/-- A command on a hash context changes that context at most. -/
theorem runHash_changesOnly {f : List Byte → HashCtx → Except Status (HashCtx × List Byte)}
    (h : runHash ctx n f s = .next t) : ChangesOnly prgCtx (some ctx) s t := by
  obtain ⟨-, rfl⟩ | ⟨c, -, -, rfl⟩ := runHash_cases h
  · exact raiseInvalidCommand_changesOnly s
  cases f (s.din.take n) c with
  | error k => exact raiseFault_changesOnly k s _
  | ok r =>
    exact {
      params := by simp [State.params]
      prg := fun _ _ => rfl
      hash := fun j hj => List.getElem?_set_ne fun he => hj (congrArg some he) }

/-- HASH.DIGEST works on a copy of its context and answers the context itself (R176). -/
theorem digest_keeps_context {ow : Bool} {c : HashCtx} {r : HashCtx × List Byte}
    (h : c.digest ow = .ok r) : r.1 = c := by
  unfold HashCtx.digest at h
  split_ifs at h
  cases h
  rfl

/-- A command whose operation answers its context as it was changes no hash context. -/
theorem runHash_keeps_hash {f : List Byte → HashCtx → Except Status (HashCtx × List Byte)}
    (hf : ∀ X c r, f X c = .ok r → r.1 = c) (h : runHash ctx n f s = .next t) :
    t.hash = s.hash := by
  obtain ⟨-, rfl⟩ | ⟨c, hc, -, rfl⟩ := runHash_cases h
  · rfl
  cases hr : f (s.din.take n) c with
  | error k => rfl
  | ok r =>
    obtain ⟨hlt, rfl⟩ := List.getElem?_eq_some_iff.mp hc
    rw [settleHash_ok, finish_hash, setHash_hash, hf _ _ _ hr]
    exact List.set_getElem_self hlt

/-- HASH.DIGEST leaves every context alone (R176). -/
theorem execHashDigest_changesOnly {c : Byte} (h : execHashDigest c s = .next t) :
    ChangesOnly prgCtx hashCtx s t := by
  have hkeep : t.hash = s.hash := runHash_keeps_hash (fun _ _ _ => digest_keeps_context) h
  obtain ⟨hparams, hprg, -⟩ := runHash_changesOnly (prgCtx := none) h
  exact ⟨hparams, fun j _ => hprg j nofun, fun j _ => by rw [hkeep]⟩

/-- A command changes at most the context it writes (R76). -/
theorem exec_changesOnly {i : Instr} (h : exec i s = .next t) :
    ChangesOnly (Spec.prgTarget i) (Spec.hashTarget i) s t := by
  cases i with
  | bashs m1 n1 m2 n2 =>
    rw [exec] at h
    obtain hb | ⟨f, hb⟩ := execBashs_cases m1 n1 m2 n2
    · cases (hb s).symm.trans h
      exact raiseInvalidCommand_changesOnly s
    · exact runPure_changesOnly ((hb s).symm.trans h)
  | bashf be =>
    rw [exec] at h
    obtain hb | ⟨f, hb⟩ := execBashf_cases be
    · cases (hb s).symm.trans h
      exact raiseInvalidCommand_changesOnly s
    · exact runPure_changesOnly ((hb s).symm.trans h)
  | prgStart | prgRestart | prgAbsorb | prgSqueeze | prgEncrypt | prgDecrypt | prgRatchet =>
    rw [exec] at h
    exact runPrg_changesOnly h
  | prgClone dst src =>
    rw [exec] at h
    cases hsrc : s.prg[src.toNat]? with
    | none =>
      cases (execPrgClone_noSource hsrc).symm.trans h
      exact raiseInvalidCommand_changesOnly s
    | some c =>
      rw [execPrgClone_source hsrc] at h
      exact runPrg_changesOnly h
  | hashInit | hashReset | hashUpdate =>
    rw [exec] at h
    exact runHash_changesOnly h
  | hashDigest =>
    rw [exec] at h
    exact execHashDigest_changesOnly h
  | hashClone dst src =>
    rw [exec] at h
    cases hsrc : s.hash[src.toNat]? with
    | none =>
      cases (execHashClone_noSource hsrc).symm.trans h
      exact raiseInvalidCommand_changesOnly s
    | some c =>
      rw [execHashClone_source hsrc] at h
      exact runHash_changesOnly h

end Frame

/-- Settles O45: `exec_changesOnly`, the frame taken apart. -/
theorem commandsTouchOnlyTheirContext : Obligations.CommandsTouchOnlyTheirContext := by
  intro i s t h
  obtain ⟨hparams, hprg, hhash⟩ := exec_changesOnly h
  exact ⟨hparams, hprg, hhash⟩

end Sys2Proof.Machine
end

section
/-! The decoder against the encoder and against R77 (R71, R73, R76, R77): a well-formed command is
read back from its encoding, a legal descriptor is its command's encoding, and the decoder refuses
exactly the descriptors R77 calls illegal. -/

namespace Sys2Proof

open Sys2Proof.Machine Sys2Proof.Spec

/-! ## Decoding an encoded command -/

/-- The two amounts packed in `P2` are read back (R73). -/
theorem unpack_pack_P2 (n m : Byte) :
    (n ++ m : BitVec 16).extractLsb' 0 8 = m ∧ (n ++ m : BitVec 16).extractLsb' 8 8 = n :=
  ⟨BitVec.extractLsb'_append_eq_right, BitVec.extractLsb'_append_eq_left⟩

/-- `P2` is the two amounts it packs (R73). -/
theorem pack_unpack_P2 (p2 : BitVec 16) :
    (p2.extractLsb' 8 8 ++ p2.extractLsb' 0 8 : BitVec 16) = p2 :=
  (BitVec.extractLsb'_append_extractLsb'_eq_extractLsb' rfl).trans BitVec.extractLsb'_eq_self

/-- An encoded command carries its opcode and zeros in every field its row of R76 does not use. -/
theorem encode_fields : ∀ i : Instr, Laws.EncodeFields.Statement i
  | .bashs _ _ _ _ => Laws.EncodeFields.bashs _ _ _ _
  | .bashf _ => Laws.EncodeFields.bashf _
  | .prgStart _ _ _ _ _ => Laws.EncodeFields.prgStart _ _ _ _ _
  | .prgRestart _ _ _ => Laws.EncodeFields.prgRestart _ _ _
  | .prgAbsorb _ _ => Laws.EncodeFields.prgAbsorb _ _
  | .prgSqueeze _ _ => Laws.EncodeFields.prgSqueeze _ _
  | .prgEncrypt _ _ => Laws.EncodeFields.prgEncrypt _ _
  | .prgDecrypt _ _ => Laws.EncodeFields.prgDecrypt _ _
  | .prgRatchet _ => Laws.EncodeFields.prgRatchet _
  | .prgClone _ _ => Laws.EncodeFields.prgClone _ _
  | .hashInit _ _ => Laws.EncodeFields.hashInit _ _
  | .hashReset _ => Laws.EncodeFields.hashReset _
  | .hashUpdate _ _ => Laws.EncodeFields.hashUpdate _ _
  | .hashDigest _ => Laws.EncodeFields.hashDigest _
  | .hashClone _ _ => Laws.EncodeFields.hashClone _ _

/-- The operands of a command are read back from its encoding (R76). -/
theorem operandsOf_encode (i : Instr) : operandsOf (encode i) i.op = i := by
  cases i with
  | bashs m1 n1 m2 n2 => simp [operandsOf, Instr.op, encode, unpack_pack_P2 n2 m2]
  | bashf | prgStart | prgRestart | prgAbsorb | prgSqueeze | prgEncrypt | prgDecrypt | prgRatchet
  | prgClone | hashInit | hashReset | hashUpdate | hashDigest | hashClone =>
    simp [operandsOf, Instr.op, encode]

/-- With the opcode known, the must-be-zero fields at zero and no defect in the operands, the
decoder answers the command (R77): the converse of `decode_eq_ok`. -/
theorem decode_legal {p : Params} {d : Descriptor} {op : Op} (hop : opOfByte (fieldOp d) = some op)
    (hrsv : fieldRsv d = 0) (hmbz : (mbzFields op).all (Field.isZero d) = true)
    (hdef : (operandsOf d op).defect p = none) : decode p d = .ok (operandsOf d op) := by
  simp [decode, hop, hrsv, hmbz, hdef]

/-- Settles O1: the encoding passes the tests on its fields (`encode_fields`), and its operands are
read back (`operandsOf_encode`). -/
theorem decodeEncodeRoundTrip : Obligations.DecodeEncodeRoundTrip := by
  intro p i hi
  obtain ⟨hop, hrsv, hmbz⟩ := encode_fields i
  have hop' : opOfByte (fieldOp (encode i)) = some i.op := by rw [hop, opOfByte_code]
  have hdef : (operandsOf (encode i) i.op).defect p = none := by
    rw [operandsOf_encode, (wellFormed_iff p i).mp hi]
  rw [decode_legal hop' hrsv hmbz hdef, operandsOf_encode]

/-! ## Encoding a decoded command -/

/-- A descriptor with an operation's opcode, and with zeros where its row of R76 wants them, is put
together again from the operation's operands. -/
theorem encode_operandsOf {d : Descriptor} {op : Op} (hop : op.code = fieldOp d)
    (hrsv : fieldRsv d = 0) (hmbz : (mbzFields op).all (Field.isZero d) = true) :
    encode (operandsOf d op) = d := by
  refine Eq.trans ?_ (descriptor_fields d)
  rw [← hop, hrsv]
  cases op with
  | bashs =>
    simp [mbzFields, Field.isZero] at hmbz
    simp [operandsOf, encode, hmbz, pack_unpack_P2]
  | bashf | prgStart | prgRestart | prgAbsorb | prgSqueeze | prgEncrypt | prgDecrypt | prgRatchet
  | prgClone | hashInit | hashReset | hashUpdate | hashDigest | hashClone =>
    simp [mbzFields, Field.isZero] at hmbz
    simp [operandsOf, encode, hmbz]

/-- Settles O2: a legal descriptor passes the tests `encode_operandsOf` asks for. -/
theorem legalDescriptorIsItsCommandsEncoding :
    Obligations.LegalDescriptorIsItsCommandsEncoding := by
  intro p d i h
  obtain ⟨op, hop, hrsv, hmbz, rfl, -⟩ := decode_eq_ok h
  exact encode_operandsOf (code_of_opOfByte hop) hrsv hmbz

/-! ## The illegal descriptors -/

/-- The opcode map answers nothing exactly on the bytes R75 does not list. -/
theorem opOfByte_eq_none_iff (b : Byte) :
    opOfByte b = none ↔ b ∉ [0x01, 0x02] ++ prgOps ++ hashOps := by
  constructor
  · intro h hb
    fin_cases hb <;> cases h
  · intro hb
    cases h : opOfByte b with
    | none => rfl
    | some op =>
      obtain rfl := code_of_opOfByte h
      cases op <;> exact absurd (by decide) hb

/-- R76's table of must-be-zero fields by its columns is the table by its rows. -/
theorem mbzBroken_iff {d : Descriptor} {op : Op} (hop : op.code = fieldOp d) :
    mbzBroken d ↔ ¬(fieldRsv d = 0 ∧ (mbzFields op).all (Field.isZero d) = true) := by
  unfold mbzBroken
  rw [← hop]
  -- row by row: the columns that bind the opcode are the fields of its row
  cases op <;> simp [Op.code, mbzFields, Field.isZero] <;> tauto

/-- R77 (c), (d), (e): a context index out of range, `be` above 1, an amount above 64. -/
def operandBroken (p : Params) (d : Descriptor) : Prop :=
  (fieldOp d ∈ prgOps ∧ p.nprg ≤ (fieldCtx d).toNat) ∨
  (fieldOp d = 0x17 ∧ p.nprg ≤ (fieldP0 d).toNat) ∨
  (fieldOp d ∈ hashOps ∧ p.nhash ≤ (fieldCtx d).toNat) ∨
  (fieldOp d = 0x24 ∧ p.nhash ≤ (fieldP0 d).toNat) ∨
  (fieldOp d = 0x02 ∧ 1 < (fieldP0 d).toNat) ∨
  (fieldOp d = 0x01 ∧ (64 < (fieldP0 d).toNat ∨ 64 < (fieldP1 d).toNat ∨
    64 < (fieldP2 d).toNat % 256 ∨ 64 < (fieldP2 d).toNat / 256))

/-- The operand checks of the decoder are those of R77 (c), (d), (e). -/
theorem operandBroken_iff (p : Params) {d : Descriptor} {op : Op} (hop : op.code = fieldOp d) :
    operandBroken p d ↔ (operandsOf d op).defect p ≠ none := by
  unfold operandBroken
  rw [← hop]
  cases op with
  | bashs =>
    -- the high byte of `P2` is its quotient by 256
    have hp2 := (fieldP2 d).isLt
    simp [Op.code, prgOps, hashOps, operandsOf, Instr.defect, Nat.shiftRight_eq_div_pow]
    omega
  | prgClone | hashClone =>
    simp [Op.code, prgOps, hashOps, operandsOf, Instr.defect]
    omega
  | bashf | prgStart | prgRestart | prgAbsorb | prgSqueeze | prgEncrypt | prgDecrypt | prgRatchet
  | hashInit | hashReset | hashUpdate | hashDigest =>
    simp [Op.code, prgOps, hashOps, operandsOf, Instr.defect]

/-- The decoder refuses a descriptor or answers a command, and a command only where every test
passes. -/
theorem decode_error_iff (p : Params) {d : Descriptor} {op : Op}
    (hop : opOfByte (fieldOp d) = some op) :
    (∃ r, decode p d = .error r) ↔ mbzBroken d ∨ operandBroken p d := by
  rw [mbzBroken_iff (code_of_opOfByte hop), operandBroken_iff p (code_of_opOfByte hop)]
  cases hd : decode p d with
  | ok i =>
    obtain ⟨op', hop', hrsv, hmbz, rfl, hdef⟩ := decode_eq_ok hd
    obtain rfl := Option.some.inj (hop'.symm.trans hop)
    simp [hrsv, hmbz, hdef]
  | error r =>
    refine iff_of_true ⟨r, rfl⟩ ?_
    by_contra hlegal
    obtain ⟨hzero, hdef⟩ := not_or.mp hlegal
    obtain ⟨hrsv, hmbz⟩ := not_not.mp hzero
    exact nomatch hd.symm.trans (decode_legal hop hrsv hmbz (not_not.mp hdef))

/-- Settles O3: an unknown opcode is refused and illegal (R77 (a)); for a known one
`decode_error_iff` is the rest of R77. -/
theorem decoderRefusesExactlyIllegalDescriptors :
    Obligations.DecoderRefusesExactlyIllegalDescriptors := by
  intro p d
  have hillegal : illegal p d ↔
      opOfByte (fieldOp d) = none ∨ mbzBroken d ∨ operandBroken p d := by
    rw [opOfByte_eq_none_iff]
    rfl
  rw [hillegal]
  cases hop : opOfByte (fieldOp d) with
  | none => simp [decode, hop]
  | some op => simp [decode_error_iff p hop]

/-- Settles O4: the decoder evaluated on the four words. -/
theorem writtenOutWordsDecode : Obligations.WrittenOutWordsDecode := by
  unfold Obligations.WrittenOutWordsDecode
  decide

end Sys2Proof
end

section
/-! How a legal command ends (R31, R74, R77, R203): with a fault of its operation or with OK, in
both cases with its payload taken from DIN, never with InvalidCommand; the output an operation
answers has the length R74 gives it. -/

namespace Sys2Proof.Machine

open Sys2Proof

/-! ## What the operations on one context answer -/

/-- An operation answers a fault that is neither OK nor InvalidCommand, or, where `P` holds, `m`
bytes of output. -/
def Answers {α : Type} (P : Prop) (m : Nat) : Except Status (α × List Byte) → Prop
  | .error k => k ≠ .ok ∧ k ≠ .invalidCommand
  | .ok r => P → r.2.length = m

section Answers
variable {α : Type} {P : Prop} {m : Nat} {k : Status}

theorem answers_error (hok : k ≠ .ok := by decide) (hinv : k ≠ .invalidCommand := by decide) :
    Answers P m (.error k : Except Status (α × List Byte)) := ⟨hok, hinv⟩

theorem answers_ok_nil {a : α} : Answers P 0 (.ok (a, []) : Except Status (α × List Byte)) :=
  fun _ => rfl

/-- A check at the head of an operation, which goes on where the check finds nothing. -/
theorem answers_check {b : Prop} [Decidable b] {a : Except Status (α × List Byte)}
    (ha : ¬b → Answers P m a) (hok : k ≠ .ok := by decide)
    (hinv : k ≠ .invalidCommand := by decide) : Answers P m (if b then .error k else a) := by
  split
  · exact answers_error hok hinv
  · exact ha ‹_›

/-- A fault of the commit step is one an operation may answer (R132). -/
theorem answers_commit_error {code : Byte} {c : PrgCtx} (h : c.commit code = .error k) :
    Answers P m (.error k : Except Status (α × List Byte)) := by
  obtain ⟨-, he⟩ | ⟨-, ho⟩ := commit_cases code c
  · obtain rfl := Except.error.inj (he.symm.trans h)
    exact answers_error
  · exact nomatch ho.symm.trans h

end Answers

section Prg
variable {P : Prop} {c : PrgCtx} {n : Nat} {ann key data : List Byte}

theorem start_answers {l d : Nat} : Answers P 0 (c.start l d ann key) := by
  unfold PrgCtx.start
  split
  · exact answers_ok_nil
  · exact answers_error

theorem restart_answers : Answers P 0 (c.restart ann key) := by
  unfold PrgCtx.restart
  refine answers_check fun _ => answers_check fun _ => ?_
  split
  all_goals
    split
    · exact answers_commit_error ‹_›
    · exact answers_ok_nil

theorem ratchet_answers : Answers P 0 c.ratchet := by
  unfold PrgCtx.ratchet
  refine answers_check fun _ => ?_
  split
  · exact answers_commit_error ‹_›
  · exact answers_ok_nil

/-! What a chunk loop puts out has the length its moves give it: `size k X` for `k` bytes of the
input `X`, where sizes add up along the input. -/

section Stream
variable {mv : Move} {size : Nat → List Byte → Nat}
  (hmove : ∀ k X S, (mv k (X.take k) S).2.length = size k X)
  (hadd : ∀ k n X, k ≤ n → size k X + size (n - k) (X.drop k) = size n X)
include hmove hadd

theorem streamLoop_out_length {fuel : Nat} (hc : 0 < c.bufLen) (hn : n ≤ fuel) :
    (streamLoop mv fuel n data c).2.length = size n data := by
  have hzero : ∀ X, size 0 X = 0 := fun X => by simpa using hadd 0 0 X (Nat.le_refl 0)
  induction fuel generalizing n data c with
  | zero =>
    obtain rfl : n = 0 := by omega
    simp [hzero]
  | succ fuel ih =>
    obtain rfl | hpos := Nat.eq_zero_or_pos n
    · simp [hzero]
    obtain hlt | hle := Nat.lt_or_ge n c.bufLen
    · rw [streamLoop_partial mv data hpos hlt (Nat.succ_pos fuel), hmove]
    · rw [streamLoop_full mv data hc hle, List.length_append, hmove, ih, hadd _ _ _ hle]
      · exact hc
      · omega

/-- A streaming command on a started context (R143): the commit step leaves `buf_len` above 0. -/
theorem stream_answers {code : Byte} (hstarted : c.started = true) :
    Answers c.Inv (size n data) (c.stream code mv n data) := by
  obtain ⟨-, he⟩ | ⟨-, ho⟩ := commit_cases code c
  · simp only [PrgCtx.stream, he]
    exact answers_error
  · simp only [PrgCtx.stream, ho]
    intro hinv
    obtain ⟨-, -, -, hpos⟩ := hinv hstarted
    exact streamLoop_out_length hmove hadd (Nat.zero_lt_of_lt hpos) (Nat.le_refl n)

end Stream

theorem absorb_answers : Answers c.Inv 0 (c.absorb n data) :=
  answers_check fun hstarted =>
    stream_answers (size := fun _ _ => 0) (fun _ _ _ => rfl) (fun _ _ _ _ => rfl)
      (Bool.eq_true_of_not_eq_false hstarted)

theorem squeeze_answers : Answers c.Inv n (c.squeeze n) :=
  answers_check fun hstarted =>
    stream_answers (size := fun k _ => k) (fun _ _ _ => memRead_length _ _ _)
      (fun _ _ _ => Nat.add_sub_cancel') (Bool.eq_true_of_not_eq_false hstarted)

/-- A text command on `n` bytes of data puts out as many, whichever way its move goes. -/
theorem text_answers {mv : Move} (hmove : ∀ k X S, (mv k X S).2.length = X.length)
    (hdata : data.length = n) (hstarted : c.started = true) :
    Answers c.Inv n (c.stream dcText mv n data) := by
  have h := stream_answers (c := c) (n := n) (data := data) (code := dcText) (mv := mv)
    (size := fun k X => min k X.length)
    (fun k X S => by rw [hmove, List.length_take])
    (fun k n X hk => by rw [List.length_drop]; omega) hstarted
  rwa [hdata, Nat.min_self] at h

theorem encrypt_answers (hdata : data.length = n) : Answers c.Inv n (c.encrypt n data) :=
  answers_check fun hstarted => answers_check fun _ =>
    text_answers (fun _ _ _ => memRead_length _ _ _) hdata (Bool.eq_true_of_not_eq_false hstarted)

theorem decrypt_answers (hdata : data.length = n) : Answers c.Inv n (c.decrypt n data) :=
  answers_check fun hstarted => answers_check fun _ =>
    text_answers (fun _ _ _ => memRead_length _ _ _) hdata (Bool.eq_true_of_not_eq_false hstarted)

end Prg

section Hash
variable {P : Prop} {ow : Bool} {h : HashCtx}

theorem init_answers {outLen : Nat} : Answers P 0 (h.init outLen) := by
  unfold HashCtx.init
  split
  · exact answers_ok_nil
  · exact answers_error

theorem resetCtx_answers : Answers P 0 h.resetCtx :=
  answers_check fun _ => answers_ok_nil

theorem update_answers {data : List Byte} : Answers P 0 (h.update ow data) :=
  answers_check fun _ => answers_ok_nil

theorem digest_answers : Answers P h.outLen (h.digest ow) :=
  answers_check fun _ _ => memRead_length _ _ _

end Hash

/-! ## How a legal command ends -/

/-- The ends of a command with `n` payload bytes that is not InvalidCommand: a fault, or OK with an
output, which from a block that meets the invariant is `m` bytes. -/
inductive Ending (n m : Nat) (s : State) : State → Prop
  | fault {k : Status} (hok : k ≠ .ok) (hinv : k ≠ .invalidCommand) :
      Ending n m s (raiseFault k { s with din := s.din.drop n })
  | done {prg : List PrgCtx} {hash : List HashCtx} {out : List Byte}
      (hout : s.Inv → out.length = m) :
      Ending n m s (State.finish { s with prg := prg, hash := hash, din := s.din.drop n } out)

section Ending
variable {ctx n m : Nat} {s t : State}

/-- A legal command does not end with InvalidCommand (R207). -/
theorem Ending.status_ne (h : Ending n m s t) : t.status ≠ Status.invalidCommand.code := by
  cases h with
  | fault _ hinv => exact fun he => hinv (Status.code_injective he)
  | done _ => exact (by decide : Status.ok.code ≠ Status.invalidCommand.code)

/-- A legal command takes its payload, whether it faults or not (R203 (c)). -/
theorem Ending.din (h : Ending n m s t) : t.din = s.din.drop n := by
  cases h <;> rfl

/-- A legal command puts out its output where it ends with OK, nothing where it faults (R203). -/
theorem Ending.dout (h : Ending n m s t) (hs : s.Inv) :
    ∃ out, t.dout = s.dout ++ out ∧ out.length = if t.status = 0 then m else 0 := by
  cases h with
  | fault hok _ =>
    refine ⟨[], (List.append_nil _).symm, (if_neg fun he => hok ?_).symm⟩
    exact (Status.code_eq_zero_iff _).mp he
  | done hout => exact ⟨_, rfl, by simp [Status.code, hout hs]⟩

theorem runPure_ending {f : List Byte → List Byte} (h : runPure n f s = .next t)
    (hf : ∀ X, (f X).length = m) : Ending n m s t := by
  obtain ⟨-, rfl⟩ := runPure_cases h
  exact .done fun _ => hf _

theorem runPrg_ending {f : List Byte → PrgCtx → Except Status (PrgCtx × List Byte)}
    (hctx : ctx < s.prg.length) (h : runPrg ctx n f s = .next t)
    (hf : ∀ X c, X.length = n → Answers c.Inv m (f X c)) : Ending n m s t := by
  obtain ⟨hnone, -⟩ | ⟨c, hc, hn, rfl⟩ := runPrg_cases h
  · simp [hctx] at hnone
  have ha := hf (s.din.take n) c (List.length_take_of_le hn)
  cases hr : f (s.din.take n) c with
  | error k =>
    obtain ⟨hok, hinv⟩ := hr ▸ ha
    exact .fault hok hinv
  | ok r =>
    rw [hr] at ha
    exact .done fun ⟨hprg, _, _⟩ => ha (hprg c (List.mem_of_getElem? hc))

theorem runHash_ending {f : List Byte → HashCtx → Except Status (HashCtx × List Byte)}
    (hctx : ctx < s.hash.length) (h : runHash ctx n f s = .next t)
    (hf : ∀ X c, s.hash[ctx]? = some c → Answers c.Inv m (f X c)) : Ending n m s t := by
  obtain ⟨hnone, -⟩ | ⟨c, hc, -, rfl⟩ := runHash_cases h
  · simp [hctx] at hnone
  have ha := hf (s.din.take n) c hc
  cases hr : f (s.din.take n) c with
  | error k =>
    obtain ⟨hok, hinv⟩ := hr ▸ ha
    exact .fault hok hinv
  | ok r =>
    rw [hr] at ha
    exact .done fun ⟨_, hhash, _⟩ => ha (hhash c (List.mem_of_getElem? hc))

theorem bashsBytes_length (a : Amounts) (X : List Byte) : (bashsBytes a X).length = 24 := by
  simp [bashsBytes, le64bytes]

theorem bashfBytes_length (be : Bool) (X : List Byte) : (bashfBytes be X).length = 192 :=
  bytesOfSponge_length _

/-- Every command without a defect has such an ending, with the lengths of R74. -/
theorem exec_ending {i : Instr} (hi : i.defect s.params = none) (h : exec i s = .next t) :
    Ending (payloadLen i) (outputLen s i) s t := by
  cases i with rw [exec] at h
  | bashs =>
    rw [execBashs_inRange s (check_of_no_defect hi)] at h
    exact runPure_ending h (bashsBytes_length _)
  | bashf =>
    rw [execBashf_inRange s (check_of_no_defect hi)] at h
    exact runPure_ending h (bashfBytes_length _)
  | prgStart => exact runPrg_ending (check_of_no_defect hi) h fun _ _ _ => start_answers
  | prgRestart => exact runPrg_ending (check_of_no_defect hi) h fun _ _ _ => restart_answers
  | prgAbsorb => exact runPrg_ending (check_of_no_defect hi) h fun _ _ _ => absorb_answers
  | prgSqueeze => exact runPrg_ending (check_of_no_defect hi) h fun _ _ _ => squeeze_answers
  | prgEncrypt => exact runPrg_ending (check_of_no_defect hi) h fun _ _ => encrypt_answers
  | prgDecrypt => exact runPrg_ending (check_of_no_defect hi) h fun _ _ => decrypt_answers
  | prgRatchet => exact runPrg_ending (check_of_no_defect hi) h fun _ _ _ => ratchet_answers
  | prgClone dst src =>
    obtain ⟨hdst, hsrc⟩ := check_of_no_defect hi
    rw [execPrgClone_inRange hsrc] at h
    exact runPrg_ending hdst h fun _ _ _ => answers_ok_nil
  | hashInit => exact runHash_ending (check_of_no_defect hi) h fun _ _ _ => init_answers
  | hashReset => exact runHash_ending (check_of_no_defect hi) h fun _ _ _ => resetCtx_answers
  | hashUpdate => exact runHash_ending (check_of_no_defect hi) h fun _ _ _ => update_answers
  | hashDigest ctx =>
    refine runHash_ending (check_of_no_defect hi) h fun X c hc => ?_
    rw [outputLen, hc]
    exact digest_answers
  | hashClone dst src =>
    obtain ⟨hdst, hsrc⟩ := check_of_no_defect hi
    rw [execHashClone_inRange hsrc] at h
    exact runHash_ending hdst h fun _ _ _ => answers_ok_nil

end Ending

/-- Settles O44: the two streams of `exec_ending`. -/
theorem payloadAndOutputLengths : Obligations.PayloadAndOutputLengths := by
  intro i s t hwf hs h
  have hend := exec_ending ((wellFormed_iff _ i).mp hwf) h
  exact ⟨hend.din, hend.dout hs⟩

/-- Settles O7: a decoded command does not end with InvalidCommand (`exec_ending`), so the
descriptor was illegal, and that fault breaks the stream. -/
theorem streamAfterInvalidCommandIsRefused : Obligations.StreamAfterInvalidCommandIsRefused := by
  intro s t h hstatus
  refine ⟨?_, fun _ => ⟨rfl, rfl⟩⟩
  obtain ⟨-, d, rest, -, ⟨i, hi, hexec⟩ | ⟨-, rfl⟩⟩ := step_cases h
  · obtain ⟨op, -, -, -, -, hdef⟩ := decode_eq_ok hi
    exact absurd hstatus (exec_ending (s := { s with din := rest }) hdef hexec).status_ne
  · exact step_streamBroken rfl


end Sys2Proof.Machine
end

section
/-! The BASHS command: a payload of words gives its words back, and the twelve lines of R100 are the
closed form of R101. -/

namespace Sys2Proof.Machine

open Sys2Proof Sys2Proof.Spec

@[simp] theorem le64bytes_length (w : Word) : (le64bytes w).length = 8 := by
  simp [le64bytes]

/-- Word 0 of a payload is put together from its first eight bytes (R74). -/
theorem payloadWord_append_zero (w : Word) (X : List Byte) :
    payloadWord (le64bytes w ++ X) 0 = w := by
  refine Eq.trans (le64_congr fun j hj => ?_) (le64_byteOf w)
  rw [Nat.mul_zero, Nat.zero_add, List.getD_append _ _ _ _ (by simpa using hj),
    le64bytes_getD w hj]

/-- The words after the first are those of the payload without its first eight bytes (R74). -/
theorem payloadWord_append_succ (w : Word) (X : List Byte) (i : Nat) :
    payloadWord (le64bytes w ++ X) (i + 1) = payloadWord X i := by
  refine le64_congr fun j _ => ?_
  have hk : 8 * (i + 1) + j = 8 * i + j + 8 := by omega
  rw [List.getD_append_right _ _ _ _ (by rw [le64bytes_length]; omega), le64bytes_length, hk,
    Nat.add_sub_cancel]

/-- A payload that carries words gives them back (R74); past its end it reads as zero. -/
theorem payloadWord_flatMap (ws : List Word) (i : Nat) :
    payloadWord (ws.flatMap le64bytes) i = ws.getD i 0 := by
  induction ws generalizing i with
  | nil => simp [payloadWord, le64]
  | cons w ws ih =>
    rw [List.flatMap_cons]
    cases i with
    | zero => exact payloadWord_append_zero w _
    | succ i => exact (payloadWord_append_succ w _ i).trans (ih i)

/-- The twelve lines of R100 compute the three words of R101. -/
theorem bashsWords_eq_bashsFn (m1 n1 m2 n2 : Nat) (a b c : Word) :
    bashsWords ⟨m1, n1, m2, n2⟩ ⟨a, b, c⟩ =
      ⟨(bashsFn m1 n1 m2 n2 a b c).1, (bashsFn m1 n1 m2 n2 a b c).2.1,
        (bashsFn m1 n1 m2 n2 a b c).2.2⟩ := rfl

/-- The body of BASHS on the bytes of three words (R103). -/
theorem bashsBytes_words (m1 n1 m2 n2 : Nat) (a b c : Word) :
    bashsBytes ⟨m1, n1, m2, n2⟩ ([a, b, c].flatMap le64bytes) =
      le64bytes (bashsFn m1 n1 m2 n2 a b c).1 ++ le64bytes (bashsFn m1 n1 m2 n2 a b c).2.1 ++
        le64bytes (bashsFn m1 n1 m2 n2 a b c).2.2 := by
  simp only [bashsBytes, payloadWord_flatMap]
  exact congrArg (fun t => le64bytes t.x0 ++ le64bytes t.x1 ++ le64bytes t.x2)
    (bashsWords_eq_bashsFn m1 n1 m2 n2 a b c)

/-- BASHS with an amount above 64 is InvalidCommand (R77, R103). -/
theorem execBashs_outOfRange {m1 n1 m2 n2 : Byte} (s : State)
    (h : 64 < m1.toNat ∨ 64 < n1.toNat ∨ 64 < m2.toNat ∨ 64 < n2.toNat) :
    execBashs m1 n1 m2 n2 s = .next (raiseInvalidCommand s) :=
  if_pos h

/-- Settles O14: amounts in range run the body on the three words (`bashsBytes_words`), the others
raise InvalidCommand. -/
theorem bashsResult : Obligations.BashsResult := by
  intro m1 n1 m2 n2 s a b c rest hdin
  refine ⟨fun hm1 hn1 hm2 hn2 => ?_, fun hbad => ?_⟩
  · have hpayload : s.din = [a, b, c].flatMap le64bytes ++ rest := by simp [hdin]
    have hlen : ([a, b, c].flatMap le64bytes).length = 24 := by simp
    rw [exec, execBashs_inRange s ⟨hm1, hn1, hm2, hn2⟩, ← hlen, runPure_run _ hpayload,
      bashsBytes_words]
    rfl
  · exact ⟨_, execBashs_outOfRange s hbad, rfl, rfl, rfl, rfl, rfl⟩

end Sys2Proof.Machine
end

section
/-! The round and the BASHF command (spec/41_bashf.md): the eight BASHS applications of a round work
on disjoint words, so every order gives the words of R101 (R114); and the 192 payload bytes of BASHF
are the 24 words of the State in order (R21, R117). -/

namespace Sys2Proof.Machine

open Sys2Proof Sys2Proof.Spec

/-! ## The eight slots of a round -/

/-- The layer's words are the transform's results on the slot's three words (R100, R101). -/
theorem layerWord_eq_bashsWords (S : Sponge) (j : Nat) :
    layerWord S j =
      let t := bashsWords (ROT.getD (j % 8) ⟨0, 0, 0, 0⟩)
        ⟨S.getD (j % 8) 0, S.getD (j % 8 + 8) 0, S.getD (j % 8 + 16) 0⟩
      if j / 8 = 0 then t.x0 else if j / 8 = 1 then t.x1 else t.x2 := rfl

/-- Slot `v` writes the three words `j` with `j mod 8 = v`, as R101 says, and no other (R114): word
`v`, `v + 8` or `v + 16` takes the first, second or third result. -/
theorem bashsSlot_getD (S : Sponge) (v : Fin 8) {j : Nat} (hj : j < 24) :
    (bashsSlot S v).getD j 0 = if j % 8 = v.val then layerWord S j else S.getD j 0 := by
  by_cases hv : j % 8 = v.val
  · have h0 : v.val < 24 := by omega
    have h8 : v.val + 8 < 24 := by omega
    have h16 : v.val + 16 < 24 := by omega
    rw [if_pos hv, layerWord_eq_bashsWords, hv]
    obtain ⟨hw, hrow⟩ | ⟨hw, hrow⟩ | ⟨hw, hrow⟩ :
        (j = v.val ∧ j / 8 = 0) ∨ (j = v.val + 8 ∧ j / 8 = 1) ∨ (j = v.val + 16 ∧ j / 8 = 2) := by
      omega
    all_goals
      rw [hrow, hw]
      simp [bashsSlot, Vector.getD, h0, h8, h16]
  · have h0 : v.val ≠ j := by omega
    have h8 : v.val + 8 ≠ j := by omega
    have h16 : v.val + 16 ≠ j := by omega
    simp [bashsSlot, Vector.getD, hv, hj, h0, h8, h16]

/-- A word of the layer depends on the three words of its slot alone (R114). -/
theorem layerWord_congr {S T : Sponge} {j : Nat}
    (h : ∀ k < 24, k % 8 = j % 8 → S.getD k 0 = T.getD k 0) : layerWord S j = layerWord T j := by
  have h0 := h (j % 8) (by omega) (by omega)
  have h8 := h (j % 8 + 8) (by omega) (by omega)
  have h16 := h (j % 8 + 16) (by omega) (by omega)
  simp only [layerWord, h0, h8, h16]

/-- After any distinct slots, in any order, the words of those slots are the layer's and the others
are unchanged: a slot leaves what the others read (R114). -/
theorem foldl_bashsSlot_getD {order : List (Fin 8)} (hnd : order.Nodup) (S : Sponge) {j : Nat}
    (hj : j < 24) :
    (order.foldl bashsSlot S).getD j 0 =
      if Fin.ofNat 8 j ∈ order then layerWord S j else S.getD j 0 := by
  induction order generalizing S with
  | nil => simp
  | cons v vs ih =>
    obtain ⟨hv, hvs⟩ := List.nodup_cons.mp hnd
    have hslot : Fin.ofNat 8 j = v ↔ j % 8 = v.val := Fin.ext_iff
    rw [List.foldl_cons, ih hvs, bashsSlot_getD S v hj]
    by_cases hjv : Fin.ofNat 8 j = v
    · -- the slot of `j` runs now and not again
      rw [if_neg (hjv ▸ hv), if_pos (hslot.mp hjv), if_pos (hjv ▸ List.mem_cons_self)]
    · -- the slot of `j` is another one, and reads nothing that slot `v` writes
      have hread : layerWord (bashsSlot S v) j = layerWord S j :=
        layerWord_congr fun k hk hkj => by
          rw [bashsSlot_getD S v hk, if_neg (by rw [hkj]; exact mt hslot.mpr hjv)]
      simp only [hread, mt hslot.mpr hjv, if_false, List.mem_cons, hjv, false_or]

/-- All eight slots, in any order, give every word of the layer (R114). -/
theorem foldl_bashsSlot_getD_of_perm {order : List (Fin 8)} (h : order.Perm (List.finRange 8))
    (S : Sponge) {j : Nat} (hj : j < 24) :
    (order.foldl bashsSlot S).getD j 0 = layerWord S j := by
  rw [foldl_bashsSlot_getD (h.nodup_iff.mpr (List.nodup_finRange 8)) S hj,
    if_pos (h.mem_iff.mpr (List.mem_finRange _))]

/-- Word `i` after the shuffle is word `PERM[i]` before it (R113). -/
theorem shuffle_getD (S : Sponge) {i : Nat} (hi : i < 24) :
    (shuffle S).getD i 0 = S.getD (PERM.getD i 0) 0 := by
  simp [shuffle, Vector.getD, hi]

/-- The round constant goes into word 23 and no other (R114). -/
theorem addConstant_getD (r : Nat) (S : Sponge) {i : Nat} (hi : i < 24) :
    (addConstant r S).getD i 0 = if i = 23 then S.getD i 0 ^^^ RC.getD r 0 else S.getD i 0 := by
  by_cases h : i = 23
  · subst h; simp [addConstant, Vector.getD]
  · simp [addConstant, Vector.getD, hi, h, Ne.symm h]

/-- The shuffle reads words of the State only (R113). -/
theorem PERM_getD_lt {i : Nat} (hi : i < 24) : PERM.getD i 0 < 24 := by
  revert i; decide

/-- Settles O15: a round is its three stages word by word, and every order of the slots gives the
layer's words. -/
theorem roundWordByWord : Obligations.RoundWordByWord := by
  refine ⟨fun S r i _ hi => ?_, fun order S horder => ?_⟩
  · rw [bashRound, addConstant_getD r _ hi, shuffle_getD _ hi, bashsLayer,
      foldl_bashsSlot_getD_of_perm (.refl _) S (PERM_getD_lt hi)]
  · ext1 j hj
    have hword := (foldl_bashsSlot_getD_of_perm horder S hj).trans
      (foldl_bashsSlot_getD_of_perm (.refl _) S hj).symm
    simpa [Vector.getD, hj, bashsLayer] using hword

/-! ## The BASHF command -/

/-- A 192-byte payload is read as its words (R21, R117). -/
theorem spongeOfBytes_eq_wordsLE (X : List Byte) : spongeOfBytes X = wordsLE X := rfl

/-- The bytes of the first `n` words are the first `8·n` bytes (R21). -/
theorem map_byteAt_range (S : Sponge) (n : Nat) :
    (List.range (8 * n)).map (byteAt S) =
      (List.range n).flatMap fun i => le64bytes (S.getD i 0) := by
  induction n with
  | zero => rfl
  | succ n ih =>
    have hword : ((List.range 8).map (8 * n + ·)).map (byteAt S) = le64bytes (S.getD n 0) := by
      rw [List.map_map, le64bytes]
      exact List.map_congr_left fun j hj => byteAt_eight_mul_add S n (List.mem_range.mp hj)
    rw [Nat.mul_succ, List.range_add, List.map_append, ih, hword, List.range_succ,
      List.flatMap_append, List.flatMap_singleton]

/-- The words of a State in order (R20). -/
theorem sponge_toList (S : Sponge) : S.toList = (List.range 24).map fun i => S.getD i 0 := by
  apply List.ext_getElem
  · simp
  · intro i hi _
    rw [Vector.length_toList] at hi
    simp [Vector.getD, hi]

/-- The 192 bytes of a State are those of its words in order (R21). -/
theorem bytesOfSponge_eq_bytesLE (S : Sponge) : bytesOfSponge S = bytesLE S := by
  rw [bytesLE, sponge_toList, List.flatMap_map, ← map_byteAt_range, bytesOfSponge, memRead]
  simp only [Nat.zero_add]

/-- Rounds 0 to 23, with the words swapped before and after them when `be` is 1 (R115). -/
theorem bashfBytes_eq_bytesLE {be : Byte} (X : List Byte) :
    bashfBytes (be == 1) X = bytesLE
      (if be = 1 then ((List.range 24).foldl bashRound ((wordsLE X).map bswap64)).map bswap64
        else (List.range 24).foldl bashRound (wordsLE X)) := by
  rw [bashfBytes, bytesOfSponge_eq_bytesLE, spongeOfBytes_eq_wordsLE]
  by_cases h : be = 1
  · rw [if_pos h, beq_iff_eq.mpr h]; rfl
  · rw [if_neg h, beq_eq_false_iff_ne.mpr h]; rfl

/-- BASHF with a flag above 1 is InvalidCommand (R77, R117). -/
theorem execBashf_outOfRange {be : Byte} (s : State) (h : 1 < be.toNat) :
    execBashf be s = .next (raiseInvalidCommand s) :=
  if_pos h

/-- Settles O17: a flag in range runs the permutation on the payload's words
(`bashfBytes_eq_bytesLE`), the others raise InvalidCommand. -/
theorem bashfResult : Obligations.BashfResult := by
  intro be s X rest hlen hdin
  refine ⟨fun hbe => ?_, fun hbe => ?_⟩
  · rw [exec, execBashf_inRange s hbe, ← hlen, runPure_run _ hdin, bashfBytes_eq_bytesLE]
    rfl
  · exact ⟨_, execBashf_outOfRange s hbe, rfl, rfl, rfl, rfl, rfl⟩

/-! ## The tables -/

/-- The header byte is the two lengths in units of 4 bytes, a nibble each (R131). -/
theorem header_nibbles {a k : Nat} (ha4 : 4 ∣ a) (ha : a ≤ 60) (hk : k ≤ 60) :
    header a k = BitVec.ofNat 4 (a / 4) ++ BitVec.ofNat 4 (k / 4) := by
  obtain ⟨m, rfl⟩ := ha4
  apply BitVec.eq_of_toNat_eq
  rw [BitVec.toNat_append, header, BitVec.toNat_ofNat, BitVec.toNat_ofNat, BitVec.toNat_ofNat,
    ← Nat.shiftLeft_add_eq_or_of_lt (Nat.mod_lt _ (by decide)), Nat.shiftLeft_eq]
  omega

/-- Settles O16: the tables are closed data, and the header is `header_nibbles`. -/
theorem tablesPassTheirChecks : Obligations.TablesPassTheirChecks :=
  ⟨rfl, rfl, by decide, rfl, rfl, by decide, by decide, by decide, by decide,
    fun _ _ ha4 ha _ hk => header_nibbles ha4 ha hk⟩

end Sys2Proof.Machine
end

section
/-! Laws of the automaton's operations on one context, check by check (R132 to R141): a passed commit
step, the length checks, the keyed test, and what each operation answers on a started context. -/

namespace Sys2Proof.Machine

open Sys2Proof Sys2Proof.Spec

/-! ## The commit step -/

/-- The context a commit step that passes leaves: the State of R132, the cursor at 0. -/
def PrgCtx.afterCommit (code : Byte) (c : PrgCtx) : PrgCtx :=
  { c with S := committed code c, pos := 0 }

section Commit
variable {c : PrgCtx} {code : Byte} {n : Nat} {input : List Byte}

@[simp] theorem afterCommit_bufLen : (c.afterCommit code).bufLen = c.bufLen := by
  simp only [PrgCtx.afterCommit]
@[simp] theorem afterCommit_pos : (c.afterCommit code).pos = 0 := rfl
@[simp] theorem afterCommit_l : (c.afterCommit code).l = c.l := by
  simp only [PrgCtx.afterCommit]
@[simp] theorem afterCommit_d : (c.afterCommit code).d = c.d := by
  simp only [PrgCtx.afterCommit]

/-- The two XORs of the commit step, byte by byte, are those of R132, also where they meet in one
byte. -/
theorem permute_xorByte_eq_committed (code : Byte) (c : PrgCtx) :
    permute (xorByte c.bufLen prgMark (xorByte c.pos code c.S)) = committed code c := by
  refine congrArg permute (sponge_ext fun k hk => ?_)
  rw [byteAt_xorByte _ _ _ hk, byteAt_xorByte _ _ _ hk, byteAt_ofBytes _ hk]
  split_ifs <;> simp

theorem commit_inside (h : c.pos ≤ c.bufLen) : c.commit code = .ok (c.afterCommit code) := by
  rw [commit_ok code h, permute_xorByte_eq_committed]
  rfl

theorem commit_pastBuffer (h : c.bufLen < c.pos) :
    c.commit code = .error .internalConsistency := if_pos h

theorem stream_inside {mv : Move} (h : c.pos ≤ c.bufLen) :
    c.stream code mv n input = .ok (streamLoop mv n n input (c.afterCommit code)) := by
  rw [PrgCtx.stream, commit_inside h]

theorem stream_pastBuffer {mv : Move} (h : c.bufLen < c.pos) :
    c.stream code mv n input = .error .internalConsistency := by
  rw [PrgCtx.stream, commit_pastBuffer h]

end Commit

/-! ## The checks -/

theorem lengthsOk_iff (l a k : Nat) : lengthsOk l a k = true ↔ goodLengths l a k := by
  simp only [lengthsOk, Bool.and_eq_true, Bool.or_eq_true, beq_iff_eq, decide_eq_true_eq]
  omega

theorem goodLengths_iff_not_badLengths (l a k : Nat) : goodLengths l a k ↔ ¬badLengths l a k := by
  unfold badLengths
  omega

theorem levelOk_and_capacityOk_iff (l d : Nat) :
    (levelOk l && capacityOk d) = true ↔ goodLevel l d := by
  simp only [levelOk, capacityOk, Bool.and_eq_true, Bool.or_eq_true, beq_iff_eq, or_assoc]

/-- The keyed test is the equation of R133. -/
theorem keyed_iff (c : PrgCtx) : c.keyed = true ↔ 16 * (192 - c.bufLen) = c.l * (2 + c.d) :=
  beq_iff_eq

theorem keyed_eq_false_iff (c : PrgCtx) :
    c.keyed = false ↔ 16 * (192 - c.bufLen) ≠ c.l * (2 + c.d) :=
  beq_eq_false_iff_ne

/-- At the keyed length the test of R133 is true: `l·(2 + d)` is a multiple of 16 (R28). -/
theorem keyed_at_keyedBufLen {c : PrgCtx} (hlevel : goodLevel c.l c.d)
    (hlen : c.bufLen = keyedBufLen c.l c.d) : c.keyed = true := by
  rw [keyed_iff, hlen, keyedBufLen]
  obtain ⟨hl | hl | hl, hd | hd⟩ := hlevel <;> simp [hl, hd]

/-- At the unkeyed length it is false: `4·d ≠ 2 + d` (R28). -/
theorem not_keyed_at_unkeyedBufLen {c : PrgCtx} (hlevel : goodLevel c.l c.d)
    (hlen : c.bufLen = unkeyedBufLen c.l c.d) : c.keyed = false := by
  rw [keyed_eq_false_iff, hlen, unkeyedBufLen]
  obtain ⟨hl | hl | hl, hd | hd⟩ := hlevel <;> simp [hl, hd]

/-- Settles O27: the test's definition, and its value at the two lengths of R28. -/
theorem keyedTestReadsTheMode : Obligations.KeyedTestReadsTheMode :=
  fun c => ⟨keyed_iff c, fun hlevel =>
    ⟨keyed_at_keyedBufLen hlevel, not_keyed_at_unkeyedBufLen hlevel⟩⟩

/-! ## The operations on a started context -/

/-- The buffer length PRG.START fixes: the keyed one if a key is supplied (R135, R28). -/
def startBufLen (l d keyLen : Nat) : Nat :=
  if 0 < keyLen then keyedBufLen l d else unkeyedBufLen l d

section Operations
variable {c : PrgCtx} {n : Nat} {ann key data : List Byte}

theorem start_good {l d : Nat} (hlevel : goodLevel l d)
    (hlen : goodLengths l ann.length key.length) :
    c.start l d ann key =
      .ok ({ S := ofBytes (startBytes l d ann key), started := true, l := l, d := d
             bufLen := startBufLen l d key.length, pos := 1 + ann.length + key.length }, []) := by
  rw [← levelOk_and_capacityOk_iff] at hlevel
  rw [← lengthsOk_iff] at hlen
  rw [PrgCtx.start, hlevel, hlen]
  rfl

theorem start_bad {l d : Nat} (h : ¬(goodLevel l d ∧ goodLengths l ann.length key.length)) :
    c.start l d ann key = .error .invalidParameter := by
  rw [← levelOk_and_capacityOk_iff, ← lengthsOk_iff, ← Bool.and_eq_true] at h
  exact if_neg h

/-- The context PRG.RESTART leaves (R136): committed at the old `buf_len`, with the keyed `buf_len`
if a key is supplied, header, announcement and key mixed in. -/
def PrgCtx.restarted (ann key : List Byte) (c : PrgCtx) : PrgCtx :=
  PrgCtx.mixIn ann key
    { c.afterCommit (if 0 < key.length then dcKey else dcNull) with
      bufLen := if 0 < key.length then keyedBufLen c.l c.d else c.bufLen }

theorem restart_badLengths (hs : c.started = true) (h : ¬goodLengths c.l ann.length key.length) :
    c.restart ann key = .error .invalidParameter := by
  rw [← lengthsOk_iff, Bool.not_eq_true] at h
  simp [PrgCtx.restart, hs, h]

theorem restart_pastBuffer (hs : c.started = true) (h : goodLengths c.l ann.length key.length)
    (hpos : c.bufLen < c.pos) : c.restart ann key = .error .internalConsistency := by
  rw [← lengthsOk_iff] at h
  simp [PrgCtx.restart, hs, h, commit_pastBuffer hpos]

theorem restart_inside (hs : c.started = true) (h : goodLengths c.l ann.length key.length)
    (hpos : c.pos ≤ c.bufLen) : c.restart ann key = .ok (c.restarted ann key, []) := by
  rw [← lengthsOk_iff] at h
  by_cases hkey : 0 < key.length
  · simp [PrgCtx.restart, PrgCtx.restarted, hs, h, hkey, commit_inside hpos]
  · simp [PrgCtx.restart, PrgCtx.restarted, hs, h, hkey, commit_inside hpos, PrgCtx.afterCommit]

theorem absorb_started (hs : c.started = true) :
    c.absorb n data = c.stream dcData absorbMove n data := by
  simp [PrgCtx.absorb, hs]

theorem squeeze_started (hs : c.started = true) :
    c.squeeze n = c.stream dcOut squeezeMove n [] := by
  simp [PrgCtx.squeeze, hs]

theorem encrypt_unkeyed (hs : c.started = true) (hk : c.keyed = false) :
    c.encrypt n data = .error .modeError := by
  simp [PrgCtx.encrypt, hs, hk]

theorem encrypt_keyed (hs : c.started = true) (hk : c.keyed = true) :
    c.encrypt n data = c.stream dcText encryptMove n data := by
  simp [PrgCtx.encrypt, hs, hk]

theorem decrypt_unkeyed (hs : c.started = true) (hk : c.keyed = false) :
    c.decrypt n data = .error .modeError := by
  simp [PrgCtx.decrypt, hs, hk]

theorem decrypt_keyed (hs : c.started = true) (hk : c.keyed = true) :
    c.decrypt n data = c.stream dcText decryptMove n data := by
  simp [PrgCtx.decrypt, hs, hk]

theorem ratchet_pastBuffer (hs : c.started = true) (hpos : c.bufLen < c.pos) :
    c.ratchet = .error .internalConsistency := by
  simp [PrgCtx.ratchet, hs, commit_pastBuffer hpos]

theorem ratchet_inside (hs : c.started = true) (hpos : c.pos ≤ c.bufLen) :
    c.ratchet = .ok ({ c with S := xorSponge (committed dcNull c) c.S, pos := 0 }, []) := by
  simp [PrgCtx.ratchet, hs, commit_inside hpos, PrgCtx.afterCommit]

end Operations

end Sys2Proof.Machine
end

section
/-! The invariant of the block (R143, R26 to R28, R30, R201): every operation keeps the one of its
context and answers a legal code, so every command and every step keeps the block's. -/

namespace Sys2Proof.Machine

open Sys2Proof Sys2Proof.Spec

/-- An operation answers a context that meets its invariant, or a code a command may leave (R201). -/
def KeepsInv {α : Type} (Inv : α → Prop) : Except Status (α × List Byte) → Prop
  | .error k => LegalStatus k.code
  | .ok r => Inv r.1

section KeepsInv
variable {α : Type} {Inv : α → Prop}

theorem keepsInv_error {k : Status} (hk : LegalStatus k.code := by decide) :
    KeepsInv Inv (.error k) := hk

theorem keepsInv_ok {r : α × List Byte} (hr : Inv r.1) : KeepsInv Inv (.ok r) := hr

end KeepsInv

/-! ## The operations on an automaton context -/

/-- Header, announcement and key end before the buffer does, at the keyed length and, without a key,
at the unkeyed one (R143). -/
theorem material_fits {l d a k : Nat} (hlevel : goodLevel l d) (hlen : goodLengths l a k) :
    1 + a + k < keyedBufLen l d ∧ (k = 0 → 1 + a + k < unkeyedBufLen l d) := by
  obtain ⟨-, ha, -, hk, -⟩ := hlen
  unfold keyedBufLen unkeyedBufLen
  obtain ⟨rfl | rfl | rfl, rfl | rfl⟩ := hlevel <;> omega

section Prg
variable {c : PrgCtx} {n : Nat} {ann key data : List Byte}

theorem PrgCtx.Inv.level (hc : c.Inv) (hs : c.started = true) : goodLevel c.l c.d := by
  obtain ⟨hl, hd, -, -⟩ := hc hs
  exact ⟨hl, hd⟩

theorem PrgCtx.Inv.bufLen_eq (hc : c.Inv) (hs : c.started = true) :
    c.bufLen = unkeyedBufLen c.l c.d ∨ c.bufLen = keyedBufLen c.l c.d := by
  obtain ⟨-, -, hbuf, -⟩ := hc hs
  exact hbuf

theorem PrgCtx.Inv.pos_lt (hc : c.Inv) (hs : c.started = true) : c.pos < c.bufLen := by
  obtain ⟨-, -, -, hpos⟩ := hc hs
  exact hpos

/-- A context with the level and the buffer length of one that meets the invariant meets it as soon
as its cursor lies in the buffer. -/
theorem PrgCtx.Inv.of_level_eq {c' : PrgCtx} (hc : c.Inv) (hlevel : c'.level = c.level)
    (hbuf : c'.bufLen = c.bufLen) (hpos : c.started = true → c'.pos < c.bufLen) : c'.Inv := by
  obtain ⟨hs, hl, hd⟩ := (level_eq_iff c c').mp hlevel
  rw [PrgCtx.Inv, hs, hl, hd, hbuf]
  intro hstarted
  obtain ⟨hcl, hcd, hcbuf, -⟩ := hc hstarted
  exact ⟨hcl, hcd, hcbuf, hpos hstarted⟩

theorem start_keepsInv {l d : Nat} : KeepsInv PrgCtx.Inv (c.start l d ann key) := by
  by_cases h : goodLevel l d ∧ goodLengths l ann.length key.length
  · obtain ⟨hlevel, hlen⟩ := h
    obtain ⟨hkeyed, hunkeyed⟩ := material_fits hlevel hlen
    rw [start_good hlevel hlen]
    rintro -
    obtain ⟨hl, hd⟩ := hlevel
    refine ⟨hl, hd, ?_⟩
    simp only [startBufLen]
    split_ifs with hk
    · exact ⟨.inr rfl, hkeyed⟩
    · exact ⟨.inl rfl, hunkeyed (Nat.eq_zero_of_not_pos hk)⟩
  · rw [start_bad h]
    exact keepsInv_error

theorem restarted_inv (hc : c.Inv) (hs : c.started = true)
    (hlen : goodLengths c.l ann.length key.length) : (c.restarted ann key).Inv := by
  obtain ⟨hl, hd⟩ := hc.level hs
  obtain ⟨hkeyed, hunkeyed⟩ := material_fits ⟨hl, hd⟩ hlen
  simp only [PrgCtx.Inv, PrgCtx.restarted, PrgCtx.mixIn, afterCommit_l, afterCommit_d]
  rintro -
  refine ⟨hl, hd, ?_⟩
  split_ifs with hk
  · exact ⟨.inr rfl, hkeyed⟩
  · obtain hbuf | hbuf := hc.bufLen_eq hs
    · exact ⟨.inl hbuf, hbuf ▸ hunkeyed (Nat.eq_zero_of_not_pos hk)⟩
    · exact ⟨.inr hbuf, hbuf ▸ hkeyed⟩

theorem restart_keepsInv (hc : c.Inv) : KeepsInv PrgCtx.Inv (c.restart ann key) := by
  cases hs : c.started with
  | false => rw [restart_unstarted hs]; exact keepsInv_error
  | true =>
    by_cases hlen : goodLengths c.l ann.length key.length
    · rw [restart_inside hs hlen (hc.pos_lt hs).le]
      exact restarted_inv hc hs hlen
    · rw [restart_badLengths hs hlen]; exact keepsInv_error

/-- Each turn of the chunk loop ends with the cursor in the buffer: at 0 after a full chunk, at the
length of a shorter one (R143). -/
theorem streamLoop_pos_lt (mv : Move) {fuel : Nat} (h : c.pos < c.bufLen) :
    (streamLoop mv fuel n data c).1.pos < c.bufLen := by
  induction fuel generalizing n data c with
  | zero => exact h
  | succ fuel ih =>
    obtain rfl | hpos := Nat.eq_zero_or_pos n
    · rwa [streamLoop_done]
    obtain hlt | hle := Nat.lt_or_ge n c.bufLen
    · rwa [streamLoop_partial mv data hpos hlt (Nat.succ_pos fuel)]
    · rw [streamLoop_full mv data (Nat.zero_lt_of_lt h) hle]
      exact ih (Nat.zero_lt_of_lt h)

theorem stream_keepsInv {code : Byte} {mv : Move} (hc : c.Inv) (hs : c.started = true) :
    KeepsInv PrgCtx.Inv (c.stream code mv n data) := by
  have hpos := hc.pos_lt hs
  have hstream := stream_inside (code := code) (mv := mv) (n := n) (input := data) hpos.le
  obtain ⟨-, -, -, hbuf⟩ := streamLoop_frame mv n n data (c.afterCommit code)
  rw [hstream]
  refine hc.of_level_eq (stream_keeps_level hstream) (hbuf.trans afterCommit_bufLen) fun _ => ?_
  have hloop : (c.afterCommit code).pos < (c.afterCommit code).bufLen := by
    rw [afterCommit_pos, afterCommit_bufLen]; omega
  simpa only [afterCommit_bufLen] using streamLoop_pos_lt (n := n) (data := data) mv hloop

theorem absorb_keepsInv (hc : c.Inv) : KeepsInv PrgCtx.Inv (c.absorb n data) := by
  cases hs : c.started with
  | false => rw [absorb_unstarted hs]; exact keepsInv_error
  | true => rw [absorb_started hs]; exact stream_keepsInv hc hs

theorem squeeze_keepsInv (hc : c.Inv) : KeepsInv PrgCtx.Inv (c.squeeze n) := by
  cases hs : c.started with
  | false => rw [squeeze_unstarted hs]; exact keepsInv_error
  | true => rw [squeeze_started hs]; exact stream_keepsInv hc hs

theorem encrypt_keepsInv (hc : c.Inv) : KeepsInv PrgCtx.Inv (c.encrypt n data) := by
  cases hs : c.started with
  | false => rw [encrypt_unstarted hs]; exact keepsInv_error
  | true =>
    cases hk : c.keyed with
    | false => rw [encrypt_unkeyed hs hk]; exact keepsInv_error
    | true => rw [encrypt_keyed hs hk]; exact stream_keepsInv hc hs

theorem decrypt_keepsInv (hc : c.Inv) : KeepsInv PrgCtx.Inv (c.decrypt n data) := by
  cases hs : c.started with
  | false => rw [decrypt_unstarted hs]; exact keepsInv_error
  | true =>
    cases hk : c.keyed with
    | false => rw [decrypt_unkeyed hs hk]; exact keepsInv_error
    | true => rw [decrypt_keyed hs hk]; exact stream_keepsInv hc hs

theorem ratchet_keepsInv (hc : c.Inv) : KeepsInv PrgCtx.Inv c.ratchet := by
  cases hs : c.started with
  | false => rw [ratchet_unstarted hs]; exact keepsInv_error
  | true =>
    have hpos := hc.pos_lt hs
    have hratchet := ratchet_inside hs hpos.le
    rw [hratchet]
    exact hc.of_level_eq (ratchet_keeps_level hratchet) rfl fun _ => Nat.zero_lt_of_lt hpos

end Prg

/-! ## The operations on a hash context -/

section Hash
variable {h : HashCtx} {ow : Bool}

theorem init_keepsInv {outLen : Nat} : KeepsInv HashCtx.Inv (h.init outLen) := by
  unfold HashCtx.init
  split_ifs with hok
  · have hlen : outLen = 32 ∨ outLen = 48 ∨ outLen = 64 := by
      simpa only [outLenOk, Bool.or_eq_true, beq_iff_eq, or_assoc] using hok
    refine keepsInv_ok fun _ => ?_
    simp only [HashCtx.initial]
    refine ⟨hlen, trivial, ?_, List.length_replicate⟩
    rw [blockLenOf]
    omega
  · exact keepsInv_error

theorem initial_inv (hh : h.Inv) : h.initial.Inv := by
  simp only [HashCtx.Inv, HashCtx.initial]
  intro hc
  obtain ⟨hlen, hblock, hcur, -⟩ := hh hc
  exact ⟨hlen, hblock, Nat.zero_lt_of_lt hcur, List.length_replicate⟩

theorem resetCtx_keepsInv (hh : h.Inv) : KeepsInv HashCtx.Inv h.resetCtx := by
  unfold HashCtx.resetCtx
  split_ifs
  · exact keepsInv_error
  · exact initial_inv hh

theorem updateByte_inv (hh : h.Inv) (b : Byte) : (h.updateByte ow b).Inv := by
  obtain ⟨hcon, hout, hblk, -, hbuf⟩ := updateByte_frame ow h b
  rw [HashCtx.Inv, hcon, hout, hblk, hbuf]
  intro hc
  obtain ⟨hlen, hblock, hcur, hsize⟩ := hh hc
  refine ⟨hlen, hblock, ?_, hsize⟩
  by_cases hfull : h.hcur + 1 = h.blockLen
  · rw [updateByte_full ow h b hfull]
    exact Nat.zero_lt_of_lt hcur
  · rw [updateByte_partial ow h b hfull]
    exact Nat.lt_of_le_of_ne hcur hfull

theorem update_keepsInv {data : List Byte} (hh : h.Inv) :
    KeepsInv HashCtx.Inv (h.update ow data) := by
  unfold HashCtx.update
  split_ifs
  · exact keepsInv_error
  · have hfold : (data.foldl (HashCtx.updateByte ow) h).Inv :=
      List.foldlRecOn data _ hh fun _ hinv b _ => updateByte_inv hinv b
    exact hfold

theorem digest_keepsInv (hh : h.Inv) : KeepsInv HashCtx.Inv (h.digest ow) := by
  unfold HashCtx.digest
  split_ifs
  · exact keepsInv_error
  · exact hh

end Hash

/-! ## The block -/

section Block
variable {ctx n : Nat} {s t : State}

theorem State.Inv.prg_inv (hs : s.Inv) {c : PrgCtx} {j : Nat} (hc : s.prg[j]? = some c) :
    c.Inv := by
  obtain ⟨hprg, -, -⟩ := hs
  exact hprg c (List.mem_of_getElem? hc)

theorem State.Inv.hash_inv (hs : s.Inv) {h : HashCtx} {j : Nat} (hh : s.hash[j]? = some h) :
    h.Inv := by
  obtain ⟨-, hhash, -⟩ := hs
  exact hhash h (List.mem_of_getElem? hh)

theorem raiseFault_inv (hs : s.Inv) {k : Status} (hk : LegalStatus k.code) :
    (raiseFault k s).Inv := by
  obtain ⟨hprg, hhash, -⟩ := hs
  exact ⟨hprg, hhash, hk⟩

theorem raiseInvalidCommand_inv (hs : s.Inv) : (raiseInvalidCommand s).Inv := by
  obtain ⟨hprg, hhash, -⟩ := hs
  exact ⟨hprg, hhash, (by decide : LegalStatus Status.invalidCommand.code)⟩

theorem finish_inv (hs : s.Inv) (out : List Byte) : (s.finish out).Inv := by
  obtain ⟨hprg, hhash, -⟩ := hs
  exact ⟨hprg, hhash, (by decide : LegalStatus Status.ok.code)⟩

theorem setPrg_inv (hs : s.Inv) {c : PrgCtx} (hc : c.Inv) (i : Nat) : (s.setPrg i c).Inv := by
  obtain ⟨hprg, hrest⟩ := hs
  refine ⟨fun c' hc' => ?_, hrest⟩
  obtain hmem | rfl := List.mem_or_eq_of_mem_set hc'
  · exact hprg c' hmem
  · exact hc

theorem setHash_inv (hs : s.Inv) {h : HashCtx} (hh : h.Inv) (i : Nat) : (s.setHash i h).Inv := by
  obtain ⟨hprg, hhash, hstatus⟩ := hs
  refine ⟨hprg, fun h' hh' => ?_, hstatus⟩
  obtain hmem | rfl := List.mem_or_eq_of_mem_set hh'
  · exact hhash h' hmem
  · exact hh

theorem runPure_inv {f : List Byte → List Byte} (hs : s.Inv) (h : runPure n f s = .next t) :
    t.Inv := by
  obtain ⟨-, rfl⟩ := runPure_cases h
  exact finish_inv (s := { s with din := s.din.drop n }) hs _

theorem runPrg_inv {f : List Byte → PrgCtx → Except Status (PrgCtx × List Byte)} (hs : s.Inv)
    (h : runPrg ctx n f s = .next t) (hf : ∀ X c, c.Inv → KeepsInv PrgCtx.Inv (f X c)) :
    t.Inv := by
  obtain ⟨-, rfl⟩ | ⟨c, hc, -, rfl⟩ := runPrg_cases h
  · exact raiseInvalidCommand_inv hs
  have hkeeps := hf (s.din.take n) c (hs.prg_inv hc)
  cases hr : f (s.din.take n) c with rw [hr] at hkeeps
  | error k => exact raiseFault_inv (s := { s with din := _ }) hs hkeeps
  | ok r => exact finish_inv (setPrg_inv (s := { s with din := _ }) hs hkeeps ctx) r.2

theorem runHash_inv {f : List Byte → HashCtx → Except Status (HashCtx × List Byte)} (hs : s.Inv)
    (h : runHash ctx n f s = .next t) (hf : ∀ X c, c.Inv → KeepsInv HashCtx.Inv (f X c)) :
    t.Inv := by
  obtain ⟨-, rfl⟩ | ⟨c, hc, -, rfl⟩ := runHash_cases h
  · exact raiseInvalidCommand_inv hs
  have hkeeps := hf (s.din.take n) c (hs.hash_inv hc)
  cases hr : f (s.din.take n) c with rw [hr] at hkeeps
  | error k => exact raiseFault_inv (s := { s with din := _ }) hs hkeeps
  | ok r => exact finish_inv (setHash_inv (s := { s with din := _ }) hs hkeeps ctx) r.2

/-- Every command keeps the invariant. -/
theorem exec_inv {i : Instr} (hs : s.Inv) (h : exec i s = .next t) : t.Inv := by
  cases i with rw [exec] at h
  | bashs m1 n1 m2 n2 =>
    obtain hb | ⟨f, hb⟩ := execBashs_cases m1 n1 m2 n2
    · cases (hb s).symm.trans h
      exact raiseInvalidCommand_inv hs
    · exact runPure_inv hs ((hb s).symm.trans h)
  | bashf be =>
    obtain hb | ⟨f, hb⟩ := execBashf_cases be
    · cases (hb s).symm.trans h
      exact raiseInvalidCommand_inv hs
    · exact runPure_inv hs ((hb s).symm.trans h)
  | prgStart => exact runPrg_inv hs h fun _ _ _ => start_keepsInv
  | prgRestart => exact runPrg_inv hs h fun _ _ => restart_keepsInv
  | prgAbsorb => exact runPrg_inv hs h fun _ _ => absorb_keepsInv
  | prgSqueeze => exact runPrg_inv hs h fun _ _ => squeeze_keepsInv
  | prgEncrypt => exact runPrg_inv hs h fun _ _ => encrypt_keepsInv
  | prgDecrypt => exact runPrg_inv hs h fun _ _ => decrypt_keepsInv
  | prgRatchet => exact runPrg_inv hs h fun _ _ => ratchet_keepsInv
  | prgClone dst src =>
    cases hsrc : s.prg[src.toNat]? with
    | none =>
      cases (execPrgClone_noSource hsrc).symm.trans h
      exact raiseInvalidCommand_inv hs
    | some c =>
      rw [execPrgClone_source hsrc] at h
      exact runPrg_inv hs h fun _ _ _ => hs.prg_inv hsrc
  | hashInit => exact runHash_inv hs h fun _ _ _ => init_keepsInv
  | hashReset => exact runHash_inv hs h fun _ _ => resetCtx_keepsInv
  | hashUpdate => exact runHash_inv hs h fun _ _ => update_keepsInv
  | hashDigest => exact runHash_inv hs h fun _ _ => digest_keepsInv
  | hashClone dst src =>
    cases hsrc : s.hash[src.toNat]? with
    | none =>
      cases (execHashClone_noSource hsrc).symm.trans h
      exact raiseInvalidCommand_inv hs
    | some c =>
      rw [execHashClone_source hsrc] at h
      exact runHash_inv hs h fun _ _ _ => hs.hash_inv hsrc

end Block

/-- Settles O50: a step runs a command (`exec_inv`) or raises InvalidCommand, both from the block
with the descriptor taken from DIN, which the invariant does not mention. -/
theorem stepKeepsInvariant : Obligations.StepKeepsInvariant := by
  intro s t hs h
  obtain ⟨-, d, rest, -, ⟨i, -, hexec⟩ | ⟨-, rfl⟩⟩ := step_cases h
  · exact exec_inv (s := { s with din := rest }) hs hexec
  · exact raiseInvalidCommand_inv (s := { s with din := rest }) hs

end Sys2Proof.Machine
end

section
/-! InternalConsistency (R132, R209): a command ends with it exactly when its operation's commit step
finds the cursor past the buffer, and from reset no run leads to such a context (R151). -/

namespace Sys2Proof.Machine

open Sys2Proof Sys2Proof.Spec

/-! ## The operations that answer it -/

section Operations
variable {c : PrgCtx} {n : Nat} {ann key data : List Byte}

theorem stream_internalConsistency_iff {code : Byte} {mv : Move} :
    c.stream code mv n data = .error .internalConsistency ↔ c.bufLen < c.pos := by
  obtain hpos | hpos := Nat.lt_or_ge c.bufLen c.pos
  · simp [stream_pastBuffer hpos, hpos]
  · simp [stream_inside hpos, hpos]

theorem absorb_internalConsistency_iff : c.absorb n data = .error .internalConsistency ↔
    c.started = true ∧ c.bufLen < c.pos := by
  cases hs : c.started with
  | false => simp [hs]
  | true => simp [absorb_started hs, stream_internalConsistency_iff]

theorem squeeze_internalConsistency_iff : c.squeeze n = .error .internalConsistency ↔
    c.started = true ∧ c.bufLen < c.pos := by
  cases hs : c.started with
  | false => simp [hs]
  | true => simp [squeeze_started hs, stream_internalConsistency_iff]

theorem encrypt_internalConsistency_iff : c.encrypt n data = .error .internalConsistency ↔
    c.started = true ∧ c.bufLen < c.pos ∧ 16 * (192 - c.bufLen) = c.l * (2 + c.d) := by
  rw [← keyed_iff]
  cases hs : c.started with
  | false => simp [hs]
  | true =>
    cases hk : c.keyed with
    | false => simp [encrypt_unkeyed hs hk]
    | true => simp [encrypt_keyed hs hk, stream_internalConsistency_iff]

theorem decrypt_internalConsistency_iff : c.decrypt n data = .error .internalConsistency ↔
    c.started = true ∧ c.bufLen < c.pos ∧ 16 * (192 - c.bufLen) = c.l * (2 + c.d) := by
  rw [← keyed_iff]
  cases hs : c.started with
  | false => simp [hs]
  | true =>
    cases hk : c.keyed with
    | false => simp [decrypt_unkeyed hs hk]
    | true => simp [decrypt_keyed hs hk, stream_internalConsistency_iff]

theorem ratchet_internalConsistency_iff : c.ratchet = .error .internalConsistency ↔
    c.started = true ∧ c.bufLen < c.pos := by
  cases hs : c.started with
  | false => simp [hs]
  | true =>
    obtain hpos | hpos := Nat.lt_or_ge c.bufLen c.pos
    · simp [ratchet_pastBuffer hs hpos, hpos]
    · simp [ratchet_inside hs hpos, hpos]

theorem restart_internalConsistency_iff : c.restart ann key = .error .internalConsistency ↔
    c.started = true ∧ c.bufLen < c.pos ∧ ¬badLengths c.l ann.length key.length := by
  rw [← goodLengths_iff_not_badLengths]
  cases hs : c.started with
  | false => simp [hs]
  | true =>
    by_cases hlen : goodLengths c.l ann.length key.length
    · obtain hpos | hpos := Nat.lt_or_ge c.bufLen c.pos
      · exact iff_of_true (restart_pastBuffer hs hlen hpos) ⟨rfl, hpos, hlen⟩
      · simp [restart_inside hs hlen hpos, hpos]
    · simp only [restart_badLengths hs hlen, hlen, and_false, iff_false]
      nofun

/-- PRG.START has no commit step (R135). -/
theorem start_ne_internalConsistency {l d : Nat} :
    c.start l d ann key ≠ .error .internalConsistency := by
  unfold PrgCtx.start
  split_ifs <;> nofun

section Hash
variable {h : HashCtx} {ow : Bool}

theorem init_ne_internalConsistency {outLen : Nat} :
    h.init outLen ≠ .error .internalConsistency := by
  unfold HashCtx.init
  split_ifs <;> nofun

theorem resetCtx_ne_internalConsistency : h.resetCtx ≠ .error .internalConsistency := by
  unfold HashCtx.resetCtx
  split_ifs <;> nofun

theorem update_ne_internalConsistency : h.update ow data ≠ .error .internalConsistency := by
  unfold HashCtx.update
  split_ifs <;> nofun

theorem digest_ne_internalConsistency : h.digest ow ≠ .error .internalConsistency := by
  unfold HashCtx.digest
  split_ifs <;> nofun

end Hash

end Operations

/-! ## The code a command ends with -/

section Runs
variable {ctx n : Nat} {s t : State} {k : Status}

/-- Payload bytes taken from DIN are split at the announcement's length (R74). -/
theorem annOf_length {annLen keyLen : Byte} {X : List Byte}
    (hX : X.length = annLen.toNat + keyLen.toNat) : (annOf annLen X).length = annLen.toNat := by
  rw [annOf, List.length_take, hX, Nat.min_eq_left (Nat.le_add_right _ _)]

theorem keyOf_length {annLen keyLen : Byte} {X : List Byte}
    (hX : X.length = annLen.toNat + keyLen.toNat) : (keyOf annLen X).length = keyLen.toNat := by
  rw [keyOf, List.length_drop, hX, Nat.add_sub_cancel_left]

theorem raiseInvalidCommand_status_ne (s : State) (hinv : k ≠ .invalidCommand := by decide) :
    (raiseInvalidCommand s).status ≠ k.code :=
  fun he => hinv (Status.code_injective he.symm)

/-- A command on an automaton context ends with a fault of its operation exactly when the context is
one on which the operation answers that fault. -/
theorem runPrg_status_iff {f : List Byte → PrgCtx → Except Status (PrgCtx × List Byte)}
    {P : PrgCtx → Prop} (h : runPrg ctx n f s = .next t)
    (hf : ∀ X c, X.length = n → (f X c = .error k ↔ P c)) (hok : k ≠ .ok := by decide)
    (hinv : k ≠ .invalidCommand := by decide) :
    t.status = k.code ↔ ∃ c, s.prg[ctx]? = some c ∧ P c := by
  obtain ⟨hnone, rfl⟩ | ⟨c, hc, hn, rfl⟩ := runPrg_cases h
  · simp only [hnone, raiseInvalidCommand_status, reduceCtorEq, false_and, exists_false, iff_false]
    exact raiseInvalidCommand_status_ne s hinv
  · simp only [hc, Option.some.injEq, exists_eq_left', ← hf _ c (List.length_take_of_le hn)]
    cases hr : f (s.din.take n) c with
    | error k' =>
      rw [settlePrg_error, raiseFault_status, Except.error.injEq]
      exact ⟨Status.code_injective, congrArg Status.code⟩
    | ok r =>
      simp only [settlePrg_ok, finish_status, reduceCtorEq, iff_false]
      exact fun he => hok (Status.code_injective he.symm)

/-- The same for a command on a hash context. -/
theorem runHash_status_iff {f : List Byte → HashCtx → Except Status (HashCtx × List Byte)}
    {P : HashCtx → Prop} (h : runHash ctx n f s = .next t)
    (hf : ∀ X c, X.length = n → (f X c = .error k ↔ P c)) (hok : k ≠ .ok := by decide)
    (hinv : k ≠ .invalidCommand := by decide) :
    t.status = k.code ↔ ∃ c, s.hash[ctx]? = some c ∧ P c := by
  obtain ⟨hnone, rfl⟩ | ⟨c, hc, hn, rfl⟩ := runHash_cases h
  · simp only [hnone, raiseInvalidCommand_status, reduceCtorEq, false_and, exists_false, iff_false]
    exact raiseInvalidCommand_status_ne s hinv
  · simp only [hc, Option.some.injEq, exists_eq_left', ← hf _ c (List.length_take_of_le hn)]
    cases hr : f (s.din.take n) c with
    | error k' =>
      rw [settleHash_error, raiseFault_status, Except.error.injEq]
      exact ⟨Status.code_injective, congrArg Status.code⟩
    | ok r =>
      simp only [settleHash_ok, finish_status, reduceCtorEq, iff_false]
      exact fun he => hok (Status.code_injective he.symm)

/-- A command whose operation never answers a fault never ends with it. -/
theorem runPrg_status_ne {f : List Byte → PrgCtx → Except Status (PrgCtx × List Byte)}
    (h : runPrg ctx n f s = .next t) (hf : ∀ X c, f X c ≠ .error k)
    (hok : k ≠ .ok := by decide) (hinv : k ≠ .invalidCommand := by decide) :
    t.status ≠ k.code := by
  simp [runPrg_status_iff (P := fun _ => False) h (fun X c _ => iff_false_intro (hf X c)) hok hinv]

theorem runHash_status_ne {f : List Byte → HashCtx → Except Status (HashCtx × List Byte)}
    (h : runHash ctx n f s = .next t) (hf : ∀ X c, f X c ≠ .error k)
    (hok : k ≠ .ok := by decide) (hinv : k ≠ .invalidCommand := by decide) :
    t.status ≠ k.code := by
  simp [runHash_status_iff (P := fun _ => False) h (fun X c _ => iff_false_intro (hf X c)) hok hinv]

theorem runPure_status_ne {f : List Byte → List Byte} (h : runPure n f s = .next t)
    (hok : k ≠ .ok := by decide) : t.status ≠ k.code := by
  obtain ⟨-, rfl⟩ := runPure_cases h
  exact fun he => hok (Status.code_injective he.symm)

end Runs

/-- Settles O42: the check is the one of the operation each command runs, and a command without a
commit step never answers the code. -/
theorem internalConsistencyExactlyPastBuffer :
    Obligations.InternalConsistencyExactlyPastBuffer := by
  intro i s t h
  change t.status = Status.internalConsistency.code ↔ _
  cases i with rw [exec] at h
  | bashs m1 n1 m2 n2 =>
    refine iff_of_false ?_ id
    obtain hb | ⟨f, hb⟩ := execBashs_cases m1 n1 m2 n2
    · cases (hb s).symm.trans h
      exact raiseInvalidCommand_status_ne s
    · exact runPure_status_ne ((hb s).symm.trans h)
  | bashf be =>
    refine iff_of_false ?_ id
    obtain hb | ⟨f, hb⟩ := execBashf_cases be
    · cases (hb s).symm.trans h
      exact raiseInvalidCommand_status_ne s
    · exact runPure_status_ne ((hb s).symm.trans h)
  | prgStart => exact iff_of_false (runPrg_status_ne h fun _ _ => start_ne_internalConsistency) id
  | prgRestart =>
    refine runPrg_status_iff h fun X c hX => ?_
    rw [restart_internalConsistency_iff, annOf_length hX, keyOf_length hX]
  | prgAbsorb => exact runPrg_status_iff h fun _ _ _ => absorb_internalConsistency_iff
  | prgSqueeze => exact runPrg_status_iff h fun _ _ _ => squeeze_internalConsistency_iff
  | prgEncrypt => exact runPrg_status_iff h fun _ _ _ => encrypt_internalConsistency_iff
  | prgDecrypt => exact runPrg_status_iff h fun _ _ _ => decrypt_internalConsistency_iff
  | prgRatchet => exact runPrg_status_iff h fun _ _ _ => ratchet_internalConsistency_iff
  | prgClone dst src =>
    refine iff_of_false ?_ id
    cases hsrc : s.prg[src.toNat]? with
    | none =>
      cases (execPrgClone_noSource hsrc).symm.trans h
      exact raiseInvalidCommand_status_ne s
    | some c =>
      rw [execPrgClone_source hsrc] at h
      exact runPrg_status_ne h fun _ _ => nofun
  | hashInit => exact iff_of_false (runHash_status_ne h fun _ _ => init_ne_internalConsistency) id
  | hashReset =>
    exact iff_of_false (runHash_status_ne h fun _ _ => resetCtx_ne_internalConsistency) id
  | hashUpdate =>
    exact iff_of_false (runHash_status_ne h fun _ _ => update_ne_internalConsistency) id
  | hashDigest =>
    exact iff_of_false (runHash_status_ne h fun _ _ => digest_ne_internalConsistency) id
  | hashClone dst src =>
    refine iff_of_false ?_ id
    cases hsrc : s.hash[src.toNat]? with
    | none =>
      cases (execHashClone_noSource hsrc).symm.trans h
      exact raiseInvalidCommand_status_ne s
    | some c =>
      rw [execHashClone_source hsrc] at h
      exact runHash_status_ne h fun _ _ => nofun

/-! ## It is unreachable -/

/-- A command that commits past the buffer names a started context with its cursor there. -/
theorem exists_pastBuffer_of_commitsPastBuffer {s : State} {i : Instr}
    (h : commitsPastBuffer s i) : ∃ c ∈ s.prg, c.started = true ∧ c.bufLen < c.pos := by
  cases i with
  | prgRestart | prgEncrypt | prgDecrypt =>
    obtain ⟨c, hc, hs, hpos, -⟩ := h
    exact ⟨c, List.mem_of_getElem? hc, hs, hpos⟩
  | prgAbsorb | prgSqueeze | prgRatchet =>
    obtain ⟨c, hc, hs, hpos⟩ := h
    exact ⟨c, List.mem_of_getElem? hc, hs, hpos⟩
  | _ => exact h.elim

theorem resetWith_inv (p : Params) : (State.resetWith p).Inv := by
  refine ⟨fun c hc hs => ?_, fun h hh hs => ?_, (by decide : LegalStatus 0)⟩
  · obtain rfl := List.eq_of_mem_replicate hc
    cases hs
  · obtain rfl := List.eq_of_mem_replicate hh
    cases hs

/-- Whatever the host sends, the block keeps its invariant. -/
theorem runStreams_inv {s : State} (streams : List (List Byte)) (hs : s.Inv) :
    (runStreams streams s).Inv := by
  refine List.foldlRecOn streams _ hs fun s hs bytes _ => ?_
  split
  · exact stepKeepsInvariant (s.resync bytes) _ hs ‹_›
  · exact hs

/-- Settles O47: the cursor invariant refutes the condition of
`internalConsistencyExactlyPastBuffer`, and the invariant of the block, which holds along every run,
admits no code 4. -/
theorem internalConsistencyUnreachable : Obligations.InternalConsistencyUnreachable := by
  refine ⟨fun i s t hinv h hstatus => ?_, fun p streams hstatus => ?_⟩
  · obtain ⟨c, hc, hs, hpos⟩ := exists_pastBuffer_of_commitsPastBuffer
      ((internalConsistencyExactlyPastBuffer i s t h).mp hstatus)
    exact absurd ((hinv c hc).pos_lt hs) (Nat.lt_asymm hpos)
  · obtain ⟨-, -, hlegal⟩ := runStreams_inv streams (resetWith_inv p)
    rw [hstatus] at hlegal
    exact absurd hlegal (by decide)

end Sys2Proof.Machine
end

section
/-! What PRG.START, PRG.RESTART, PRG.RATCHET and PRG.CLONE leave (R135, R136, R141, R150). -/

namespace Sys2Proof.Machine

open Sys2Proof Sys2Proof.Spec

/-- The end of a command that puts nothing out. -/
theorem finish_nil (s : State) : s.finish [] = { s with status := 0 } := by
  simp only [State.finish, State.putOut, State.withStatus, List.append_nil, Status.code]

/-- The end of a command on an automaton context that answers a context and puts nothing out. -/
theorem settlePrg_ok_nil (ctx : Nat) (s : State) (c : PrgCtx) :
    settlePrg ctx s (.ok (c, [])) = { s with prg := s.prg.set ctx c, status := 0 } := by
  rw [settlePrg_ok, finish_nil]
  simp only [State.setPrg]

/-- A command whose payload is an announcement and a key hands both to its operation (R74). -/
theorem runPrg_material {ctx : Nat} {annLen keyLen : Byte} {s : State} {c : PrgCtx}
    {ann key rest : List Byte}
    (f : List Byte → List Byte → PrgCtx → Except Status (PrgCtx × List Byte))
    (hc : s.prg[ctx]? = some c) (hann : ann.length = annLen.toNat)
    (hkey : key.length = keyLen.toNat) (hdin : s.din = ann ++ key ++ rest) :
    runPrg ctx (annLen.toNat + keyLen.toNat)
        (fun payload c => f (annOf annLen payload) (keyOf annLen payload) c) s =
      .next (settlePrg ctx { s with din := rest } (f ann key c)) := by
  rw [← hann, ← hkey, ← List.length_append, runPrg_run _ hc hdin, annOf, keyOf, ← hann,
    List.take_left, List.drop_left]

/-! ## PRG.START -/

section StartBytes
variable {l d : Nat} {ann key : List Byte}

theorem startBytes_header : startBytes l d ann key 0 = header ann.length key.length :=
  if_pos rfl

theorem startBytes_ann {j : Nat} (hj : j < ann.length) :
    startBytes l d ann key (1 + j) = ann.getD j 0 := by
  rw [startBytes, if_neg (by omega), if_pos (by omega), Nat.add_sub_cancel_left]

theorem startBytes_key {j : Nat} (hj : j < key.length) :
    startBytes l d ann key (1 + ann.length + j) = key.getD j 0 := by
  rw [startBytes, if_neg (by omega), if_neg (by omega), if_pos (by omega)]
  congr 1
  omega

theorem startBytes_capacity (h : 1 + ann.length + key.length ≤ 184) :
    startBytes l d ann key 184 = BitVec.ofNat 8 (l / 4 + d) := by
  rw [startBytes, if_neg (by omega), if_neg (by omega), if_neg (by omega), if_pos rfl]

theorem startBytes_zero {k : Nat} (h : 1 + ann.length + key.length ≤ k) (hk : k ≠ 184) :
    startBytes l d ann key k = 0 := by
  rw [startBytes, if_neg (by omega), if_neg (by omega), if_neg (by omega), if_neg hk]

end StartBytes

/-- Settles O19: `start_good` and `start_bad`, and the bytes of `startBytes` range by range. -/
theorem prgStartResult : Obligations.PrgStartResult := by
  intro ctx annLen keyLen l d s ann key rest hctx hann hkey hdin
  have hrun : exec (.prgStart ctx annLen keyLen l d) s = .next (settlePrg ctx.toNat
      { s with din := rest } (s.prg[ctx.toNat].start l.toNat d.toNat ann key)) :=
    runPrg_material (fun ann key c => c.start l.toNat d.toNat ann key)
      (List.getElem?_eq_getElem hctx) hann hkey hdin
  rw [hrun, ← hann, ← hkey]
  refine ⟨fun hbad => ?_, fun hlevel hlen => ⟨ofBytes (startBytes l.toNat d.toNat ann key), ?_⟩⟩
  · rw [start_bad hbad]
    rfl
  obtain ⟨-, ha, -, hk, -⟩ := id hlen
  refine ⟨?_, ?_, fun j hj => ?_, fun j hj => ?_, fun k hmin hmax => ?_, ?_, fun k hmin hmax => ?_⟩
  · rw [start_good hlevel hlen, settlePrg_ok_nil]
    rfl
  · rw [byteAt_ofBytes _ (by omega), startBytes_header]
  · rw [byteAt_ofBytes _ (by omega), startBytes_ann hj]
  · rw [byteAt_ofBytes _ (by omega), startBytes_key hj]
  · rw [byteAt_ofBytes _ (by omega), startBytes_zero hmin (by omega)]
  · rw [byteAt_ofBytes _ (by omega), startBytes_capacity (by omega)]
  · rw [byteAt_ofBytes _ hmax, startBytes_zero (by omega) (by omega)]

/-! ## PRG.RESTART -/

/-- The new material lies from byte 0 on: the header, then announcement and key as one string. -/
theorem byteAt_mixIn (ann key : List Byte) (c : PrgCtx) {k : Nat} (hk : k < 192) :
    byteAt (c.mixIn ann key).S k = byteAt c.S k ^^^
      (if k = 0 then header ann.length key.length else (ann ++ key).getD (k - 1) 0) := by
  rw [PrgCtx.mixIn, byteAt_xorIn _ _ _ hk, byteAt_xorIn _ _ _ hk, byteAt_xorByte _ _ _ hk]
  obtain rfl | ⟨j, rfl⟩ : k = 0 ∨ ∃ j, k = 1 + j := by
    obtain rfl | hpos := Nat.eq_zero_or_pos k
    · exact .inl rfl
    · exact .inr ⟨k - 1, by omega⟩
  · rw [if_neg (by omega), if_neg (by omega), if_pos rfl, if_pos rfl]
  rw [if_neg (show 1 + j ≠ 0 by omega), if_neg (show 1 + j ≠ 0 by omega),
    Nat.add_sub_cancel_left]
  obtain hann | hann := Nat.lt_or_ge j ann.length
  · rw [if_neg (by omega), if_pos (by omega), List.getD_append _ _ _ _ hann]
  rw [if_neg (show ¬(1 ≤ 1 + j ∧ 1 + j < 1 + ann.length) by omega),
    List.getD_append_right _ _ _ _ hann]
  obtain hkey | hkey := Nat.lt_or_ge (j - ann.length) key.length
  · rw [if_pos (by omega)]
    congr 2
    omega
  · rw [if_neg (by omega), List.getD_eq_default _ _ hkey]
    exact BitVec.xor_zero.symm

/-- Settles O20: the checks in order, then `restart_inside`, whose State is `byteAt_mixIn` of the
committed one. -/
theorem prgRestartResult : Obligations.PrgRestartResult := by
  intro ctx annLen keyLen s c ann key rest hc hann hkey hdin
  have hrun : exec (.prgRestart ctx annLen keyLen) s =
      .next (settlePrg ctx.toNat { s with din := rest } (c.restart ann key)) :=
    runPrg_material (fun ann key c => c.restart ann key) hc hann hkey hdin
  rw [hrun, ← hann, ← hkey]
  refine ⟨fun hs => ?_, fun hs hbad => ?_, fun hs hinv hlen =>
    ⟨(c.restarted ann key).S, ?_, fun k hk => byteAt_mixIn ann key _ hk⟩⟩
  · rw [restart_unstarted hs]
    rfl
  · rw [restart_badLengths hs hbad]
    rfl
  · rw [restart_inside hs hlen (hinv.pos_lt hs).le, settlePrg_ok_nil]
    simp only [PrgCtx.restarted, PrgCtx.mixIn, PrgCtx.afterCommit, keyedBufLen]

/-! ## PRG.RATCHET and PRG.CLONE -/

/-- Settles O25: the snapshot of R141 is the State of the context before the command. -/
theorem prgRatchetResult : Obligations.PrgRatchetResult := by
  intro ctx s c hc
  have hrun : exec (.prgRatchet ctx) s = .next (settlePrg ctx.toNat s c.ratchet) :=
    runPrg_run_zero (fun _ c => c.ratchet) hc
  rw [hrun]
  refine ⟨fun hs => ?_, fun hs hinv => ⟨xorSponge (committed dcNull c) c.S, ?_, fun k hk =>
    byteAt_xorSponge _ _ hk⟩⟩
  · rw [ratchet_unstarted hs]
    rfl
  · rw [ratchet_inside hs (hinv.pos_lt hs).le, settlePrg_ok_nil]

/-- Settles O26: a clone is a command on its destination that answers the source; a missing source or
destination is InvalidCommand. -/
theorem prgCloneResult : Obligations.PrgCloneResult := by
  intro dst src s
  rw [exec]
  refine ⟨fun c hc hdst => ?_, fun hrange => ?_⟩
  · have hclone : execPrgClone dst src s =
        .next { s with prg := s.prg.set dst.toNat c, status := 0 } := by
      rw [execPrgClone_source hc, runPrg_run_zero _ (List.getElem?_eq_getElem hdst),
        settlePrg_ok_nil]
    refine ⟨hclone, ?_⟩
    rintro rfl
    obtain ⟨hlt, rfl⟩ := List.getElem?_eq_some_iff.mp hc
    rw [hclone, List.set_getElem_self]
  · refine ⟨raiseInvalidCommand s, ?_, rfl, rfl, rfl, rfl, rfl⟩
    cases hsrc : s.prg[src.toNat]? with
    | none => exact execPrgClone_noSource hsrc
    | some c =>
      obtain ⟨hlt, -⟩ := List.getElem?_eq_some_iff.mp hsrc
      rw [execPrgClone_source hsrc, runPrg_outOfRange]
      exact List.getElem?_eq_none (by omega)

end Sys2Proof.Machine
end

section
/-! What the streaming commands leave and put out (R137 to R140): their chunk loop on data cut into
full chunks and a shorter rest, for each of the four moves; and that PRG.DECRYPT undoes PRG.ENCRYPT
(R145). -/

namespace Sys2Proof.Machine

open Sys2Proof Sys2Proof.Spec

/-- The end of a command on an automaton context that answers a context and an output. -/
theorem settlePrg_ok_out (ctx : Nat) (s : State) (c : PrgCtx) (out : List Byte) :
    settlePrg ctx s (.ok (c, out)) =
      { s with prg := s.prg.set ctx c, dout := s.dout ++ out, status := 0 } := by
  simp only [settlePrg_ok, State.setPrg, State.finish, State.putOut, State.withStatus, Status.code]

/-! ## The chunk loop on whole chunks -/

/-- A move on each chunk, followed by the permutation, and then on the rest, which is not: the State
left and the bytes put out. -/
def chunkMoves (mv : Move) (last : List Byte) : List (List Byte) → Sponge → Sponge × List Byte
  | [], S => mv last.length last S
  | x :: xs, S =>
    let r := mv x.length x S
    let t := chunkMoves mv last xs (permute r.1)
    (t.1, r.2 ++ t.2)

section Chunks
variable {mv : Move} {chunks : List (List Byte)} {last data : List Byte} {c : PrgCtx}

/-- The chunk loop with data of full chunks and a shorter rest is `chunkMoves`, as a move on nothing
does nothing: the loop does not run for an empty rest. -/
theorem streamLoop_chunks {fuel : Nat} (hnil : ∀ S, mv 0 [] S = (S, []))
    (hchunks : ∀ x ∈ chunks, x.length = c.bufLen) (hlast : last.length < c.bufLen)
    (hpos : c.pos = 0) (hfuel : (chunks.flatten ++ last).length ≤ fuel) :
    streamLoop mv fuel (chunks.flatten ++ last).length (chunks.flatten ++ last) c =
      ({ c with S := (chunkMoves mv last chunks c.S).1, pos := last.length },
        (chunkMoves mv last chunks c.S).2) := by
  induction chunks generalizing fuel c with
  | nil =>
    rw [List.flatten_nil, List.nil_append] at hfuel ⊢
    obtain hzero | hne := Nat.eq_zero_or_pos last.length
    · obtain rfl := List.eq_nil_of_length_eq_zero hzero
      simp only [List.length_nil, streamLoop_done, chunkMoves, hnil]
      rw [← hpos]
    · rw [streamLoop_partial mv last hne hlast (Nat.lt_of_lt_of_le hne hfuel), List.take_length]
      simp only [chunkMoves]
  | cons x xs ih =>
    obtain ⟨hx, hxs⟩ := List.forall_mem_cons.mp hchunks
    have hb : 0 < c.bufLen := Nat.zero_lt_of_lt hlast
    rw [List.flatten_cons, List.append_assoc, List.length_append, hx] at hfuel ⊢
    obtain ⟨fuel, rfl⟩ : ∃ f, fuel = f + 1 := ⟨fuel - 1, by omega⟩
    rw [streamLoop_full mv _ hb (Nat.le_add_right _ _), Nat.add_sub_cancel_left,
      List.take_left' hx, List.drop_left' hx,
      ih (fuel := fuel) (c := { c with S := permute (mv c.bufLen x c.S).1, pos := 0 }) hxs hlast rfl
        (by omega)]
    simp only [chunkMoves, hx]

/-- A streaming command whose cursor is in the buffer: the loop starts on the committed State. -/
theorem stream_chunks {code : Byte} (hnil : ∀ S, mv 0 [] S = (S, []))
    (hpos : c.pos ≤ c.bufLen) (hdata : data = chunks.flatten ++ last)
    (hchunks : ∀ x ∈ chunks, x.length = c.bufLen) (hlast : last.length < c.bufLen) :
    c.stream code mv data.length data =
      .ok ({ c with S := (chunkMoves mv last chunks (committed code c)).1, pos := last.length },
        (chunkMoves mv last chunks (committed code c)).2) := by
  subst hdata
  rw [stream_inside hpos, PrgCtx.afterCommit,
    streamLoop_chunks (c := { c with S := committed code c, pos := 0 }) hnil hchunks hlast rfl
      (Nat.le_refl _)]

end Chunks

/-! ## The four moves -/

theorem absorbMove_nil (S : Sponge) : absorbMove 0 [] S = (S, []) := by
  rw [absorbMove, xorIn_nil]

theorem encryptMove_nil (S : Sponge) : encryptMove 0 [] S = (S, []) := by
  rw [encryptMove, encMove, xorIn_nil]
  rfl

theorem decryptMove_nil (S : Sponge) : decryptMove 0 [] S = (S, []) := by
  rw [decryptMove, decMove, memWrite_nil]
  rfl

theorem chunkMoves_absorb (last : List Byte) (chunks : List (List Byte)) (S : Sponge) :
    chunkMoves absorbMove last chunks S = (xorIn 0 last (absorbChunks chunks S), []) := by
  induction chunks generalizing S with
  | nil => simp only [chunkMoves, absorbMove, absorbChunks, List.foldl_nil]
  | cons x xs ih =>
    simp only [chunkMoves, ih, absorbMove, absorbChunks, List.foldl_cons, List.append_nil]

/-- The buffer bytes an XOR leaves, when the bytes fit the State. -/
theorem memRead_xorIn {X : List Byte} (hX : X.length ≤ 192) (S : Sponge) :
    memRead (xorIn 0 X S) 0 X.length = xorBytes (memRead S 0 X.length) X := by
  apply List.ext_getElem
  · simp [xorBytes]
  intro i hi _
  rw [memRead_length] at hi
  simp [memRead, xorBytes, byteAt_xorIn 0 X S (Nat.lt_of_lt_of_le hi hX), hi]

/-- The move of PRG.ENCRYPT puts out old buffer XOR plaintext and leaves that in the buffer (R62,
R139). -/
theorem encryptMove_eq (k : Nat) {X : List Byte} (hX : X.length ≤ 192) (S : Sponge) :
    encryptMove k X S = (memWrite 0 (xorBytes (memRead S 0 X.length) X) S,
      xorBytes (memRead S 0 X.length) X) := by
  rw [encryptMove, encMove, ← memRead_xorIn hX, memWrite_memRead_xorIn]

/-- The move of PRG.DECRYPT puts out old buffer XOR ciphertext and leaves the ciphertext in the buffer
(R62, R140). -/
theorem decryptMove_eq (k : Nat) {X : List Byte} (hX : X.length ≤ 192) (S : Sponge) :
    decryptMove k X S = (memWrite 0 X S, xorBytes (memRead S 0 X.length) X) := by
  rw [decryptMove, decMove, memRead_xorIn hX]

section Text
variable {last : List Byte} {chunks : List (List Byte)}
  (hchunks : ∀ x ∈ chunks, x.length ≤ 192) (hlast : last.length ≤ 192)
include hchunks hlast

theorem chunkMoves_encrypt (S : Sponge) :
    chunkMoves encryptMove last chunks S =
      (memWrite 0 (xorBytes (memRead (encryptChunks chunks S).1 0 last.length) last)
          (encryptChunks chunks S).1,
        (encryptChunks chunks S).2 ++
          xorBytes (memRead (encryptChunks chunks S).1 0 last.length) last) := by
  induction chunks generalizing S with
  | nil => simp only [chunkMoves, encryptMove_eq _ hlast, encryptChunks, List.nil_append]
  | cons x xs ih =>
    obtain ⟨hx, hxs⟩ := List.forall_mem_cons.mp hchunks
    simp only [chunkMoves, encryptMove_eq _ hx, ih hxs, encryptChunks, List.append_assoc]

theorem chunkMoves_decrypt (S : Sponge) :
    chunkMoves decryptMove last chunks S =
      (memWrite 0 last (decryptChunks chunks S).1,
        (decryptChunks chunks S).2 ++
          xorBytes (memRead (decryptChunks chunks S).1 0 last.length) last) := by
  induction chunks generalizing S with
  | nil => simp only [chunkMoves, decryptMove_eq _ hlast, decryptChunks, List.nil_append]
  | cons x xs ih =>
    obtain ⟨hx, hxs⟩ := List.forall_mem_cons.mp hchunks
    simp only [chunkMoves, decryptMove_eq _ hx, ih hxs, decryptChunks, List.append_assoc]

end Text

/-- The chunk loop of PRG.SQUEEZE, which has no input, for `q` full chunks and `r` further bytes
(R138). -/
theorem streamLoop_squeeze {q r fuel : Nat} {c : PrgCtx} (hr : r < c.bufLen) (hpos : c.pos = 0)
    (hfuel : q * c.bufLen + r ≤ fuel) :
    streamLoop squeezeMove fuel (q * c.bufLen + r) [] c =
      ({ c with S := permute^[q] c.S, pos := r },
        (List.range q).flatMap (fun j => memRead (permute^[j] c.S) 0 c.bufLen) ++
          memRead (permute^[q] c.S) 0 r) := by
  induction q generalizing fuel c with
  | zero =>
    rw [Nat.zero_mul, Nat.zero_add] at hfuel ⊢
    simp only [List.range_zero, List.flatMap_nil, List.nil_append, Function.iterate_zero_apply]
    obtain rfl | hne := Nat.eq_zero_or_pos r
    · simp only [streamLoop_done, memRead, List.range_zero, List.map_nil]
      rw [← hpos]
    · rw [streamLoop_partial _ _ hne hr (Nat.lt_of_lt_of_le hne hfuel)]
      simp only [squeezeMove, copyOut]
  | succ q ih =>
    have hb : 0 < c.bufLen := Nat.zero_lt_of_lt hr
    rw [Nat.succ_mul, Nat.add_right_comm] at hfuel ⊢
    obtain ⟨fuel, rfl⟩ : ∃ f, fuel = f + 1 := ⟨fuel - 1, by omega⟩
    rw [streamLoop_full _ _ hb (Nat.le_add_left _ _), Nat.add_sub_cancel, List.drop_nil,
      ih (fuel := fuel) (c := { c with
        S := permute (squeezeMove c.bufLen ([].take c.bufLen) c.S).1, pos := 0 }) hr rfl
        (show q * c.bufLen + r ≤ fuel by omega)]
    simp only [squeezeMove, copyOut, List.range_succ_eq_map, List.flatMap_cons, List.flatMap_map,
      Function.iterate_succ_apply, Function.iterate_zero_apply, List.append_assoc]

/-! ## The commands -/

section Commands
variable {ctx : Byte} {len : BitVec 64} {s : State} {c : PrgCtx} {data rest : List Byte}

theorem PrgCtx.Inv.bufLen_le (hc : c.Inv) (hs : c.started = true) : c.bufLen ≤ 192 := by
  obtain h | h := hc.bufLen_eq hs <;> exact h ▸ Nat.sub_le _ _

variable (hc : s.prg[ctx.toNat]? = some c) (hlen : data.length = len.toNat)
  (hdin : s.din = data ++ rest)
include hc hlen hdin

theorem exec_prgAbsorb_run : exec (.prgAbsorb ctx len) s =
    .next (settlePrg ctx.toNat { s with din := rest } (c.absorb data.length data)) := by
  rw [exec, execPrgAbsorb, ← hlen]
  exact runPrg_run _ hc hdin

theorem exec_prgEncrypt_run : exec (.prgEncrypt ctx len) s =
    .next (settlePrg ctx.toNat { s with din := rest } (c.encrypt data.length data)) := by
  rw [exec, execPrgEncrypt, ← hlen]
  exact runPrg_run _ hc hdin

theorem exec_prgDecrypt_run : exec (.prgDecrypt ctx len) s =
    .next (settlePrg ctx.toNat { s with din := rest } (c.decrypt data.length data)) := by
  rw [exec, execPrgDecrypt, ← hlen]
  exact runPrg_run _ hc hdin

end Commands

/-- Settles O21: `stream_chunks` for the move of PRG.ABSORB. -/
theorem prgAbsorbResult : Obligations.PrgAbsorbResult := by
  intro ctx len s c data rest hc hlen hdin
  rw [exec_prgAbsorb_run hc hlen hdin]
  refine ⟨fun hs => ?_, fun hs hinv chunks last hdata hchunks hlast => ?_⟩
  · rw [absorb_unstarted hs]
    rfl
  · rw [absorb_started hs,
      stream_chunks absorbMove_nil (hinv.pos_lt hs).le hdata hchunks hlast, chunkMoves_absorb,
      settlePrg_ok_nil]

/-- Settles O22: `streamLoop_squeeze` on the committed State. -/
theorem prgSqueezeResult : Obligations.PrgSqueezeResult := by
  intro ctx count s c hc
  have hrun : exec (.prgSqueeze ctx count) s =
      .next (settlePrg ctx.toNat s (c.squeeze count.toNat)) :=
    runPrg_run_zero (fun _ c => c.squeeze count.toNat) hc
  rw [hrun]
  refine ⟨fun hs => ?_, fun hs hinv q r hcount hr => ?_⟩
  · rw [squeeze_unstarted hs]
    rfl
  · rw [squeeze_started hs, stream_inside (hinv.pos_lt hs).le, hcount,
      ← afterCommit_bufLen (c := c) (code := dcOut),
      streamLoop_squeeze (by rwa [afterCommit_bufLen]) afterCommit_pos (Nat.le_refl _),
      settlePrg_ok_out]
    simp only [PrgCtx.afterCommit]

/-- Settles O23: `stream_chunks` for the move of PRG.ENCRYPT, after its two checks. -/
theorem prgEncryptResult : Obligations.PrgEncryptResult := by
  intro ctx len s c data rest hc hlen hdin
  rw [exec_prgEncrypt_run hc hlen hdin]
  refine ⟨fun hs => ?_, fun hs hk => ?_, fun hs hk hinv chunks last hdata hchunks hlast => ?_⟩
  · rw [encrypt_unstarted hs]
    rfl
  · rw [encrypt_unkeyed hs ((keyed_eq_false_iff c).mpr hk)]
    rfl
  · have hb := hinv.bufLen_le hs
    rw [encrypt_keyed hs ((keyed_iff c).mpr hk),
      stream_chunks encryptMove_nil (hinv.pos_lt hs).le hdata hchunks hlast,
      chunkMoves_encrypt (fun x hx => (hchunks x hx).trans_le hb) (hlast.le.trans hb),
      settlePrg_ok_out]

/-- Settles O24: `stream_chunks` for the move of PRG.DECRYPT, after its two checks. -/
theorem prgDecryptResult : Obligations.PrgDecryptResult := by
  intro ctx len s c data rest hc hlen hdin
  rw [exec_prgDecrypt_run hc hlen hdin]
  refine ⟨fun hs => ?_, fun hs hk => ?_, fun hs hk hinv chunks last hdata hchunks hlast => ?_⟩
  · rw [decrypt_unstarted hs]
    rfl
  · rw [decrypt_unkeyed hs ((keyed_eq_false_iff c).mpr hk)]
    rfl
  · have hb := hinv.bufLen_le hs
    rw [decrypt_keyed hs ((keyed_iff c).mpr hk),
      stream_chunks decryptMove_nil (hinv.pos_lt hs).le hdata hchunks hlast,
      chunkMoves_decrypt (fun x hx => (hchunks x hx).trans_le hb) (hlast.le.trans hb),
      settlePrg_ok_out]

/-! ## Decryption undoes encryption (R145) -/

theorem xorBytes_cancel {X Y : List Byte} (h : X.length = Y.length) :
    xorBytes X (xorBytes X Y) = Y := by
  apply List.ext_getElem
  · simp [xorBytes, h]
  · intro i _ _
    simp [xorBytes]

theorem encryptMove_out_length (k : Nat) (X : List Byte) (S : Sponge) :
    (encryptMove k X S).2.length = X.length :=
  memRead_length _ _ _

/-- The move of PRG.DECRYPT on the ciphertext of a chunk gives the chunk back and leaves the State
the move of PRG.ENCRYPT left. -/
theorem decryptMove_encryptMove (k j : Nat) {X : List Byte} (hX : X.length ≤ 192) (S : Sponge) :
    decryptMove j (encryptMove k X S).2 S = ((encryptMove k X S).1, X) := by
  have hlen := encryptMove_out_length k X S
  rw [decryptMove_eq j (hlen.trans_le hX), hlen, encryptMove_eq k hX,
    xorBytes_cancel (memRead_length S 0 X.length)]

/-- The same for the whole loop: both loops cut their data alike. -/
theorem streamLoop_decrypt_encrypt {fuel n : Nat} {c : PrgCtx} {pt : List Byte}
    (hb : 0 < c.bufLen) (hb192 : c.bufLen ≤ 192) (hpt : pt.length = n) (hfuel : n ≤ fuel) :
    streamLoop decryptMove fuel n (streamLoop encryptMove fuel n pt c).2 c =
      ((streamLoop encryptMove fuel n pt c).1, pt) := by
  induction fuel generalizing n pt c with
  | zero =>
    obtain rfl : n = 0 := Nat.eq_zero_of_le_zero hfuel
    obtain rfl := List.eq_nil_of_length_eq_zero hpt
    simp only [streamLoop_done]
  | succ fuel ih =>
    obtain rfl | hpos := Nat.eq_zero_or_pos n
    · obtain rfl := List.eq_nil_of_length_eq_zero hpt
      simp only [streamLoop_done]
    obtain hlt | hle := Nat.lt_or_ge n c.bufLen
    · have hct : (encryptMove n pt c.S).2.length = n := (encryptMove_out_length n pt c.S).trans hpt
      rw [streamLoop_partial _ _ hpos hlt (Nat.succ_pos fuel),
        streamLoop_partial _ _ hpos hlt (Nat.succ_pos fuel)]
      simp only [List.take_of_length_le hpt.le, List.take_of_length_le hct.le,
        decryptMove_encryptMove n n (hpt.trans_le (hlt.le.trans hb192))]
    · have hx : (pt.take c.bufLen).length = c.bufLen := List.length_take_of_le (hle.trans hpt.ge)
      have hct := (encryptMove_out_length c.bufLen (pt.take c.bufLen) c.S).trans hx
      rw [streamLoop_full encryptMove pt hb hle, streamLoop_full decryptMove _ hb hle]
      simp only [List.take_left' hct, List.drop_left' hct,
        decryptMove_encryptMove c.bufLen c.bufLen (hx.trans_le hb192)]
      rw [ih (c := { c with S := _, pos := 0 }) hb hb192 (by rw [List.length_drop, hpt]) (by omega),
        List.take_append_drop]

/-- Settles O30: both commands run their loop from the same committed context, so the second gives
the plaintext back and ends in the context of the first (`streamLoop_decrypt_encrypt`). -/
theorem encryptDecryptConverge : Obligations.EncryptDecryptConverge := by
  intro a b len s c pt rest hab hca hcb hs hk hinv hlen hdin
  have hab' : a.toNat ≠ b.toNat := fun h => hab (BitVec.eq_of_toNat_eq h)
  have hpos := hinv.pos_lt hs
  have hb : 0 < c.bufLen := Nat.zero_lt_of_lt hpos
  obtain ⟨c', ct, henc, hct, hdec⟩ : ∃ c' ct, c.encrypt pt.length pt = .ok (c', ct) ∧
      ct.length = pt.length ∧ c.decrypt ct.length ct = .ok (c', pt) := by
    have henc : c.encrypt pt.length pt =
        .ok (streamLoop encryptMove pt.length pt.length pt (c.afterCommit dcText)) := by
      rw [encrypt_keyed hs hk, stream_inside hpos.le]
    have hct := henc ▸ encrypt_answers (c := c) (data := pt) rfl
    refine ⟨_, _, henc, hct hinv, ?_⟩
    rw [hct hinv, decrypt_keyed hs hk, stream_inside hpos.le,
      streamLoop_decrypt_encrypt (by rwa [afterCommit_bufLen])
        (by rw [afterCommit_bufLen]; exact hinv.bufLen_le hs) rfl (Nat.le_refl _)]
  refine ⟨_, _, ct, exec_prgEncrypt_run hca hlen hdin, by rw [henc]; rfl, hct,
    exec_prgDecrypt_run (c := c) (data := ct) (rest := rest) ?_ (hct.trans hlen) rfl, ?_, ?_, ?_⟩
  · rw [henc, settlePrg_ok]
    exact (List.getElem?_set_ne hab').trans hcb
  all_goals rw [hdec, henc]
  · rfl
  · rfl
  · obtain ⟨ha, -⟩ := List.getElem?_eq_some_iff.mp hca
    obtain ⟨hb, -⟩ := List.getElem?_eq_some_iff.mp hcb
    simp [ha, hb, hab'.symm]

end Sys2Proof.Machine
end

section
/-! The mode of a started context, which the keyed test reads from `buf_len` (R130, R133): only
PRG.START, PRG.CLONE and a PRG.RESTART with a key change it. -/

namespace Sys2Proof.Machine

open Sys2Proof Sys2Proof.Spec

section Operations
variable {c c' : PrgCtx} {n : Nat} {ann key data : List Byte} {r : PrgCtx × List Byte}

/-- The keyed test reads `l`, `d` and `buf_len` alone. -/
theorem keyed_eq_of_level_eq (hlevel : c'.level = c.level) (hbuf : c'.bufLen = c.bufLen) :
    c'.keyed = c.keyed := by
  obtain ⟨-, hl, hd⟩ := (level_eq_iff c c').mp hlevel
  rw [PrgCtx.keyed, PrgCtx.keyed, hl, hd, hbuf]

theorem stream_keeps_keyed {code : Byte} {mv : Move} (hpos : c.pos ≤ c.bufLen)
    (h : c.stream code mv n data = .ok r) : r.1.keyed = c.keyed := by
  refine keyed_eq_of_level_eq (stream_keeps_level h) ?_
  rw [stream_inside hpos] at h
  obtain rfl := Except.ok.inj h
  obtain ⟨-, -, -, hbuf⟩ := streamLoop_frame mv n n data (c.afterCommit code)
  exact hbuf.trans afterCommit_bufLen

theorem ratchet_keeps_keyed (hs : c.started = true) (hpos : c.pos ≤ c.bufLen)
    (h : c.ratchet = .ok r) : r.1.keyed = c.keyed := by
  refine keyed_eq_of_level_eq (ratchet_keeps_level h) ?_
  rw [ratchet_inside hs hpos] at h
  obtain rfl := Except.ok.inj h
  rfl

/-- PRG.ENCRYPT and PRG.DECRYPT answer a context only where the keyed test is true (R205). -/
theorem encrypt_keeps_keyed (hs : c.started = true) (hpos : c.pos ≤ c.bufLen)
    (h : c.encrypt n data = .ok r) : r.1.keyed = c.keyed := by
  cases hk : c.keyed with
  | false => exact nomatch (encrypt_unkeyed hs hk).symm.trans h
  | true => exact (stream_keeps_keyed hpos ((encrypt_keyed hs hk).symm.trans h)).trans hk

theorem decrypt_keeps_keyed (hs : c.started = true) (hpos : c.pos ≤ c.bufLen)
    (h : c.decrypt n data = .ok r) : r.1.keyed = c.keyed := by
  cases hk : c.keyed with
  | false => exact nomatch (decrypt_unkeyed hs hk).symm.trans h
  | true => exact (stream_keeps_keyed hpos ((decrypt_keyed hs hk).symm.trans h)).trans hk

/-- A PRG.RESTART with a key leaves a keyed context, one without a key leaves the mode (R136). -/
theorem restart_keyed (hs : c.started = true) (hinv : c.Inv) (h : c.restart ann key = .ok r) :
    r.1.keyed = (c.keyed || decide (0 < key.length)) := by
  have hlevel := restart_keeps_level h
  have hlen : goodLengths c.l ann.length key.length := by
    by_contra hbad
    exact nomatch (restart_badLengths hs hbad).symm.trans h
  have hbuf : r.1.bufLen = if 0 < key.length then keyedBufLen c.l c.d else c.bufLen := by
    rw [restart_inside hs hlen (hinv.pos_lt hs).le] at h
    obtain rfl := Except.ok.inj h
    simp only [PrgCtx.restarted, PrgCtx.mixIn]
  by_cases hkey : 0 < key.length
  · obtain ⟨-, hl, hd⟩ := (level_eq_iff c r.1).mp hlevel
    rw [if_pos hkey, ← hl, ← hd] at hbuf
    rw [keyed_at_keyedBufLen (by rw [hl, hd]; exact hinv.level hs) hbuf, decide_eq_true hkey,
      Bool.or_true]
  · rw [if_neg hkey] at hbuf
    rw [keyed_eq_of_level_eq hlevel hbuf, decide_eq_false hkey, Bool.or_false]

end Operations

section Runs
variable {ctx n : Nat} {s t : State} {c c' : PrgCtx}
  {f : List Byte → PrgCtx → Except Status (PrgCtx × List Byte)}

/-- What a command leaves in the context it names: the fault of its operation and the context as it
was, or OK and the answer of its operation. -/
theorem runPrg_at (h : runPrg ctx n f s = .next t) (hc : s.prg[ctx]? = some c)
    (hc' : t.prg[ctx]? = some c') :
    ∃ X, X.length = n ∧
      ((∃ k, f X c = .error k ∧ t.status = k.code ∧ c' = c) ∨
        ∃ r, f X c = .ok r ∧ t.status = 0 ∧ c' = r.1) := by
  obtain ⟨hnone, -⟩ | ⟨c₀, hc₀, hn, rfl⟩ := runPrg_cases h
  · exact nomatch hnone.symm.trans hc
  cases hc₀.symm.trans hc
  refine ⟨s.din.take n, List.length_take_of_le hn, ?_⟩
  cases hr : f (s.din.take n) c with
  | error k =>
    rw [hr] at hc'
    exact .inl ⟨k, rfl, rfl, Option.some.inj (hc'.symm.trans hc)⟩
  | ok r =>
    obtain ⟨hlt, -⟩ := List.getElem?_eq_some_iff.mp hc
    rw [hr, settlePrg_ok, finish_prg, setPrg_prg, List.getElem?_set_self hlt] at hc'
    exact .inr ⟨r, rfl, rfl, (Option.some.inj hc').symm⟩

/-- A command keeps the mode of the context it names if its operation does. -/
theorem runPrg_keeps_keyed (h : runPrg ctx n f s = .next t) (hc : s.prg[ctx]? = some c)
    (hc' : t.prg[ctx]? = some c') (hf : ∀ X r, f X c = .ok r → r.1.keyed = c.keyed) :
    c'.keyed = c.keyed := by
  obtain ⟨X, -, ⟨k, -, -, rfl⟩ | ⟨r, hr, -, rfl⟩⟩ := runPrg_at h hc hc'
  · rfl
  · exact hf X r hr

/-- PRG.RESTART makes its context keyed where it is given a key and ends with OK. -/
theorem execPrgRestart_keyed {ctx annLen keyLen : Byte}
    (h : execPrgRestart ctx annLen keyLen s = .next t) (hc : s.prg[ctx.toNat]? = some c)
    (hc' : t.prg[ctx.toNat]? = some c') (hs : c.started = true) (hinv : c.Inv) :
    c'.keyed = (c.keyed || (decide (0 < keyLen.toNat) && t.status == 0)) := by
  obtain ⟨X, hX, ⟨k, hk, hstatus, rfl⟩ | ⟨r, hr, hstatus, rfl⟩⟩ := runPrg_at h hc hc'
  · have hanswer : Answers True 0 (c'.restart (annOf annLen X) (keyOf annLen X)) := restart_answers
    obtain ⟨hok, -⟩ := hk ▸ hanswer
    have hne : (t.status == 0) = false := by
      rw [hstatus, beq_eq_false_iff_ne]
      exact fun he => hok ((Status.code_eq_zero_iff k).mp he)
    rw [hne, Bool.and_false, Bool.or_false]
  · rw [restart_keyed hs hinv hr, keyOf_length hX, hstatus, beq_self_eq_true, Bool.and_true]

end Runs

/-- A PRG.RESTART of a context writes it. -/
theorem restartsWithKey_eq_false {i : Instr} {j : Nat} (h : prgTarget i ≠ some j) :
    restartsWithKey j i = false := by
  cases i with
  | prgRestart ctx a k =>
    have hj : ctx.toNat ≠ j := fun hj => h (congrArg some hj)
    rw [restartsWithKey, beq_eq_false_iff_ne.mpr hj, Bool.false_and]
  | _ => rfl

/-- The rule for the mode (R130) asks of a command that is no PRG.RESTART with a key to keep it. -/
theorem keyed_eq_or_of_keyed_eq {i : Instr} {j : Nat} {t : State} {c c' : PrgCtx}
    (hi : restartsWithKey j i = false) (h : c'.keyed = c.keyed) :
    c'.keyed = (c.keyed || (restartsWithKey j i && t.status == 0)) := by
  rw [h, hi, Bool.false_and, Bool.or_false]

/-- Settles O29: a command that does not write the context keeps it, and of those that do only
PRG.RESTART changes its mode (`execPrgRestart_keyed`). -/
theorem modeChangesOnlyByKeyedRestart : Obligations.ModeChangesOnlyByKeyedRestart := by
  intro i s t j c c' h hc hc' hs hinv hi
  have hpos := (hinv.pos_lt hs).le
  by_cases htarget : prgTarget i = some j
  case neg =>
    obtain ⟨-, hprg, -⟩ := exec_changesOnly h
    cases ((hprg j htarget).trans hc).symm.trans hc'
    exact keyed_eq_or_of_keyed_eq (restartsWithKey_eq_false htarget) rfl
  cases i with rw [exec] at h
  | bashs | bashf | hashInit | hashReset | hashUpdate | hashDigest | hashClone => cases htarget
  | prgStart | prgClone =>
    exact absurd (Option.some.inj htarget) (beq_eq_false_iff_ne.mp hi)
  | prgRestart ctx annLen keyLen =>
    obtain rfl := Option.some.inj htarget
    rw [restartsWithKey, beq_self_eq_true, Bool.true_and]
    exact execPrgRestart_keyed h hc hc' hs hinv
  | prgAbsorb =>
    obtain rfl := Option.some.inj htarget
    exact keyed_eq_or_of_keyed_eq rfl (runPrg_keeps_keyed h hc hc' fun _ _ hr =>
      stream_keeps_keyed hpos ((absorb_started hs).symm.trans hr))
  | prgSqueeze =>
    obtain rfl := Option.some.inj htarget
    exact keyed_eq_or_of_keyed_eq rfl (runPrg_keeps_keyed h hc hc' fun _ _ hr =>
      stream_keeps_keyed hpos ((squeeze_started hs).symm.trans hr))
  | prgEncrypt =>
    obtain rfl := Option.some.inj htarget
    exact keyed_eq_or_of_keyed_eq rfl (runPrg_keeps_keyed h hc hc' fun _ _ =>
      encrypt_keeps_keyed hs hpos)
  | prgDecrypt =>
    obtain rfl := Option.some.inj htarget
    exact keyed_eq_or_of_keyed_eq rfl (runPrg_keeps_keyed h hc hc' fun _ _ =>
      decrypt_keeps_keyed hs hpos)
  | prgRatchet =>
    obtain rfl := Option.some.inj htarget
    exact keyed_eq_or_of_keyed_eq rfl (runPrg_keeps_keyed h hc hc' fun _ _ =>
      ratchet_keeps_keyed hs hpos)

end Sys2Proof.Machine
end

section
/-! The hash engine's byte order (R171): big-endian words with the flag 1 are the plain permutation
of the bytes. -/

namespace Sys2Proof.Machine

open Sys2Proof Sys2Proof.Spec

/-- The big-endian word of eight bytes is the swapped little-endian one (R9, R171). -/
theorem be64_eq_bswap64_le64 (f : Nat → Byte) : be64 f = bswap64 (le64 f) := by
  rw [bswap64, be64_eq_le64, be64_eq_le64]
  exact le64_congr fun j _ => (byteOf_le64 f (by omega)).symm

/-- The most significant byte of the swapped word is the least significant one of the word (R9). -/
theorem be64bytes_bswap64 (w : Word) : be64bytes (bswap64 w) = le64bytes w := by
  refine List.map_congr_left fun j hj => ?_
  have hj8 : j < 8 := List.mem_range.mp hj
  rw [byteOf_bswap64 w (by omega), Nat.sub_sub_self (by omega)]

theorem wordsBE_eq_swapWords (Z : List Byte) : wordsBE Z = swapWords (wordsLE Z) := by
  ext1 i hi
  simp only [wordsBE, swapWords, wordsLE, Vector.getElem_ofFn, Vector.getElem_map,
    be64_eq_bswap64_le64]

theorem bytesBE_swapWords (S : Sponge) : bytesBE (swapWords S) = bytesLE S := by
  simp only [bytesBE, swapWords, bytesLE, Vector.toList_map, List.flatMap_map, be64bytes_bswap64]

@[simp] theorem swapWords_swapWords (S : Sponge) : swapWords (swapWords S) = S := by
  ext1 i hi
  simp only [swapWords, Vector.getElem_map, bswap64_bswap64]

/-- The flag 1 is the plain permutation between two swaps (R115). -/
theorem bashf_true_swapWords (S : Sponge) :
    bashf true (swapWords S) = swapWords (bashf false S) := by
  change swapWords (bashRounds (swapWords (swapWords S))) = _
  rw [swapWords_swapWords]
  rfl

/-- Settles O18: the swap before the rounds undoes the big-endian reading, the swap after them the
big-endian writing. -/
theorem bigEndianViewWithFlagIsPlainPermutation :
    Obligations.BigEndianViewWithFlagIsPlainPermutation := by
  intro Z _
  constructor
  · rw [wordsBE_eq_swapWords, bashf_true_swapWords, bytesBE_swapWords]
  · rw [bashfBytes, bytesOfSponge_eq_bytesLE, spongeOfBytes_eq_wordsLE]

end Sys2Proof.Machine
end

section
/-! The hash engine on one context (R172 to R176): what HASH.INIT leaves, and what a message fed to
a context byte by byte leaves in it, as block steps and pending bytes. -/

namespace Sys2Proof.Machine

open Sys2Proof Sys2Proof.Spec

/-! ## A fresh context -/

/-- The context HASH.INIT leaves, whatever it held before (R172, R173). -/
def HashCtx.fresh (outLen : Nat) : HashCtx :=
  { constructed := true, outLen := outLen, blockLen := 192 - 2 * outLen, HB := initialHB outLen
    hbuf := List.replicate (192 - 2 * outLen) 0, hcur := 0, total := 0 }

@[simp] theorem fresh_outLen (outLen : Nat) : (HashCtx.fresh outLen).outLen = outLen := rfl

@[simp] theorem fresh_blockLen (outLen : Nat) :
    (HashCtx.fresh outLen).blockLen = 192 - 2 * outLen := rfl

theorem outLenOk_iff (n : Nat) : outLenOk n = true ↔ n = 32 ∨ n = 48 ∨ n = 64 := by
  simp only [outLenOk, Bool.or_eq_true, beq_iff_eq, or_assoc]

theorem byteAt_initialHB (outLen : Nat) {k : Nat} (hk : k < 192) :
    byteAt (initialHB outLen) k = if k = 184 then BitVec.ofNat 8 outLen else 0 :=
  byteAt_ofBytes _ hk

section Operations
variable {h : HashCtx} {ow : Bool}

theorem init_legal {outLen : Nat} (hlen : outLen = 32 ∨ outLen = 48 ∨ outLen = 64) :
    h.init outLen = .ok (HashCtx.fresh outLen, []) := by
  rw [HashCtx.init, if_pos ((outLenOk_iff outLen).mpr hlen)]
  rfl

theorem init_illegal {outLen : Nat} (hlen : ¬(outLen = 32 ∨ outLen = 48 ∨ outLen = 64)) :
    h.init outLen = .error .invalidParameter :=
  if_neg (mt (outLenOk_iff outLen).mp hlen)

theorem resetCtx_constructed (hc : h.constructed = true) : h.resetCtx = .ok (h.initial, []) := by
  simp only [HashCtx.resetCtx, hc, Bool.true_eq_false, if_false]

theorem digest_constructed (hc : h.constructed = true) :
    h.digest ow = .ok (h, memRead (blockStep ow h.HB h.finalBlock) 0 h.outLen) := by
  simp only [HashCtx.digest, hc, Bool.true_eq_false, if_false]
  rfl

/-! ## A message fed to a context -/

/-- The context after the bytes of a message, whatever HASH.UPDATE commands carried them (R175). -/
def HashCtx.fed (ow : Bool) (M : List Byte) (h : HashCtx) : HashCtx :=
  { M.foldl (HashCtx.updateByte ow) h with total := h.total + M.length }

theorem update_constructed {M : List Byte} (hc : h.constructed = true) :
    h.update ow M = .ok (h.fed ow M, []) := by
  simp only [HashCtx.update, hc, Bool.true_eq_false, if_false, HashCtx.fed]

/-- A byte does not read the counter (R178). -/
theorem updateByte_with_total (b : Byte) (n : Nat) :
    ({ h with total := n } : HashCtx).updateByte ow b =
      { h.updateByte ow b with total := n } := by
  by_cases hfull : h.hcur + 1 = h.blockLen
  · rw [updateByte_full ow h b hfull, updateByte_full ow { h with total := n } b hfull]
    rfl
  · rw [updateByte_partial ow h b hfull, updateByte_partial ow { h with total := n } b hfull]

theorem foldl_updateByte_with_total (M : List Byte) (n : Nat) :
    M.foldl (HashCtx.updateByte ow) { h with total := n } =
      { M.foldl (HashCtx.updateByte ow) h with total := n } := by
  induction M generalizing h with
  | nil => rfl
  | cons b M ih => rw [List.foldl_cons, updateByte_with_total, ih, List.foldl_cons]

@[simp] theorem fed_nil : h.fed ow [] = h := rfl

/-- Feeding a message in two parts is feeding it whole, the counter included (R175). -/
theorem fed_fed (X Y : List Byte) : (h.fed ow X).fed ow Y = h.fed ow (X ++ Y) := by
  simp only [HashCtx.fed, foldl_updateByte_with_total, List.foldl_append, List.length_append,
    Nat.add_assoc]

theorem foldl_updateByte_frame (M : List Byte) :
    (M.foldl (HashCtx.updateByte ow) h).constructed = h.constructed ∧
    (M.foldl (HashCtx.updateByte ow) h).outLen = h.outLen ∧
    (M.foldl (HashCtx.updateByte ow) h).blockLen = h.blockLen := by
  induction M generalizing h with
  | nil => exact ⟨rfl, rfl, rfl⟩
  | cons b M ih =>
    obtain ⟨hcon, hout, hblk, -⟩ := updateByte_frame ow h b
    rw [List.foldl_cons, ← hcon, ← hout, ← hblk]
    exact ih

@[simp] theorem fed_constructed (M : List Byte) : (h.fed ow M).constructed = h.constructed := by
  obtain ⟨hcon, -, -⟩ := foldl_updateByte_frame (h := h) (ow := ow) M
  exact hcon

@[simp] theorem fed_outLen (M : List Byte) : (h.fed ow M).outLen = h.outLen := by
  obtain ⟨-, hout, -⟩ := foldl_updateByte_frame (h := h) (ow := ow) M
  exact hout

@[simp] theorem fed_blockLen (M : List Byte) : (h.fed ow M).blockLen = h.blockLen := by
  obtain ⟨-, -, hblk⟩ := foldl_updateByte_frame (h := h) (ow := ow) M
  exact hblk

/-- Feeding changes the State, the buffer, the cursor and the counter, and nothing else. -/
theorem fed_eq_update (M : List Byte) :
    h.fed ow M =
      { h with
        HB := (h.fed ow M).HB, hbuf := (h.fed ow M).hbuf, hcur := (h.fed ow M).hcur
        total := h.total + M.length } := by
  rw [← fed_constructed (h := h) (ow := ow) M, ← fed_outLen (h := h) (ow := ow) M,
    ← fed_blockLen (h := h) (ow := ow) M]
  rfl

end Operations

/-! ## The State and the pending bytes -/

/-- The engine's State and its pending bytes, fewer than a block; what stands in the buffer behind
them is left open, as nothing reads it. -/
structure HashCtx.Holds (h : HashCtx) (HB : Sponge) (pending : List Byte) : Prop where
  state : h.HB = HB
  cursor : h.hcur = pending.length
  buffer : h.hbuf.take pending.length = pending
  size : h.hbuf.length = h.blockLen
  room : pending.length < h.blockLen

section Holds
variable {h : HashCtx} {HB : Sponge} {pending : List Byte} {ow : Bool} {b : Byte}

/-- A constructed context that meets the invariant holds the bytes before its cursor (R175). -/
theorem HashCtx.Inv.holds (hinv : h.Inv) (hc : h.constructed = true) :
    h.Holds h.HB (h.hbuf.take h.hcur) := by
  obtain ⟨-, -, hcur, hsize⟩ := hinv hc
  have hlen : (h.hbuf.take h.hcur).length = h.hcur := List.length_take_of_le (by omega)
  exact ⟨rfl, hlen.symm, by rw [hlen], hsize, by rwa [hlen]⟩

theorem fresh_holds {outLen : Nat} (hlen : outLen = 32 ∨ outLen = 48 ∨ outLen = 64) :
    (HashCtx.fresh outLen).Holds (initialHB outLen) [] :=
  ⟨rfl, rfl, rfl, List.length_replicate, by rw [fresh_blockLen, List.length_nil]; omega⟩

/-- The byte written at the cursor stands behind the pending bytes. -/
theorem HashCtx.Holds.take_set (hh : h.Holds HB pending) :
    (h.hbuf.set h.hcur b).take (pending.length + 1) = pending ++ [b] := by
  have hlt : pending.length < h.hbuf.length := hh.size ▸ hh.room
  rw [List.take_add_one, hh.cursor, List.take_set_of_le (Nat.le_refl _), hh.buffer,
    List.getElem?_set_self hlt, Option.toList_some]

/-- A byte that does not fill the buffer joins the pending bytes (R175). -/
theorem HashCtx.Holds.updateByte_partial (hh : h.Holds HB pending)
    (hlt : pending.length + 1 < h.blockLen) :
    (h.updateByte ow b).Holds HB (pending ++ [b]) := by
  have hne : h.hcur + 1 ≠ h.blockLen := by rw [hh.cursor]; omega
  rw [Machine.updateByte_partial ow h b hne]
  refine ⟨hh.state, ?_, ?_, ?_, ?_⟩
  · simp only [hh.cursor, List.length_append, List.length_singleton]
  · simpa using hh.take_set
  · simpa using hh.size
  · simpa using hlt

/-- The byte that fills the buffer runs the block step on it and leaves none pending (R175). -/
theorem HashCtx.Holds.updateByte_full (hh : h.Holds HB pending)
    (hfull : pending.length + 1 = h.blockLen) :
    (h.updateByte ow b).Holds (blockStep ow HB (pending ++ [b])) [] := by
  have hcur : h.hcur + 1 = h.blockLen := by rw [hh.cursor, hfull]
  rw [Machine.updateByte_full ow h b hcur]
  refine ⟨?_, rfl, rfl, ?_, Nat.zero_lt_of_lt hh.room⟩
  · rw [← hfull, hh.take_set, ← hh.state]
    rfl
  · simpa using hh.size

/-- Fed a message, a context runs a block step for each full block of its pending bytes and the
message together, and holds the rest (R175). -/
theorem HashCtx.Holds.foldl_updateByte {M last : List Byte} {blocks : List (List Byte)}
    (hh : h.Holds HB pending) (hM : pending ++ M = blocks.flatten ++ last)
    (hblocks : ∀ x ∈ blocks, x.length = h.blockLen) (hlast : last.length < h.blockLen) :
    (M.foldl (HashCtx.updateByte ow) h).Holds (blocks.foldl (blockStep ow) HB) last := by
  induction M generalizing h HB pending blocks with
  | nil =>
    cases blocks with
    | nil =>
      obtain rfl : pending = last := by simpa using hM
      exact hh
    | cons x xs =>
      -- the pending bytes alone are less than a block
      have hroom := hh.room
      have hx := hblocks x List.mem_cons_self
      have hlen := congrArg List.length hM
      simp only [List.length_append, List.flatten_cons, List.length_nil] at hlen
      omega
  | cons b M ih =>
    obtain ⟨-, -, hblk, -⟩ := updateByte_frame ow h b
    rw [← hblk] at hblocks hlast
    have hroom := hh.room
    have hM' : (pending ++ [b]) ++ M = blocks.flatten ++ last := by simpa using hM
    rw [List.foldl_cons]
    obtain hlt | hfull : pending.length + 1 < h.blockLen ∨ pending.length + 1 = h.blockLen := by
      omega
    · exact ih (hh.updateByte_partial hlt) hM' hblocks hlast
    · cases blocks with
      | nil =>
        have hlen := congrArg List.length hM'
        simp only [List.length_append, List.length_singleton, List.flatten_nil, List.length_nil]
          at hlen
        omega
      | cons x xs =>
        obtain ⟨hx, hxs⟩ := List.forall_mem_cons.mp hblocks
        rw [List.flatten_cons, List.append_assoc x] at hM'
        have hlen : (pending ++ [b]).length = x.length := by
          rw [hx, hblk, ← hfull, List.length_append, List.length_singleton]
        obtain ⟨rfl, hrest⟩ := List.append_inj hM' hlen
        rw [List.foldl_cons]
        exact ih (hh.updateByte_full hfull) hrest hxs hlast

theorem HashCtx.Holds.fed {M last : List Byte} {blocks : List (List Byte)}
    (hh : h.Holds HB pending) (hM : pending ++ M = blocks.flatten ++ last)
    (hblocks : ∀ x ∈ blocks, x.length = h.blockLen) (hlast : last.length < h.blockLen) :
    (h.fed ow M).Holds (blocks.foldl (blockStep ow) HB) last := by
  obtain ⟨hstate, hcur, hbuf, hsize, hroom⟩ := hh.foldl_updateByte hM hblocks hlast
  exact ⟨hstate, hcur, hbuf, hsize, hroom⟩

/-- The final block: pending bytes, marker, zeros (R176). -/
theorem HashCtx.Holds.finalBlock_eq (hh : h.Holds HB pending) :
    h.finalBlock =
      pending ++ [0x40] ++ List.replicate (h.blockLen - pending.length - 1) 0 := by
  have hroom := hh.room
  have hpending : ∀ k < pending.length, h.hbuf.getD k 0 = pending.getD k 0 := fun k hk => by
    rw [← hh.buffer, List.getD_eq_getElem?_getD, List.getD_eq_getElem?_getD,
      List.getElem?_take_of_lt hk]
  apply List.ext_getElem
  · simp; omega
  · intro k hk _
    rw [finalBlock_length] at hk
    simp only [HashCtx.finalBlock, List.getElem_map, List.getElem_range, hh.cursor]
    obtain hlt | rfl | hgt := Nat.lt_trichotomy k pending.length
    · rw [if_pos hlt, hpending k hlt]
      simp [hlt]
    · simp [hashMark]
    · rw [if_neg (by omega), if_neg (by omega), List.getElem_append_right (by simp; omega),
        List.getElem_replicate]

end Holds

end Sys2Proof.Machine
end

section
/-! What the hash commands leave and put out (R172 to R177), that messages split freely over
HASH.UPDATE (R175), and that the two settings of the block step agree below one block (R174). -/

namespace Sys2Proof.Machine

open Sys2Proof Sys2Proof.Spec

/-- The end of a command on a hash context that answers a context and puts nothing out. -/
theorem settleHash_ok_nil (ctx : Nat) (s : State) (h : HashCtx) :
    settleHash ctx s (.ok (h, [])) = { s with hash := s.hash.set ctx h, status := 0 } := by
  rw [settleHash_ok, finish_nil]
  simp only [State.setHash]

/-! ## HASH.INIT and HASH.RESET -/

section Commands
variable {ctx : Byte} {s : State} {h : HashCtx}

theorem exec_hashInit_run (outLen : BitVec 16) (hctx : ctx.toNat < s.hash.length) :
    exec (.hashInit ctx outLen) s =
      .next (settleHash ctx.toNat s (s.hash[ctx.toNat].init outLen.toNat)) :=
  runHash_run_zero (fun _ h => h.init outLen.toNat) (List.getElem?_eq_getElem hctx)

theorem exec_hashReset_run (hh : s.hash[ctx.toNat]? = some h) :
    exec (.hashReset ctx) s = .next (settleHash ctx.toNat s h.resetCtx) :=
  runHash_run_zero (fun _ h => h.resetCtx) hh

theorem exec_hashDigest_run (hh : s.hash[ctx.toNat]? = some h) :
    exec (.hashDigest ctx) s =
      .next (settleHash ctx.toNat s (h.digest s.hashAbsorbOverwrite)) :=
  runHash_run_zero (fun _ h => h.digest s.hashAbsorbOverwrite) hh

theorem exec_hashUpdate_run {len : BitVec 64} {data rest : List Byte}
    (hh : s.hash[ctx.toNat]? = some h) (hlen : data.length = len.toNat)
    (hdin : s.din = data ++ rest) :
    exec (.hashUpdate ctx len) s = .next
      (settleHash ctx.toNat { s with din := rest } (h.update s.hashAbsorbOverwrite data)) := by
  rw [exec, execHashUpdate, ← hlen]
  exact runHash_run _ hh hdin

theorem exec_hashInit_legal {outLen : BitVec 16} (hctx : ctx.toNat < s.hash.length)
    (hlen : outLen.toNat = 32 ∨ outLen.toNat = 48 ∨ outLen.toNat = 64) :
    exec (.hashInit ctx outLen) s = .next { s with
      hash := s.hash.set ctx.toNat (HashCtx.fresh outLen.toNat), status := 0 } := by
  rw [exec_hashInit_run outLen hctx, init_legal hlen, settleHash_ok_nil]

theorem exec_hashUpdate_constructed {len : BitVec 64} {data rest : List Byte}
    (hh : s.hash[ctx.toNat]? = some h) (hc : h.constructed = true)
    (hlen : data.length = len.toNat) (hdin : s.din = data ++ rest) :
    exec (.hashUpdate ctx len) s = .next { s with
      hash := s.hash.set ctx.toNat (h.fed s.hashAbsorbOverwrite data), din := rest
      status := 0 } := by
  rw [exec_hashUpdate_run hh hlen hdin, update_constructed hc, settleHash_ok_nil]

theorem exec_hashUpdate_unconstructed {len : BitVec 64} {data rest : List Byte}
    (hh : s.hash[ctx.toNat]? = some h) (hc : h.constructed = false)
    (hlen : data.length = len.toNat) (hdin : s.din = data ++ rest) :
    exec (.hashUpdate ctx len) s = .next { s with din := rest, status := 5 } := by
  rw [exec_hashUpdate_run hh hlen hdin, update_unconstructed hc]
  rfl

/-- HASH.DIGEST writes its context back as it was (R176). -/
theorem exec_hashDigest_constructed {HB : Sponge} {pending : List Byte}
    (hh : s.hash[ctx.toNat]? = some h) (hc : h.constructed = true) (hholds : h.Holds HB pending) :
    exec (.hashDigest ctx) s = .next { s with
      dout := s.dout ++ memRead
        (blockStep s.hashAbsorbOverwrite HB
          (pending ++ [0x40] ++ List.replicate (h.blockLen - pending.length - 1) 0)) 0 h.outLen
      status := 0 } := by
  obtain ⟨hlt, rfl⟩ := List.getElem?_eq_some_iff.mp hh
  rw [exec_hashDigest_run hh, digest_constructed hc, hholds.finalBlock_eq, hholds.state,
    settleHash_ok]
  simp only [State.setHash, List.set_getElem_self, State.finish, State.putOut, State.withStatus,
    Status.code]

end Commands

/-- Settles O31: the legal lengths give the fresh context (`init_legal`), the others the fault. -/
theorem hashInitResult : Obligations.HashInitResult := by
  intro ctx outLen s hctx
  refine ⟨fun h32 h48 h64 => ?_, fun hlen => ⟨initialHB outLen.toNat,
    exec_hashInit_legal hctx hlen, fun k hk => byteAt_initialHB _ hk⟩⟩
  rw [exec_hashInit_run outLen hctx, init_illegal (by omega)]
  rfl

/-- Settles O32: a constructed context goes to its initial State (`byteAt_initial`). -/
theorem hashResetResult : Obligations.HashResetResult := by
  intro ctx s h hh
  rw [exec_hashReset_run hh]
  refine ⟨fun hc => ?_, fun hc => ⟨h.initial.HB, ?_, fun k hk => byteAt_initial h hk⟩⟩
  · rw [resetCtx_unconstructed hc]
    rfl
  · rw [resetCtx_constructed hc, settleHash_ok_nil]
    rfl

/-! ## HASH.UPDATE and HASH.DIGEST -/

/-- Settles O33: the command feeds the context the data, and `HashCtx.Holds.fed` gives the State and
the pending bytes it then holds. -/
theorem hashUpdateResult : Obligations.HashUpdateResult := by
  intro ctx len s h data rest hh hlen hdin
  refine ⟨fun hc => exec_hashUpdate_unconstructed hh hc hlen hdin,
    fun hc hinv blocks last hdata hblocks hlast => ?_⟩
  have hholds := (hinv.holds hc).fed (ow := s.hashAbsorbOverwrite) hdata hblocks hlast
  refine ⟨(h.fed s.hashAbsorbOverwrite data).hbuf, ?_, hholds.buffer,
    hholds.size.trans (fed_blockLen data)⟩
  rw [exec_hashUpdate_constructed hh hc hlen hdin, fed_eq_update, hholds.state, hholds.cursor]

/-- Settles O34: the pending bytes are those before the cursor. -/
theorem hashDigestResult : Obligations.HashDigestResult := by
  intro ctx s h hh
  refine ⟨fun hc => ?_, fun hc hinv => ?_⟩
  · rw [exec_hashDigest_run hh, digest_unconstructed hc]
    rfl
  · have hholds := hinv.holds hc
    rw [exec_hashDigest_constructed hh hc hholds, ← hholds.cursor]

/-- Settles O36: feeding a context `X` and then `Y` is feeding it `X ++ Y` (`fed_fed`); an
unconstructed context answers the same fault to all three commands. -/
theorem updateSplitsFreely : Obligations.UpdateSplitsFreely := by
  intro ctx n1 n2 n s X Y rest hctx hX hY hn hdin
  have hh := List.getElem?_eq_getElem hctx
  have hXY : (X ++ Y).length = n.toNat := by rw [List.length_append, hX, hY, hn]
  have hdinX : s.din = X ++ (Y ++ rest) := by rw [hdin, List.append_assoc]
  cases hc : s.hash[ctx.toNat].constructed with
  | false =>
    exact ⟨_, _, exec_hashUpdate_unconstructed hh hc hX hdinX,
      exec_hashUpdate_unconstructed (s := { s with din := _, status := 5 }) hh hc hY rfl,
      exec_hashUpdate_unconstructed hh hc hXY hdin⟩
  | true =>
    refine ⟨_, _, exec_hashUpdate_constructed hh hc hX hdinX,
      exec_hashUpdate_constructed (s := { s with hash := _, din := _, status := 0 })
        (List.getElem?_set_self hctx) ((fed_constructed X).trans hc) hY rfl, ?_⟩
    rw [exec_hashUpdate_constructed hh hc hXY hdin, List.set_set, fed_fed]

/-! ## The two settings of the block step -/

/-- A message that leaves the buffer unfilled runs no block step, so the setting does not matter. -/
theorem foldl_updateByte_setting {h : HashCtx} (ow ow' : Bool) {M : List Byte}
    (hM : h.hcur + M.length < h.blockLen) :
    M.foldl (HashCtx.updateByte ow) h = M.foldl (HashCtx.updateByte ow') h := by
  induction M generalizing h with
  | nil => rw [List.foldl_nil, List.foldl_nil]
  | cons b M ih =>
    rw [List.length_cons] at hM
    have hne : h.hcur + 1 ≠ h.blockLen := by omega
    rw [List.foldl_cons, List.foldl_cons, updateByte_partial ow h b hne,
      updateByte_partial ow' h b hne]
    refine ih ?_
    simp only
    omega

theorem fed_setting {h : HashCtx} (ow ow' : Bool) {M : List Byte}
    (hM : h.hcur + M.length < h.blockLen) : h.fed ow M = h.fed ow' M := by
  rw [HashCtx.fed, HashCtx.fed, foldl_updateByte_setting ow ow' hM]

/-- XORing bytes into zeros is writing them. -/
theorem xorIn_eq_memWrite_of_zero {X : List Byte} {S : Sponge}
    (hzero : ∀ k < X.length, byteAt S k = 0) : xorIn 0 X S = memWrite 0 X S := by
  refine sponge_ext fun k hk => ?_
  rw [byteAt_xorIn _ _ _ hk, byteAt_memWrite _ _ _ hk]
  split_ifs with hin
  · rw [hzero k (by omega)]
    exact BitVec.zero_xor
  · rfl

/-- On the State of a fresh engine a block that ends before the byte at 184 is written and XORed
alike (R174). -/
theorem blockStep_initialHB_setting (outLen : Nat) {X : List Byte} (hX : X.length ≤ 184) :
    blockStep true (initialHB outLen) X = blockStep false (initialHB outLen) X := by
  have hzero : ∀ k < X.length, byteAt (initialHB outLen) k = 0 := fun k hk => by
    rw [byteAt_initialHB _ (by omega), if_neg (by omega)]
  exact congrArg permute (xorIn_eq_memWrite_of_zero hzero).symm

/-- Settles O37: below one block feeding runs no block step, and the one of the digest acts on the
State of a fresh engine. -/
theorem overwriteAgreesBelowOneBlock : Obligations.OverwriteAgreesBelowOneBlock := by
  intro outLen h0 data hlen hdata
  have hroom : (HashCtx.fresh outLen).hcur + data.length < (HashCtx.fresh outLen).blockLen := by
    simpa [HashCtx.fresh] using hdata
  have hholds := (fresh_holds hlen).fed (ow := true) (M := data) (blocks := []) rfl nofun hdata
  have hc : ((HashCtx.fresh outLen).fed true data).constructed = true := fed_constructed data
  refine ⟨_, _, init_legal hlen, update_constructed rfl, ?_, ?_⟩
  · rw [update_constructed rfl, fed_setting false true hroom]
  · have hfinal : ((HashCtx.fresh outLen).fed true data).finalBlock.length ≤ 184 := by
      rw [finalBlock_length, fed_blockLen, fresh_blockLen]
      omega
    rw [digest_constructed hc, digest_constructed hc, hholds.state]
    exact congrArg (fun S => Except.ok (_, memRead S 0 _))
      (blockStep_initialHB_setting outLen hfinal)

/-! ## HASH.CLONE -/

/-- Settles O35: a clone is a command on its destination that answers the source; a missing source
or destination is InvalidCommand. -/
theorem hashCloneResult : Obligations.HashCloneResult := by
  intro dst src s
  rw [exec]
  refine ⟨fun h hh hdst => ?_, fun hrange => ?_⟩
  · have hclone : execHashClone dst src s =
        .next { s with hash := s.hash.set dst.toNat h, status := 0 } := by
      rw [execHashClone_source hh, runHash_run_zero _ (List.getElem?_eq_getElem hdst),
        settleHash_ok_nil]
    refine ⟨hclone, ?_⟩
    rintro rfl
    obtain ⟨hlt, rfl⟩ := List.getElem?_eq_some_iff.mp hh
    rw [hclone, List.set_getElem_self]
  · refine ⟨raiseInvalidCommand s, ?_, rfl, rfl, rfl, rfl, rfl⟩
    cases hsrc : s.hash[src.toNat]? with
    | none => exact execHashClone_noSource hsrc
    | some h =>
      obtain ⟨hlt, -⟩ := List.getElem?_eq_some_iff.mp hsrc
      rw [execHashClone_source hsrc, runHash_outOfRange]
      exact List.getElem?_eq_none (by omega)

end Sys2Proof.Machine
end

section
/-! Commands the host issues in a row (R38, R235), and the digest as a function of the message,
however it is split over HASH.UPDATE commands (R179). -/

namespace Sys2Proof.Machine

open Sys2Proof Sys2Proof.Spec

/-! ## Issuing commands -/

section Issue
variable {c : Command} {cs : List Command} {s t : State}

/-- Issuing a well-formed command runs it, with its payload at the head of DIN (R70). -/
theorem issue_eq_exec (hb : s.streamBroken = false) (hwf : c.instr.wellFormed s.params = true) :
    issue c s = exec c.instr { s with din := c.payload ++ s.din } :=
  stepRunsTheDecodedCommand { s with din := c.bytes ++ s.din } (encode c.instr) c.instr
    (c.payload ++ s.din) hb (List.append_assoc _ _ _) (decodeEncodeRoundTrip _ _ hwf)

/-- A command that ends with OK and puts nothing out leaves the sequence's result to the others. -/
theorem issueAll_cons_silent (hissue : issue c s = .next t) (hstatus : t.status = 0)
    (hdout : t.dout = s.dout) : issueAll (c :: cs) s = issueAll cs t := by
  have hok : t.status = Status.ok.code := hstatus
  have hnone : t.dout.drop s.dout.length = [] := by rw [hdout, List.drop_length]
  simp only [issueAll, hissue, hok, if_true, hnone, List.nil_append]
  cases issueAll cs t with
  | next r => obtain ⟨u, out | k⟩ := r <;> rfl
  | fault | refused => rfl

/-- What a single command that ends with OK puts out is the result. -/
theorem issueAll_singleton (hissue : issue c s = .next t) (hstatus : t.status = 0)
    {out : List Byte} (hdout : t.dout = s.dout ++ out) :
    issueAll [c] s = .next (t, .ok out) := by
  have hok : t.status = Status.ok.code := hstatus
  simp only [issueAll, hissue, hok, if_true, hdout, List.drop_left, List.append_nil]

end Issue

/-! ## The hash commands, issued -/

/-- `hash.update c, data` (R80). -/
def cmdHashUpdate (ctx : Byte) (data : List Byte) : Command :=
  { instr := .hashUpdate ctx (BitVec.ofNat 64 data.length), payload := data }

section Hash
variable {ctx : Byte} {s : State} {h : HashCtx}

/-- A command that names a hash context in range is well formed (R77 (c)). -/
theorem issue_hash {i : Instr} {payload : List Byte} (hb : s.streamBroken = false)
    (hctx : ctx.toNat < s.hash.length)
    (hi : i.defect s.params =
      if ctx.toNat < s.params.nhash then none else some .contextOutOfRange) :
    issue { instr := i, payload := payload } s = exec i { s with din := payload ++ s.din } :=
  issue_eq_exec hb ((wellFormed_iff _ i).mpr (hi.trans (if_pos hctx)))

/-- Issuing HASH.INIT with a legal length leaves a fresh context. -/
theorem issue_hashInit {outLen : BitVec 16} (hb : s.streamBroken = false)
    (hctx : ctx.toNat < s.hash.length)
    (hlen : outLen.toNat = 32 ∨ outLen.toNat = 48 ∨ outLen.toNat = 64) :
    issue { instr := .hashInit ctx outLen, payload := [] } s = .next { s with
      hash := s.hash.set ctx.toNat (HashCtx.fresh outLen.toNat), status := 0 } := by
  rw [issue_hash hb hctx rfl, List.nil_append, exec_hashInit_legal hctx hlen]

/-- Issuing HASH.DIGEST on a constructed context puts its digest out. -/
theorem issueAll_hashDigest {HB : Sponge} {pending : List Byte} (hb : s.streamBroken = false)
    (hh : s.hash[ctx.toNat]? = some h) (hc : h.constructed = true) (hholds : h.Holds HB pending) :
    ∃ t, issueAll [{ instr := .hashDigest ctx, payload := [] }] s = .next (t, .ok (memRead
      (blockStep s.hashAbsorbOverwrite HB
        (pending ++ [0x40] ++ List.replicate (h.blockLen - pending.length - 1) 0))
      0 h.outLen)) := by
  obtain ⟨hctx, -⟩ := List.getElem?_eq_some_iff.mp hh
  have hissue := issue_hash (i := .hashDigest ctx) (payload := []) hb hctx rfl
  rw [List.nil_append, exec_hashDigest_constructed hh hc hholds] at hissue
  exact ⟨_, issueAll_singleton hissue rfl rfl⟩

/-- Issuing HASH.UPDATE on a constructed context feeds it the data. -/
theorem issue_hashUpdate (hb : s.streamBroken = false) (hh : s.hash[ctx.toNat]? = some h)
    (hc : h.constructed = true) {data : List Byte} (hlen : data.length < 2 ^ 64) :
    issue (cmdHashUpdate ctx data) s = .next { s with
      hash := s.hash.set ctx.toNat (h.fed s.hashAbsorbOverwrite data), status := 0 } := by
  obtain ⟨hctx, -⟩ := List.getElem?_eq_some_iff.mp hh
  have hlen' : data.length = (BitVec.ofNat 64 data.length).toNat := by
    rw [BitVec.toNat_ofNat, Nat.mod_eq_of_lt hlen]
  rw [cmdHashUpdate, issue_hash hb hctx rfl,
    exec_hashUpdate_constructed (s := { s with din := data ++ s.din }) hh hc hlen' rfl]

/-- Issuing HASH.UPDATE for each piece feeds the context the whole message (R175); the block is
otherwise as it was, but for `STATUS`. -/
theorem issueAll_hashUpdates {pieces : List (List Byte)} (hb : s.streamBroken = false)
    (hh : s.hash[ctx.toNat]? = some h) (hc : h.constructed = true)
    (hpieces : ∀ x ∈ pieces, x.length < 2 ^ 64) (cs : List Command) :
    ∃ status, issueAll (pieces.map (cmdHashUpdate ctx) ++ cs) s = issueAll cs { s with
      hash := s.hash.set ctx.toNat (h.fed s.hashAbsorbOverwrite pieces.flatten)
      status := status } := by
  obtain ⟨hctx, hget⟩ := List.getElem?_eq_some_iff.mp hh
  induction pieces generalizing s h with
  | nil =>
    refine ⟨s.status, ?_⟩
    rw [List.flatten_nil, fed_nil, ← hget, List.set_getElem_self]
    rfl
  | cons x xs ih =>
    obtain ⟨hx, hxs⟩ := List.forall_mem_cons.mp hpieces
    have hself := List.getElem?_set_self (a := h.fed s.hashAbsorbOverwrite x) hctx
    obtain ⟨hctx', hget'⟩ := List.getElem?_eq_some_iff.mp hself
    obtain ⟨status, ih⟩ := ih (s := { s with hash := _, status := 0 }) hb hself
      ((fed_constructed x).trans hc) hxs hctx' hget'
    refine ⟨status, ?_⟩
    rw [List.map_cons, List.cons_append,
      issueAll_cons_silent (issue_hashUpdate hb hh hc hx) rfl rfl, ih, List.set_set, fed_fed,
      List.flatten_cons]

end Hash

/-! ## The digest -/

/-- A message padded to whole blocks is the message's whole blocks and one more, which holds the
rest and the padding: the padding is no longer than a block. -/
theorem exists_blocks_of_padded {M pad : List Byte} {blocks : List (List Byte)} {n : Nat}
    (hpad : 0 < pad.length) (hn : pad.length ≤ n) (hM : M ++ pad = blocks.flatten)
    (hblocks : ∀ x ∈ blocks, x.length = n) :
    ∃ full last, blocks = full ++ [last ++ pad] ∧ M = full.flatten ++ last := by
  obtain rfl | ⟨full, x, rfl⟩ := List.eq_nil_or_concat blocks
  · have hlen := congrArg List.length hM
    simp only [List.length_append, List.flatten_nil, List.length_nil] at hlen
    omega
  have hx : x.length = n := hblocks x (by simp)
  rw [List.concat_eq_append, List.flatten_append, List.flatten_singleton] at hM
  obtain ⟨extra, hfull, rfl⟩ | ⟨last, rfl, rfl⟩ := List.append_eq_append_iff.mp hM
  · -- the padding would be longer than the last block
    rw [List.length_append] at hn
    obtain rfl : extra = [] := List.eq_nil_of_length_eq_zero (by omega)
    exact ⟨full, [], by simp, by simpa using hfull.symm⟩
  · exact ⟨full, last, List.concat_eq_append, rfl⟩

/-- Settles O38: the pieces feed the fresh context the message, which then holds the message's rest
after its full blocks, and the digest's final block is that rest with the padding. -/
theorem digestIsAFunctionOfTheMessage : Obligations.DigestIsAFunctionOfTheMessage := by
  intro ctx outLen s pieces blocks z hb hctx hlen hpieces hz hmsg hblocks
  obtain ⟨full, last, rfl, hM⟩ := exists_blocks_of_padded (pad := [0x40] ++ List.replicate z 0)
    (by simp) (by simp; omega) ((List.append_assoc _ _ _).symm.trans hmsg) hblocks
  obtain ⟨hfull, hfinal⟩ := List.forall_mem_append.mp hblocks
  have hsize : last.length + (z + 1) = 192 - 2 * outLen.toNat := by
    simpa using hfinal _ (List.mem_singleton_self _)
  have hlast : last.length < 192 - 2 * outLen.toNat := by omega
  -- `z` is the number of zeros HASH.DIGEST appends
  have hz' : 192 - 2 * outLen.toNat - last.length - 1 = z := by omega
  have hholds := (fresh_holds hlen).fed (ow := s.hashAbsorbOverwrite) (M := pieces.flatten) hM
    hfull hlast
  have hself := List.getElem?_set_self (a := HashCtx.fresh outLen.toNat) hctx
  obtain ⟨hctx', -⟩ := List.getElem?_eq_some_iff.mp hself
  obtain ⟨status, hupdates⟩ := issueAll_hashUpdates (ctx := ctx)
    (s := { s with hash := _, status := 0 }) hb hself rfl hpieces
    [{ instr := .hashDigest ctx, payload := [] }]
  obtain ⟨t, hdigest⟩ := issueAll_hashDigest (ctx := ctx)
    (s := { s with hash := _, status := status }) hb (List.getElem?_set_self hctx')
    (fed_constructed _) hholds
  refine ⟨t, ?_⟩
  rw [List.append_assoc, List.singleton_append,
    issueAll_cons_silent (issue_hashInit hb hctx hlen) rfl rfl]
  rw [fed_blockLen, fed_outLen, fresh_blockLen, fresh_outLen, hz', List.append_assoc] at hdigest
  rw [List.foldl_append, List.foldl_cons, List.foldl_nil]
  exact hupdates.trans hdigest

end Sys2Proof.Machine
end

section
/-! What the automaton's operations answer on a started context that meets the invariant: the fault
conditions of R204 to R209 do not hold, so each goes through and leaves such a context again. The
composite schemes chain these laws. -/

namespace Sys2Proof.Machine

open Sys2Proof Sys2Proof.Spec

/-- A started context whose fields are those a run produces (R26 to R28, R143). -/
structure PrgCtx.Live (c : PrgCtx) : Prop where
  started : c.started = true
  inv : c.Inv

section Live
variable {c : PrgCtx} {n : Nat} {ann key data : List Byte}

/-- PRG.START with admitted operands leaves one live context, whatever was there before (R135); with
a key it is keyed (R28). -/
theorem exists_start {l d : Nat} (hlevel : goodLevel l d)
    (hlen : goodLengths l ann.length key.length) :
    ∃ c', (∀ c : PrgCtx, c.start l d ann key = .ok (c', [])) ∧ c'.Live ∧
      (key ≠ [] → c'.keyed = true) := by
  refine ⟨_, fun c => start_good hlevel hlen, ⟨rfl, ?_⟩, fun hkey => ?_⟩
  · have hinv := start_keepsInv (c := PrgCtx.reset) (l := l) (d := d) (ann := ann) (key := key)
    rwa [start_good hlevel hlen] at hinv
  · exact keyed_at_keyedBufLen hlevel (if_pos (List.length_pos_iff.mpr hkey))

/-- A streaming command passes its commit step on a live context and keeps its mode (R132, R143). -/
theorem PrgCtx.Live.exists_stream (hc : c.Live) (code : Byte) (mv : Move) (n : Nat)
    (input : List Byte) :
    ∃ r, c.stream code mv n input = .ok r ∧ r.1.Live ∧ r.1.keyed = c.keyed := by
  obtain ⟨hs, hinv⟩ := hc
  have hpos := (hinv.pos_lt hs).le
  have hok := stream_inside (code := code) (mv := mv) (n := n) (input := input) hpos
  have hkeeps := stream_keepsInv (code := code) (mv := mv) (n := n) (data := input) hinv hs
  rw [hok] at hkeeps
  obtain ⟨hstarted, -, -⟩ := (level_eq_iff _ _).mp (stream_keeps_level hok)
  exact ⟨_, hok, ⟨hstarted.trans hs, hkeeps⟩, stream_keeps_keyed hpos hok⟩

/-- PRG.ABSORB on a live context goes through, puts nothing out and keeps the mode (R137). -/
theorem PrgCtx.Live.exists_absorb (hc : c.Live) (data : List Byte) :
    ∃ c', c.absorb data.length data = .ok (c', []) ∧ c'.Live ∧ c'.keyed = c.keyed := by
  obtain ⟨⟨c', out⟩, hok, hlive, hkeyed⟩ := hc.exists_stream dcData absorbMove data.length data
  rw [← absorb_started hc.started] at hok
  have hanswers := absorb_answers (c := c) (n := data.length) (data := data)
  rw [hok] at hanswers
  obtain rfl := List.eq_nil_of_length_eq_zero (hanswers hc.inv)
  exact ⟨c', hok, hlive, hkeyed⟩

/-- PRG.SQUEEZE on a live context puts out as many bytes as asked for (R138). -/
theorem PrgCtx.Live.exists_squeeze (hc : c.Live) (n : Nat) :
    ∃ c' out, c.squeeze n = .ok (c', out) ∧ out.length = n := by
  obtain ⟨⟨c', out⟩, hok, -, -⟩ := hc.exists_stream dcOut squeezeMove n []
  rw [← squeeze_started hc.started] at hok
  have hanswers := squeeze_answers (c := c) (n := n)
  rw [hok] at hanswers
  exact ⟨c', out, hok, hanswers hc.inv⟩

/-- PRG.ENCRYPT on a live keyed context puts out a ciphertext of the plaintext's length, and
PRG.DECRYPT of it on the same context gives the plaintext back and leaves the same context
(R145). -/
theorem PrgCtx.Live.exists_encrypt_decrypt (hc : c.Live) (hk : c.keyed = true) (pt : List Byte) :
    ∃ c' ct, c.encrypt pt.length pt = .ok (c', ct) ∧ ct.length = pt.length ∧
      c.decrypt ct.length ct = .ok (c', pt) ∧ c'.Live := by
  obtain ⟨hs, hinv⟩ := hc
  have hpos := hinv.pos_lt hs
  obtain ⟨⟨c', ct⟩, hok, hlive, -⟩ :=
    PrgCtx.Live.exists_stream ⟨hs, hinv⟩ dcText encryptMove pt.length pt
  have hloop := Except.ok.inj ((stream_inside hpos.le).symm.trans hok)
  rw [← encrypt_keyed hs hk] at hok
  have hanswers := encrypt_answers (c := c) (data := pt) rfl
  rw [hok] at hanswers
  have hct : ct.length = pt.length := hanswers hinv
  refine ⟨c', ct, hok, hct, ?_, hlive⟩
  have hdec := streamLoop_decrypt_encrypt (c := c.afterCommit dcText) (pt := pt)
    (by rw [afterCommit_bufLen]; exact Nat.zero_lt_of_lt hpos)
    (by rw [afterCommit_bufLen]; exact hinv.bufLen_le hs) rfl (Nat.le_refl _)
  rw [hct, decrypt_keyed hs hk, stream_inside hpos.le]
  rw [hloop] at hdec
  rw [hdec]

end Live

end Sys2Proof.Machine
end

section
/-! The composite schemes (R190 to R193): the commands the host issues on one automaton context run
its operations one after the other, so what a scheme ends with is a matter of that context alone. -/

namespace Sys2Proof.Machine

open Sys2Proof Sys2Proof.Spec

/-! ## Commands issued on one automaton context -/

/-- The block takes commands, and its automaton context `ctx` is `c`. -/
structure State.ReadyWith (s : State) (ctx : Nat) (c : PrgCtx) : Prop where
  inStep : s.streamBroken = false
  context : s.prg[ctx]? = some c

/-- The host can issue the command, and issued it runs the operation `f` on context `ctx`. -/
structure Command.RunsOn (cmd : Command) (ctx : Nat)
    (f : PrgCtx → Except Status (PrgCtx × List Byte)) : Prop where
  expressible : cmd.expressible = true
  issued : ∀ s c, s.ReadyWith ctx c → issue cmd s = .next (settlePrg ctx s (f c))

/-- The host can issue the commands, and on every block whose context `ctx` is `c` they end with
`out` and leave the context as `c'`. -/
structure Produces (cmds : List Command) (ctx : Nat) (c c' : PrgCtx) (out : List Byte) : Prop where
  expressible : cmds.all Command.expressible = true
  issued : ∀ s, s.ReadyWith ctx c →
    ∃ t, issueAll cmds s = .next (t, .ok out) ∧ t.ReadyWith ctx c'

section Sequence
variable {cmd : Command} {cmds : List Command} {ctx : Nat} {c c₁ c' : PrgCtx} {s t u : State}
  {out₁ out : List Byte} {f : PrgCtx → Except Status (PrgCtx × List Byte)}

theorem readyWith_getElem (hb : s.streamBroken = false) (hctx : ctx < s.prg.length) :
    s.ReadyWith ctx s.prg[ctx] :=
  ⟨hb, List.getElem?_eq_getElem hctx⟩

theorem State.ReadyWith.lt_length (hs : s.ReadyWith ctx c) : ctx < s.prg.length := by
  obtain ⟨hctx, -⟩ := List.getElem?_eq_some_iff.mp hs.context
  exact hctx

theorem State.ReadyWith.settlePrg (hs : s.ReadyWith ctx c) :
    (settlePrg ctx s (.ok (c₁, out₁))).ReadyWith ctx c₁ :=
  ⟨hs.inStep, List.getElem?_set_self hs.lt_length⟩

/-- The output of a command that ends with OK stands before that of the commands after it. -/
theorem issueAll_cons_ok (hissue : issue cmd s = .next t) (hstatus : t.status = 0)
    (hdout : t.dout = s.dout ++ out₁) (hrest : issueAll cmds t = .next (u, .ok out)) :
    issueAll (cmd :: cmds) s = .next (u, .ok (out₁ ++ out)) := by
  have hok : t.status = Status.ok.code := hstatus
  simp only [issueAll, hissue, hok, if_true, hrest, hdout, List.drop_left]

theorem produces_nil : Produces [] ctx c c [] := ⟨rfl, fun s hs => ⟨s, rfl, hs⟩⟩

/-- A command whose operation goes through hands its context to the commands after it. -/
theorem Produces.cons (hcmds : Produces cmds ctx c₁ c' out) (hcmd : cmd.RunsOn ctx f)
    (hf : f c = .ok (c₁, out₁)) : Produces (cmd :: cmds) ctx c c' (out₁ ++ out) := by
  refine ⟨by rw [List.all_cons, hcmd.expressible, hcmds.expressible]; rfl, fun s hs => ?_⟩
  have hstep := hcmd.issued s c hs
  rw [hf] at hstep
  obtain ⟨t, ht, hready⟩ := hcmds.issued _ hs.settlePrg
  exact ⟨t, issueAll_cons_ok hstep rfl rfl ht, hready⟩

theorem Produces.runComposite (h : Produces cmds ctx c c' out) (hs : s.ReadyWith ctx c) :
    ∃ t, runComposite cmds s = .next (t, .ok out) ∧ t.ReadyWith ctx c' := by
  rw [Machine.runComposite, if_pos h.expressible]
  exact h.issued s hs

end Sequence

/-! ## The automaton commands, issued -/

section Commands
variable {ctx : Byte} {data : List Byte}

/-- A command on an automaton context runs the operation `exec` gives it: with the context in range
it is well formed (R77 (c)), so the block decodes it and finds its payload on DIN (R70). -/
theorem runsOn_of_exec {i : Instr} {payload : List Byte}
    {f : PrgCtx → Except Status (PrgCtx × List Byte)} (hlen : payload.length = payloadLen i)
    (hi : ∀ p, i.defect p = if ctx.toNat < p.nprg then none else some .contextOutOfRange)
    (hexec : ∀ (s : State) (c : PrgCtx), s.prg[ctx.toNat]? = some c →
      exec i { s with din := payload ++ s.din } = .next (settlePrg ctx.toNat s (f c))) :
    ({ instr := i, payload := payload } : Command).RunsOn ctx.toNat f where
  expressible := beq_iff_eq.mpr hlen
  issued s c hs :=
    (issue_eq_exec hs.inStep ((wellFormed_iff _ i).mpr ((hi _).trans (if_pos hs.lt_length)))).trans
      (hexec s c hs.context)

/-- A length below `2^w` is read back from a field of `w` bits (R73). -/
theorem length_eq_toNat_ofNat {w : Nat} (h : data.length < 2 ^ w) :
    data.length = (BitVec.ofNat w data.length).toNat := by
  rw [BitVec.toNat_ofNat, Nat.mod_eq_of_lt h]

theorem cmdStart_runsOn (l : BitVec 16) (d : Byte) {ann key : List Byte}
    (hann : ann.length < 2 ^ 8) (hkey : key.length < 2 ^ 8) :
    (cmdStart ctx l d ann key).RunsOn ctx.toNat (·.start l.toNat d.toNat ann key) := by
  have ha := length_eq_toNat_ofNat hann
  have hk := length_eq_toNat_ofNat hkey
  refine runsOn_of_exec ?_ (fun _ => rfl) fun s c hc => ?_
  · rw [payloadLen, ← ha, ← hk, List.length_append]
  · exact runPrg_material (s := { s with din := ann ++ key ++ s.din })
      (fun ann key c => c.start l.toNat d.toNat ann key) hc ha hk rfl

section Data
variable (hlen : data.length < 2 ^ 64)
include hlen

theorem cmdAbsorb_runsOn :
    (cmdAbsorb ctx data).RunsOn ctx.toNat (·.absorb data.length data) :=
  runsOn_of_exec (length_eq_toNat_ofNat hlen) (fun _ => rfl) fun s _ hc =>
    exec_prgAbsorb_run (s := { s with din := data ++ s.din }) hc (length_eq_toNat_ofNat hlen) rfl

theorem cmdEncrypt_runsOn :
    (cmdEncrypt ctx data).RunsOn ctx.toNat (·.encrypt data.length data) :=
  runsOn_of_exec (length_eq_toNat_ofNat hlen) (fun _ => rfl) fun s _ hc =>
    exec_prgEncrypt_run (s := { s with din := data ++ s.din }) hc (length_eq_toNat_ofNat hlen) rfl

theorem cmdDecrypt_runsOn :
    (cmdDecrypt ctx data).RunsOn ctx.toNat (·.decrypt data.length data) :=
  runsOn_of_exec (length_eq_toNat_ofNat hlen) (fun _ => rfl) fun s _ hc =>
    exec_prgDecrypt_run (s := { s with din := data ++ s.din }) hc (length_eq_toNat_ofNat hlen) rfl

end Data

theorem cmdSqueeze_runsOn {n : Nat} (hn : n < 2 ^ 64) :
    (cmdSqueeze ctx n).RunsOn ctx.toNat (·.squeeze n) := by
  refine runsOn_of_exec rfl (fun _ => rfl) fun s c hc => ?_
  rw [List.nil_append, exec, execPrgSqueeze, BitVec.toNat_ofNat, Nat.mod_eq_of_lt hn,
    runPrg_run_zero _ hc]

end Commands

/-! ## `prg.hash` -/

/-- The bytes `prg.hash` ends with are those its operations put out on the context PRG.START leaves,
which is the same everywhere. -/
theorem exists_prgHash_out {l : BitVec 16} {d : Byte} {data : List Byte}
    (hlevel : goodLevel l.toNat d.toNat) (hdata : data.length < 2 ^ 64) :
    ∃ out, out.length = l.toNat / 4 ∧
      ∀ (ctx : Byte) (s : State), s.streamBroken = false → ctx.toNat < s.prg.length →
        ∃ t, prgHash ctx l d data s = .next (t, .ok out) := by
  obtain ⟨c₁, hstart, hlive, -⟩ :=
    exists_start (ann := []) (key := []) hlevel (by simp [goodLengths])
  obtain ⟨c₂, habsorb, hlive, -⟩ := hlive.exists_absorb data
  obtain ⟨c₃, out, hsqueeze, hout⟩ := hlive.exists_squeeze (l.toNat / 4)
  have hn : l.toNat / 4 < 2 ^ 64 := by omega
  refine ⟨out, hout, fun ctx s hb hctx => ?_⟩
  have hseq := ((produces_nil.cons (cmdSqueeze_runsOn (ctx := ctx) hn) hsqueeze).cons
    (cmdAbsorb_runsOn hdata) habsorb).cons
    (cmdStart_runsOn l d (by simp) (by simp)) (hstart s.prg[ctx.toNat])
  simp only [List.nil_append, List.append_nil] at hseq
  obtain ⟨t, ht, -⟩ := hseq.runComposite (readyWith_getElem hb hctx)
  exact ⟨t, ht⟩

/-- Settles O53: the bytes of `exists_prgHash_out` are chosen before the block and the context. -/
theorem prgHashIsPure : Obligations.PrgHashIsPure := by
  intro c c' l d data s s' hb hb' hc hc' hlevel hdata
  obtain ⟨out, hlen, hout⟩ := exists_prgHash_out hlevel hdata
  obtain ⟨t, ht⟩ := hout c s hb hc
  obtain ⟨t', ht'⟩ := hout c' s' hb' hc'
  exact ⟨t, t', out, ht, ht', hlen⟩

/-! ## `aead.enc` and `aead.dec` -/

section Aead
variable {ctx : Byte} {l : BitVec 16} {d : Byte} {ann pt ad key : List Byte} {s : State}

/-- What `aead.dec` of a ciphertext and a tag ends with, when its commands put out the plaintext and
the tag they compute (R192). -/
theorem aeadDec_of_produces {ct tag tag' : List Byte} {c c' : PrgCtx}
    (hseq : Produces [cmdStart ctx l d ann key, cmdAbsorb ctx ad, cmdDecrypt ctx ct,
      cmdSqueeze ctx (l.toNat / 8)] ctx.toNat c c' (pt ++ tag))
    (hct : ct.length = pt.length) (htag' : tag'.length = l.toNat / 8)
    (hs : s.ReadyWith ctx.toNat c) :
    ∃ u, aeadDec ctx l d ann (ct ++ tag') ad key s =
      .next (u, if tag = tag' then .ok pt else .error Status.authenticationError.code) := by
  obtain ⟨t, ht, -⟩ := hseq.runComposite hs
  have hlen : (ct ++ tag').length = pt.length + l.toNat / 8 := by
    rw [List.length_append, hct, htag']
  refine ⟨t, ?_⟩
  rw [aeadDec, hlen, if_neg (by omega)]
  simp only [Nat.add_sub_cancel, List.take_left' hct, List.drop_left' hct, ht, releaseIfAuthentic,
    List.take_left, List.drop_left]
  split_ifs <;> rfl

/-- `aead.enc` ends with a ciphertext and a tag, and `aead.dec` of that ciphertext with any tag of
the right length releases the plaintext exactly when the tag is this one (R191, R192): both run the
same operations, but for the text command, and those converge (R145). -/
theorem exists_aead_ciphertext_tag (hlevel : goodLevel l.toNat d.toNat)
    (hlen : goodLengths l.toNat ann.length key.length) (hkey : key ≠ [])
    (hpt : pt.length < 2 ^ 64) (had : ad.length < 2 ^ 64) (hb : s.streamBroken = false)
    (hctx : ctx.toNat < s.prg.length) :
    ∃ t ct tag, aeadEnc ctx l d ann pt ad key s = .next (t, .ok (ct ++ tag)) ∧
      ct.length = pt.length ∧ tag.length = l.toNat / 8 ∧
      ∀ tag', tag'.length = l.toNat / 8 → ∃ u, aeadDec ctx l d ann (ct ++ tag') ad key t =
        .next (u, if tag = tag' then .ok pt else .error Status.authenticationError.code) := by
  obtain ⟨c₁, hstart, hlive, hkeyed⟩ := exists_start hlevel hlen
  obtain ⟨c₂, habsorb, hlive, hsame⟩ := hlive.exists_absorb ad
  obtain ⟨c₃, ct, hencrypt, hct, hdecrypt, hlive⟩ :=
    hlive.exists_encrypt_decrypt (hsame.trans (hkeyed hkey)) pt
  obtain ⟨c₄, tag, hsqueeze, htag⟩ := hlive.exists_squeeze (l.toNat / 8)
  obtain ⟨-, hann, -, hkeyLen, -⟩ := hlen
  have hstartRuns :=
    cmdStart_runsOn (ctx := ctx) l d (ann := ann) (key := key) (by omega) (by omega)
  have hsqueezes := produces_nil.cons (cmdSqueeze_runsOn (ctx := ctx) (by omega)) hsqueeze
  have henc := ((hsqueezes.cons (cmdEncrypt_runsOn hpt) hencrypt).cons
    (cmdAbsorb_runsOn had) habsorb).cons hstartRuns (hstart s.prg[ctx.toNat])
  have hdec := ((hsqueezes.cons (cmdDecrypt_runsOn (hct.trans_lt hpt)) hdecrypt).cons
    (cmdAbsorb_runsOn had) habsorb).cons hstartRuns (hstart c₄)
  simp only [List.nil_append, List.append_nil] at henc hdec
  obtain ⟨t, ht, hready⟩ := henc.runComposite (readyWith_getElem hb hctx)
  exact ⟨t, ct, tag, ht, hct, htag, fun tag' htag' => aeadDec_of_produces hdec hct htag' hready⟩

end Aead

/-- Settles O54: the tag `aead.enc` returned is the one `aead.dec` computes. -/
theorem aeadRoundTrip : Obligations.AeadRoundTrip := by
  intro c l d ann pt ad key s hb hc hlevel hlen hkey hpt had
  obtain ⟨t, ct, tag, henc, hct, htag, hdec⟩ :=
    exists_aead_ciphertext_tag hlevel hlen hkey hpt had hb hc
  obtain ⟨u, hu⟩ := hdec tag htag
  rw [if_pos rfl] at hu
  exact ⟨t, u, ct ++ tag, henc, by rw [List.length_append, hct, htag], hu⟩

/-- Settles O55: the tag `aead.dec` computes is the one `aead.enc` returned, so the other is
refused. -/
theorem wrongTagFailsAuthentication : Obligations.WrongTagFailsAuthentication := by
  intro c l d ann pt ad key tag' s t ctTag hb hc hlevel hlen hkey hpt had hrun htag' hne
  obtain ⟨t₁, ct, tag, henc, hct, -, hdec⟩ :=
    exists_aead_ciphertext_tag hlevel hlen hkey hpt had hb hc
  obtain ⟨⟩ := henc.symm.trans hrun
  rw [List.drop_left' hct] at hne
  obtain ⟨u, hu⟩ := hdec tag' htag'
  rw [if_neg hne.symm] at hu
  exact ⟨u, by rw [List.take_left' hct]; exact hu⟩

end Sys2Proof.Machine
end

section
/-! The completion codes (spec/60_exceptions.md): a command R77 calls illegal is InvalidCommand,
every other one ends with the fault its operation meets first (R202) or with OK, and a fault leaves
everything but DIN and `STATUS` (R203). -/

namespace Sys2Proof.Machine

open Sys2Proof Sys2Proof.Spec

/-! ## InvalidCommand -/

/-- A check of R77 that finds a defect has failed. -/
theorem not_check_of_defect {P : Prop} [Decidable P] {r : Reject}
    (h : (if P then none else some r) ≠ none) : ¬P :=
  fun hP => h (if_pos hP)

/-- A command with a defect is InvalidCommand also where it runs (R77 (c), (d), (e)). -/
theorem exec_of_defect {i : Instr} {s : State} (hi : i.defect s.params ≠ none) :
    exec i s = .next (raiseInvalidCommand s) := by
  cases i with
  | bashs => exact if_pos (by have hamounts := not_check_of_defect hi; omega)
  | bashf => exact if_pos (Nat.lt_of_not_le (not_check_of_defect hi))
  | prgStart | prgRestart | prgAbsorb | prgSqueeze | prgEncrypt | prgDecrypt | prgRatchet =>
    rw [exec]
    exact runPrg_outOfRange _ (List.getElem?_eq_none (Nat.le_of_not_lt (not_check_of_defect hi)))
  | prgClone dst src =>
    cases hsrc : s.prg[src.toNat]? with
    | none => exact execPrgClone_noSource hsrc
    | some c =>
      obtain ⟨hlt, -⟩ := List.getElem?_eq_some_iff.mp hsrc
      rw [exec, execPrgClone_source hsrc]
      exact runPrg_outOfRange _ (List.getElem?_eq_none
        (Nat.le_of_not_lt fun hdst => not_check_of_defect hi ⟨hdst, hlt⟩))
  | hashInit | hashReset | hashUpdate | hashDigest =>
    rw [exec]
    exact runHash_outOfRange _ (List.getElem?_eq_none (Nat.le_of_not_lt (not_check_of_defect hi)))
  | hashClone dst src =>
    cases hsrc : s.hash[src.toNat]? with
    | none => exact execHashClone_noSource hsrc
    | some c =>
      obtain ⟨hlt, -⟩ := List.getElem?_eq_some_iff.mp hsrc
      rw [exec, execHashClone_source hsrc]
      exact runHash_outOfRange _ (List.getElem?_eq_none
        (Nat.le_of_not_lt fun hdst => not_check_of_defect hi ⟨hdst, hlt⟩))

/-- All that a command can do when it answers a next state. -/
theorem exec_cases {i : Instr} {s t : State} (h : exec i s = .next t) :
    t = raiseInvalidCommand s ∨ Ending (payloadLen i) (outputLen s i) s t := by
  by_cases hi : i.defect s.params = none
  · exact .inr (exec_ending hi h)
  · exact .inl (Host.Outcome.next.inj (h.symm.trans (exec_of_defect hi)))

/-- Settles O43: the two faults of `exec_cases` leave the block but for DIN and `STATUS`, and its
other end is OK. -/
theorem faultChangesNothing : Obligations.FaultChangesNothing := by
  intro i s t h hstatus
  obtain rfl | hend := exec_cases h
  · exact ⟨rfl, rfl, rfl, rfl, fun hne => absurd rfl hne⟩
  cases hend with
  | fault => exact ⟨rfl, rfl, rfl, rfl, fun _ => ⟨rfl, rfl⟩⟩
  | done => exact absurd rfl hstatus

/-- Settles O6: the decoder refuses exactly the illegal descriptors, and a command it answers does
not end with InvalidCommand (`exec_ending`). -/
theorem illegalDescriptorIsInvalidCommand : Obligations.IllegalDescriptorIsInvalidCommand := by
  intro s d rest hb hdin
  rw [← decoderRefusesExactlyIllegalDescriptors]
  refine ⟨fun ⟨r, hr⟩ => ⟨raiseInvalidCommand { s with din := rest }, ?_, rfl, rfl, rfl, rfl, rfl⟩,
    fun t h hstatus => ?_⟩
  · simp [step, hb, hdin, hr]
  · cases hd : decode s.params d with
    | error r => exact ⟨r, rfl⟩
    | ok i =>
      obtain ⟨op, -, -, -, -, hdef⟩ := decode_eq_ok hd
      rw [stepRunsTheDecodedCommand s d i rest hb hdin hd] at h
      exact absurd hstatus (exec_ending (s := { s with din := rest }) hdef h).status_ne

/-! ## The fault an operation meets first -/

/-- The fault in the answer of an operation, if it is one. -/
def faultOf {α : Type} : Except Status α → Option Status
  | .error k => some k
  | .ok _ => none

section FaultOf
variable {α : Type} {k : Status}

@[simp] theorem faultOf_error : faultOf (.error k : Except Status α) = some k := rfl

@[simp] theorem faultOf_ok (a : α) : faultOf (.ok a) = none := rfl

theorem faultOf_eq_some_iff {r : Except Status α} : faultOf r = some k ↔ r = .error k := by
  cases r <;> simp

/-- A check at the head of an operation comes before the faults of the rest (R202). -/
theorem faultOf_check {b : Prop} [Decidable b] (r : Except Status α) :
    faultOf (if b then .error k else r) = if b then some k else faultOf r :=
  apply_ite faultOf b _ r

end FaultOf

/-- The fault of PRG.START, whose operands alone are checked (R135). -/
def startFault (l d a k : Nat) : Option Status :=
  if goodLevel l d ∧ goodLengths l a k then none else some .invalidParameter

/-- The fault of the commit step (R132). -/
def PrgCtx.commitFault (c : PrgCtx) : Option Status :=
  if c.bufLen < c.pos then some .internalConsistency else none

/-- The fault of PRG.ABSORB, PRG.SQUEEZE and PRG.RATCHET (R137, R138, R141). -/
def PrgCtx.streamFault (c : PrgCtx) : Option Status :=
  if c.started = false then some .notStarted else c.commitFault

/-- The fault of PRG.ENCRYPT and PRG.DECRYPT (R139, R140). -/
def PrgCtx.textFault (c : PrgCtx) : Option Status :=
  if c.started = false then some .notStarted
  else if c.keyed = false then some .modeError else c.commitFault

/-- The fault of PRG.RESTART (R136). -/
def PrgCtx.restartFault (a k : Nat) (c : PrgCtx) : Option Status :=
  if c.started = false then some .notStarted
  else if lengthsOk c.l a k = false then some .invalidParameter else c.commitFault

/-- The fault of HASH.INIT, whose operand alone is checked (R172). -/
def initFault (outLen : Nat) : Option Status :=
  if outLenOk outLen then none else some .invalidParameter

/-- The fault of HASH.RESET, HASH.UPDATE and HASH.DIGEST (R173, R175, R176). -/
def HashCtx.unconstructedFault (h : HashCtx) : Option Status :=
  if h.constructed = false then some .notStarted else none

theorem lengthsOk_eq_false_iff (l a k : Nat) : lengthsOk l a k = false ↔ badLengths l a k := by
  rw [← Bool.not_eq_true, lengthsOk_iff, goodLengths_iff_not_badLengths, not_not]

section Operations
variable {c : PrgCtx} {h : HashCtx} {n : Nat} {ann key data : List Byte} {ow : Bool}

theorem faultOf_start {l d : Nat} :
    faultOf (c.start l d ann key) = startFault l d ann.length key.length := by
  rw [startFault]
  split_ifs with hgood
  · obtain ⟨hlevel, hlen⟩ := hgood
    rw [start_good hlevel hlen, faultOf_ok]
  · rw [start_bad hgood, faultOf_error]

theorem faultOf_stream {code : Byte} {mv : Move} :
    faultOf (c.stream code mv n data) = c.commitFault := by
  rw [PrgCtx.commitFault]
  split_ifs with hpos
  · rw [stream_pastBuffer hpos, faultOf_error]
  · rw [stream_inside (Nat.le_of_not_lt hpos), faultOf_ok]

theorem faultOf_absorb : faultOf (c.absorb n data) = c.streamFault := by
  rw [PrgCtx.absorb, faultOf_check, faultOf_stream, PrgCtx.streamFault]

theorem faultOf_squeeze : faultOf (c.squeeze n) = c.streamFault := by
  rw [PrgCtx.squeeze, faultOf_check, faultOf_stream, PrgCtx.streamFault]

theorem faultOf_encrypt : faultOf (c.encrypt n data) = c.textFault := by
  rw [PrgCtx.encrypt, faultOf_check, faultOf_check, faultOf_stream, PrgCtx.textFault]

theorem faultOf_decrypt : faultOf (c.decrypt n data) = c.textFault := by
  rw [PrgCtx.decrypt, faultOf_check, faultOf_check, faultOf_stream, PrgCtx.textFault]

theorem faultOf_ratchet : faultOf c.ratchet = c.streamFault := by
  rw [PrgCtx.streamFault, PrgCtx.commitFault]
  split_ifs with hs hpos
  · rw [ratchet_unstarted hs, faultOf_error]
  · rw [ratchet_pastBuffer (Bool.eq_true_of_not_eq_false hs) hpos, faultOf_error]
  · rw [ratchet_inside (Bool.eq_true_of_not_eq_false hs) (Nat.le_of_not_lt hpos), faultOf_ok]

theorem faultOf_restart :
    faultOf (c.restart ann key) = c.restartFault ann.length key.length := by
  rw [PrgCtx.restartFault, PrgCtx.commitFault]
  split_ifs with hs hlen hpos
  · rw [restart_unstarted hs, faultOf_error]
  · rw [restart_badLengths (Bool.eq_true_of_not_eq_false hs), faultOf_error]
    rwa [← lengthsOk_iff, Bool.not_eq_true]
  · rw [restart_pastBuffer (Bool.eq_true_of_not_eq_false hs) _ hpos, faultOf_error]
    rwa [← lengthsOk_iff, ← Bool.not_eq_false]
  · rw [restart_inside (Bool.eq_true_of_not_eq_false hs) _ (Nat.le_of_not_lt hpos), faultOf_ok]
    rwa [← lengthsOk_iff, ← Bool.not_eq_false]

theorem faultOf_init {outLen : Nat} : faultOf (h.init outLen) = initFault outLen :=
  apply_ite faultOf _ _ _

theorem faultOf_resetCtx : faultOf h.resetCtx = h.unconstructedFault := faultOf_check _

theorem faultOf_update : faultOf (h.update ow data) = h.unconstructedFault := faultOf_check _

theorem faultOf_digest : faultOf (h.digest ow) = h.unconstructedFault := faultOf_check _

end Operations

/-! ## The code a command ends with -/

/-- The fault a command meets on the context it names. -/
def commandFault (s : State) : Instr → Option Status
  | .prgStart c a k l d => s.prg[c.toNat]?.bind fun _ => startFault l.toNat d.toNat a.toNat k.toNat
  | .prgRestart c a k => s.prg[c.toNat]?.bind (PrgCtx.restartFault a.toNat k.toNat)
  | .prgAbsorb c _ | .prgSqueeze c _ | .prgRatchet c => s.prg[c.toNat]?.bind PrgCtx.streamFault
  | .prgEncrypt c _ | .prgDecrypt c _ => s.prg[c.toNat]?.bind PrgCtx.textFault
  | .hashInit c n => s.hash[c.toNat]?.bind fun _ => initFault n.toNat
  | .hashReset c | .hashUpdate c _ | .hashDigest c =>
      s.hash[c.toNat]?.bind HashCtx.unconstructedFault
  | .bashs _ _ _ _ | .bashf _ | .prgClone _ _ | .hashClone _ _ => none

section Runs
variable {ctx n : Nat} {s t : State} {k : Status} (hok : k ≠ .ok) (hinv : k ≠ .invalidCommand)
include hok hinv

theorem runPrg_fault_iff {f : List Byte → PrgCtx → Except Status (PrgCtx × List Byte)}
    {g : PrgCtx → Option Status} (h : runPrg ctx n f s = .next t)
    (hf : ∀ X c, X.length = n → faultOf (f X c) = g c) :
    t.status = k.code ↔ s.prg[ctx]?.bind g = some k := by
  rw [Option.bind_eq_some_iff]
  exact runPrg_status_iff h (fun X c hX => by rw [← hf X c hX, faultOf_eq_some_iff]) hok hinv

theorem runHash_fault_iff {f : List Byte → HashCtx → Except Status (HashCtx × List Byte)}
    {g : HashCtx → Option Status} (h : runHash ctx n f s = .next t)
    (hf : ∀ X c, faultOf (f X c) = g c) :
    t.status = k.code ↔ s.hash[ctx]?.bind g = some k := by
  rw [Option.bind_eq_some_iff]
  exact runHash_status_iff h (fun X c _ => by rw [← hf X c, faultOf_eq_some_iff]) hok hinv

/-- A command on the scratch file that may refuse its operands has no other fault (R103, R117). -/
theorem pure_status_ne {o : State → Host.Outcome State Fault Refusal}
    (ho : (∀ s, o s = .next (raiseInvalidCommand s)) ∨ ∃ f, ∀ s, o s = runPure n f s)
    (h : o s = .next t) : t.status ≠ k.code := by
  obtain hbad | ⟨f, hrun⟩ := ho
  · cases (hbad s).symm.trans h
    exact raiseInvalidCommand_status_ne s hinv
  · exact runPure_status_ne ((hrun s).symm.trans h) hok

/-- PRG.CLONE answers no fault but InvalidCommand (R150). -/
theorem execPrgClone_status_ne {dst src : Byte} (h : execPrgClone dst src s = .next t) :
    t.status ≠ k.code := by
  cases hsrc : s.prg[src.toNat]? with
  | none =>
    cases (execPrgClone_noSource hsrc).symm.trans h
    exact raiseInvalidCommand_status_ne s hinv
  | some c =>
    rw [execPrgClone_source hsrc] at h
    exact runPrg_status_ne h (fun _ _ => nofun) hok hinv

/-- HASH.CLONE answers no fault but InvalidCommand (R177). -/
theorem execHashClone_status_ne {dst src : Byte} (h : execHashClone dst src s = .next t) :
    t.status ≠ k.code := by
  cases hsrc : s.hash[src.toNat]? with
  | none =>
    cases (execHashClone_noSource hsrc).symm.trans h
    exact raiseInvalidCommand_status_ne s hinv
  | some c =>
    rw [execHashClone_source hsrc] at h
    exact runHash_status_ne h (fun _ _ => nofun) hok hinv

/-- A command ends with a fault other than InvalidCommand exactly when it is the one the command
meets on its context. -/
theorem exec_status_iff {i : Instr} (h : exec i s = .next t) :
    t.status = k.code ↔ commandFault s i = some k := by
  cases i with rw [exec] at h
  | bashs => exact iff_of_false (pure_status_ne hok hinv (execBashs_cases _ _ _ _) h) nofun
  | bashf => exact iff_of_false (pure_status_ne hok hinv (execBashf_cases _) h) nofun
  | prgStart =>
    refine runPrg_fault_iff hok hinv h fun X c hX => ?_
    rw [faultOf_start, annOf_length hX, keyOf_length hX]
  | prgRestart =>
    refine runPrg_fault_iff hok hinv h fun X c hX => ?_
    rw [faultOf_restart, annOf_length hX, keyOf_length hX]
  | prgAbsorb => exact runPrg_fault_iff hok hinv h fun _ _ _ => faultOf_absorb
  | prgSqueeze => exact runPrg_fault_iff hok hinv h fun _ _ _ => faultOf_squeeze
  | prgEncrypt => exact runPrg_fault_iff hok hinv h fun _ _ _ => faultOf_encrypt
  | prgDecrypt => exact runPrg_fault_iff hok hinv h fun _ _ _ => faultOf_decrypt
  | prgRatchet => exact runPrg_fault_iff hok hinv h fun _ _ _ => faultOf_ratchet
  | prgClone => exact iff_of_false (execPrgClone_status_ne hok hinv h) nofun
  | hashInit => exact runHash_fault_iff hok hinv h fun _ _ => faultOf_init
  | hashReset => exact runHash_fault_iff hok hinv h fun _ _ => faultOf_resetCtx
  | hashUpdate => exact runHash_fault_iff hok hinv h fun _ _ => faultOf_update
  | hashDigest => exact runHash_fault_iff hok hinv h fun _ _ => faultOf_digest
  | hashClone => exact iff_of_false (execHashClone_status_ne hok hinv h) nofun

end Runs

/-! ## Each code and its causes -/

section Causes
variable {c : PrgCtx} {h : HashCtx} {e : Status} {l d a k : Nat}

/-- A single check answers its fault where it does not pass. -/
theorem pass_eq_some_iff {P : Prop} [Decidable P] {k : Status} :
    (if P then none else some k) = some e ↔ e = k ∧ ¬P := by
  split_ifs with hP <;> simp [hP, eq_comm]

theorem startFault_eq_some_iff : startFault l d a k = some e ↔
    e = .invalidParameter ∧ ¬(goodLevel l d ∧ goodLengths l a k) := by
  rw [startFault, pass_eq_some_iff]

theorem commitFault_eq_some_iff :
    c.commitFault = some e ↔ e = .internalConsistency ∧ c.bufLen < c.pos := by
  rw [PrgCtx.commitFault]
  split_ifs with hpos <;> simp [hpos, eq_comm]

/-- The check for a started or constructed context comes before every other one (R202). -/
theorem check_eq_some_iff {b : Bool} {o : Option Status} {k : Status} :
    (if b = false then some k else o) = some e ↔
      (e = k ∧ b = false) ∨ (b = true ∧ o = some e) := by
  cases b <;> simp [eq_comm]

theorem streamFault_eq_some_iff : c.streamFault = some e ↔
    (e = .notStarted ∧ c.started = false) ∨
    (c.started = true ∧ e = .internalConsistency ∧ c.bufLen < c.pos) := by
  rw [PrgCtx.streamFault, check_eq_some_iff, commitFault_eq_some_iff]

theorem textFault_eq_some_iff : c.textFault = some e ↔
    (e = .notStarted ∧ c.started = false) ∨
    (c.started = true ∧ ((e = .modeError ∧ c.keyed = false) ∨
      (c.keyed = true ∧ e = .internalConsistency ∧ c.bufLen < c.pos))) := by
  rw [PrgCtx.textFault, check_eq_some_iff, check_eq_some_iff, commitFault_eq_some_iff]

theorem restartFault_eq_some_iff : c.restartFault a k = some e ↔
    (e = .notStarted ∧ c.started = false) ∨
    (c.started = true ∧ ((e = .invalidParameter ∧ badLengths c.l a k) ∨
      (¬badLengths c.l a k ∧ e = .internalConsistency ∧ c.bufLen < c.pos))) := by
  rw [PrgCtx.restartFault, check_eq_some_iff, check_eq_some_iff, commitFault_eq_some_iff,
    lengthsOk_eq_false_iff, lengthsOk_iff, goodLengths_iff_not_badLengths]

theorem initFault_eq_some_iff {n : Nat} :
    initFault n = some e ↔ e = .invalidParameter ∧ n ≠ 32 ∧ n ≠ 48 ∧ n ≠ 64 := by
  rw [initFault, pass_eq_some_iff, outLenOk_iff, not_or, not_or]

theorem unconstructedFault_eq_some_iff :
    h.unconstructedFault = some e ↔ e = .notStarted ∧ h.constructed = false := by
  rw [HashCtx.unconstructedFault, check_eq_some_iff]
  simp

/-- A cause that does not read the context asks only that the context exists. -/
theorem exists_getElem?_and_iff {α : Type} {xs : List α} {i : Nat} {P : Prop} :
    (∃ x, xs[i]? = some x ∧ P) ↔ i < xs.length ∧ P := by
  rw [exists_and_right, ← Option.isSome_iff_exists, isSome_getElem?]

variable (s : State) (i : Instr)

theorem commandFault_notStarted_iff : commandFault s i = some .notStarted ↔ namesUnstarted s i := by
  cases i with simp only [commandFault, namesUnstarted, Option.bind_eq_some_iff]
  | bashs | bashf | prgClone | hashClone => simp
  | prgStart => simp [startFault_eq_some_iff]
  | prgRestart => simp [restartFault_eq_some_iff]
  | prgAbsorb | prgSqueeze | prgRatchet => simp [streamFault_eq_some_iff]
  | prgEncrypt | prgDecrypt => simp [textFault_eq_some_iff]
  | hashInit => simp [initFault_eq_some_iff]
  | hashReset | hashUpdate | hashDigest => simp [unconstructedFault_eq_some_iff]

theorem commandFault_modeError_iff : commandFault s i = some .modeError ↔ unkeyedCrypt s i := by
  cases i with simp only [commandFault, unkeyedCrypt, Option.bind_eq_some_iff]
  | bashs | bashf | prgClone | hashClone => simp
  | prgStart => simp [startFault_eq_some_iff]
  | prgRestart => simp [restartFault_eq_some_iff]
  | prgAbsorb | prgSqueeze | prgRatchet => simp [streamFault_eq_some_iff]
  | prgEncrypt | prgDecrypt => simp [textFault_eq_some_iff, keyed_eq_false_iff]
  | hashInit => simp [initFault_eq_some_iff]
  | hashReset | hashUpdate | hashDigest => simp [unconstructedFault_eq_some_iff]

theorem commandFault_invalidParameter_iff :
    commandFault s i = some .invalidParameter ↔ badParameter s i := by
  cases i with simp only [commandFault, badParameter, Option.bind_eq_some_iff]
  | bashs | bashf | prgClone | hashClone => simp
  | prgStart =>
    rw [exists_getElem?_and_iff, startFault_eq_some_iff, goodLengths_iff_not_badLengths]
    tauto
  | prgRestart => simp [restartFault_eq_some_iff]
  | prgAbsorb | prgSqueeze | prgRatchet => simp [streamFault_eq_some_iff]
  | prgEncrypt | prgDecrypt => simp [textFault_eq_some_iff]
  | hashInit => rw [exists_getElem?_and_iff, initFault_eq_some_iff, eq_self, true_and]
  | hashReset | hashUpdate | hashDigest => simp [unconstructedFault_eq_some_iff]

end Causes

/-- Settles O39: the started check is the first one of every command that makes it. -/
theorem notStartedExactlyOnUnstartedContext :
    Obligations.NotStartedExactlyOnUnstartedContext := fun i s _ h =>
  (exec_status_iff (k := .notStarted) (by decide) (by decide) h).trans
    (commandFault_notStarted_iff s i)

/-- Settles O40: the checks of the operands, made on a started context where it is PRG.RESTART; the
wrapper tests the length of its input before it issues anything. -/
theorem invalidParameterExactlyOnListedCauses :
    Obligations.InvalidParameterExactlyOnListedCauses :=
  ⟨fun i s _ h => (exec_status_iff (k := .invalidParameter) (by decide) (by decide) h).trans
    (commandFault_invalidParameter_iff s i), fun _ _ _ _ _ _ _ _ hshort => if_pos hshort⟩

/-- Settles O41: the keyed test comes after the started check and before the commit step, and a
fault changes nothing (`faultChangesNothing`). -/
theorem modeErrorExactlyOnUnkeyedContext : Obligations.ModeErrorExactlyOnUnkeyedContext := by
  intro i s t h
  refine ⟨(exec_status_iff (k := .modeError) (by decide) (by decide) h).trans
    (commandFault_modeError_iff s i), fun hstatus => ?_⟩
  obtain ⟨hprg, hhash, -⟩ := faultChangesNothing i s t h (by rw [hstatus]; decide)
  exact ⟨hprg, hhash⟩

/-! ## The fault matrix -/

section Matrix
variable {s : State} {i : Instr}

theorem ok_mem_matrix (i : Instr) : Status.ok ∈ matrix i := by
  cases i <;> simp [matrix]

theorem invalidCommand_mem_matrix (i : Instr) : Status.invalidCommand ∈ matrix i := by
  cases i <;> simp [matrix]

theorem notStarted_mem_matrix (h : namesUnstarted s i) : Status.notStarted ∈ matrix i := by
  cases i with
  | bashs | bashf | prgStart | prgClone | hashInit | hashClone => exact h.elim
  | _ => simp [matrix]

theorem invalidParameter_mem_matrix (h : badParameter s i) :
    Status.invalidParameter ∈ matrix i := by
  cases i with
  | prgStart | prgRestart | hashInit => simp [matrix]
  | _ => exact h.elim

theorem modeError_mem_matrix (h : unkeyedCrypt s i) : Status.modeError ∈ matrix i := by
  cases i with
  | prgEncrypt | prgDecrypt => simp [matrix]
  | _ => exact h.elim

end Matrix

/-- Settles O46: the invariant, which the command keeps, admits five codes (R201); each of the three
that the matrix does not give every command has its causes in the commands that have it. -/
theorem faultMatrixHolds : Obligations.FaultMatrixHolds := by
  intro i s t hs h
  obtain ⟨-, -, hok | hpar | hmode | hns | hinv⟩ := exec_inv hs h
  · exact ⟨_, ok_mem_matrix i, hok⟩
  · obtain ⟨hcauses, -⟩ := invalidParameterExactlyOnListedCauses
    exact ⟨_, invalidParameter_mem_matrix ((hcauses i s t h).mp hpar), hpar⟩
  · obtain ⟨hcauses, -⟩ := modeErrorExactlyOnUnkeyedContext i s t h
    exact ⟨_, modeError_mem_matrix (hcauses.mp hmode), hmode⟩
  · have hcauses := notStartedExactlyOnUnstartedContext i s t h
    exact ⟨_, notStarted_mem_matrix (hcauses.mp hns), hns⟩
  · exact ⟨_, invalidCommand_mem_matrix i, hinv⟩

end Sys2Proof.Machine
end

section
/-! The state after reset (R230): what it holds at any parameters, and that the invariant of the block
holds there, which every step then keeps (`stepKeepsInvariant`). -/

namespace Sys2Proof.Machine

open Sys2Proof Sys2Proof.Spec

/-! ## The contexts after reset -/

section Contexts
variable {p : Params}

@[simp] theorem mem_resetWith_prg {c : PrgCtx} :
    c ∈ (State.resetWith p).prg ↔ p.nprg ≠ 0 ∧ c = PrgCtx.reset :=
  List.mem_replicate

@[simp] theorem mem_resetWith_hash {h : HashCtx} :
    h ∈ (State.resetWith p).hash ↔ p.nhash ≠ 0 ∧ h = HashCtx.reset :=
  List.mem_replicate

end Contexts

/-! ## The obligations -/

/-- Settles O51: the case of the default parameters; contexts that are Unstarted or unconstructed
meet their invariants whatever their other fields hold (R34), and OK is a legal code. -/
theorem resetMeetsInvariant : Obligations.ResetMeetsInvariant :=
  resetWith_inv Params.default

/-- Settles O52: the block holds `NPRG` and `NHASH` copies of the two reset contexts. -/
theorem resetState : Obligations.ResetState := by
  intro p
  refine ⟨List.length_replicate, List.length_replicate, fun c hc => ?_, fun h hh => ?_, rfl, rfl⟩
  · obtain ⟨-, rfl⟩ := mem_resetWith_prg.mp hc
    rfl
  · obtain ⟨-, rfl⟩ := mem_resetWith_hash.mp hh
    rfl

end Sys2Proof.Machine
end
